-- ==== Sys2Proof/Word.lean ====
section
/-! DEFINITION. The plain words of the block: bytes, 16-bit registers and opcodes, clock readings and register
numbers (spec/00_scope.md R9, R12; spec/10_state.md R31, R37, R38, R50). -/

namespace Sys2Proof

/-- One byte: a general register, a timer, a byte of memory (R9). -/
abbrev Byte := BitVec 8

/-- A 16-bit register that can hold an address: `I`, `pc`, a stack slot (R37 to R39). -/
abbrev Addr := BitVec 16

/-- A fetched 16-bit instruction word (R95). -/
abbrev Opcode := BitVec 16

/-- A reading of the host's millisecond clock: a number below `2^CLOCK_BITS`, whose width is a parameter (R10, R205). -/
abbrev Time := Nat

/-- The number of a general register, `V0` to `VF` (R31). -/
abbrev Reg := Fin 16

end Sys2Proof
end

