-- ==== Sys2Proof/Config.lean ====
section
/-! DEFINITION. What the source fixes (spec/00_scope.md R9), the parameters of R10 with their defaults, and the free
values: the answers of the host beyond the ones a state lists, and the values the spec leaves unspecified. -/

namespace Sys2Proof

/-- One report of the host's poll callback (R252): `key` 255 means no event. -/
structure PollReport where
  key       : Byte
  keyState  : Bool
  pausedOut : Bool
  stop      : Bool
  deriving DecidableEq, Repr, Inhabited

/-- `MEM_SIZE` (R9). -/
def Config.memSize : Nat := 4096

/-- `STACK_DEPTH` (R9). -/
def Config.stackDepth : Nat := 16

/-- `DISP_W` (R9). -/
def Config.dispW : Nat := 64

/-- `DISP_H` (R9). -/
def Config.dispH : Nat := 32

/-- How many bytes the font region has: 16 glyphs of 5 bytes (R34). -/
def Config.fontSize : Nat := 80

/-- The parameters that the source names but gives no value for, which the model takes as arguments (R10): every state
carries its machine's (log entry 43). `PickKey` is the one parameter not here: it is the free `Config.keyChoice`. -/
structure Params where
  /-- `PROGRAM_OFFSET`: the address of the first program byte and the reset value of `pc`. -/
  programOffset    : Nat
  /-- `FONT_BASE`: the address of the first font byte. -/
  fontBase         : Nat
  /-- `FONT[0..79]` (R35). -/
  font             : Vector Byte 80
  /-- `CLOCK_BITS`: the width of the host's millisecond clock. -/
  clockBits        : Nat
  /-- `P_CPU`, in milliseconds. -/
  pCpu             : Nat
  /-- `P_TMR`, in milliseconds. -/
  pTmr             : Nat
  /-- `P_IN`, in milliseconds. -/
  pIn              : Nat
  /-- `HAS_8XY7`: is the word `8XY7` the reverse subtract, or an undecoded word? -/
  has8xy7          : Bool
  /-- `CLEAR_ALSO_UPDATES`: the `update` flag of the deferred clear. -/
  clearAlsoUpdates : Bool
  deriving DecidableEq, Repr

/-- The constraint every legal instantiation meets: `FONT_BASE + 80 <= PROGRAM_OFFSET <= MEM_SIZE` (R10). -/
abbrev Params.Legal (p : Params) : Prop :=
  p.fontBase + Config.fontSize ≤ p.programOffset ∧ p.programOffset ≤ Config.memSize

/-- The choice of `FONT_BASE` under the default `PROGRAM_OFFSET`, which the spec leaves OPEN within
`FONT_BASE + 80 <= PROGRAM_OFFSET`, so up to 432 (R10, D2). Nothing can evaluate it (log entry 2). -/
opaque Config.fontBaseChoice : Fin 433

/-- `FONT[0..79]`, the spec's default table, glyph `d` on line `d` (R35, D3). PRESUMED: log entry 3. -/
def Config.font : List Byte :=
  [0xF0, 0x90, 0x90, 0x90, 0xF0] ++
  [0x20, 0x60, 0x20, 0x20, 0x70] ++
  [0xF0, 0x10, 0xF0, 0x80, 0xF0] ++
  [0xF0, 0x10, 0xF0, 0x10, 0xF0] ++
  [0x90, 0x90, 0xF0, 0x10, 0x10] ++
  [0xF0, 0x80, 0xF0, 0x10, 0xF0] ++
  [0xF0, 0x80, 0xF0, 0x90, 0xF0] ++
  [0xF0, 0x10, 0x20, 0x40, 0x40] ++
  [0xF0, 0x90, 0xF0, 0x90, 0xF0] ++
  [0xF0, 0x90, 0xF0, 0x10, 0xF0] ++
  [0xF0, 0x90, 0xF0, 0x90, 0x90] ++
  [0xE0, 0x90, 0xE0, 0x90, 0xE0] ++
  [0xF0, 0x80, 0x80, 0x80, 0xF0] ++
  [0xE0, 0x90, 0x90, 0x90, 0xE0] ++
  [0xF0, 0x80, 0xF0, 0x80, 0xF0] ++
  [0xF0, 0x80, 0xF0, 0x80, 0x80]

/-- The parameters with the spec's defaults (R10, R209; D1 to D3, D5, D6, D12, D20; log entries 1 to 7). -/
def Config.params : Params where
  programOffset    := 0x200
  fontBase         := Config.fontBaseChoice.val
  font             := ⟨Config.font.toArray, by decide⟩
  clockBits        := 32
  pCpu             := 2
  pTmr             := 17
  pIn              := 2
  has8xy7          := true
  clearAlsoUpdates := false

/-- `PickKey` (R10, R186, D17): which key the `n`-th choice prefers for a key bitmap. A free value (log entry 8). -/
opaque Config.keyChoice (n : Nat) (keys : BitVec 16) : Fin 16

/-- How many milliseconds pass before a reading of the clock, where the state lists none: a free value (R253; log
entries 9 and 35). -/
opaque Config.freeElapsed (n : Nat) : Nat

/-- The host's answer to `Poll` where the state lists none: a free value (R252; log entry 9). -/
opaque Config.freePoll (n : Nat) (pausedIn : Bool) : PollReport

/-- The host's answer to `Rand8` where the state lists none: a free value (R254; log entry 9). -/
opaque Config.freeRand (n : Nat) : Byte

/-- The host's answer to `DrawPixel` where the state lists none: a free value (R250; log entry 9). -/
opaque Config.freeCollided (n : Nat) (x y : Addr) : Bool

/-- The value that state element number `element` holds once the spec leaves it unspecified for the `n`-th time (after
a failed load, before the first load: R57, U8): a free value (log entry 10). -/
opaque Config.unspecified (n element : Nat) : Nat

end Sys2Proof
end

