-- ==== Sys2Proof/WellFormed.lean ====
section
/-! DEFINITION. Which instructions the instruction set has. The operand fields carry their widths in their types
(spec/30_encoding.md R96), so the one check left is the parameter HAS_8XY7 (spec/00_scope.md R10, D12): without it
the word `8XY7` is no instruction. -/

namespace Sys2Proof

/-- Is `i` an instruction of the set with (`true`) or without (`false`) `8XY7`? (R10, R157) -/
def Instr.wellFormedWith (has8xy7 : Bool) : Instr → Bool
  | .subn _ _ => has8xy7
  | _ => true

/-- `i` is an instruction of the set of a machine with the default parameters. -/
abbrev Instr.WellFormed (i : Instr) : Prop := i.wellFormedWith Config.params.has8xy7 = true

end Sys2Proof
end

