-- ==== Sys2Proof/Decode.lean ====
section
/-! DEFINITION. The decoder, from the mask and match table of spec/30_encoding.md R100, read as R110 says: find the
single row with `op & mask = match`; if there is none, the word is undecoded. After it the encoder, from the formats
of R97. -/

namespace Sys2Proof

/-- `op[15:12]`, the family (R96). -/
def fieldF (op : Opcode) : BitVec 4 := op.extractLsb' 12 4

/-- `op[11:8]`, the first register number (R96). -/
def fieldX (op : Opcode) : Reg := (op.extractLsb' 8 4).toFin

/-- `op[7:4]`, the second register number (R96). -/
def fieldY (op : Opcode) : Reg := (op.extractLsb' 4 4).toFin

/-- `op[3:0]` (R96). -/
def fieldN (op : Opcode) : BitVec 4 := op.extractLsb' 0 4

/-- `op[7:0]` (R96). -/
def fieldNN (op : Opcode) : Byte := op.extractLsb' 0 8

/-- `op[11:0]` (R96). -/
def fieldNNN (op : Opcode) : BitVec 12 := op.extractLsb' 0 12

/-- One row of R100: the word is this instruction if and only if `op & mask = value`. -/
structure OpcodeRow where
  mask  : Opcode
  value : Opcode
  build : Opcode → Instr

/-- Does the word belong to the row? (R100) -/
def rowMatches (r : OpcodeRow) (op : Opcode) : Bool := op &&& r.mask == r.value

/-- Rows 1 to 9 of R100. -/
def opcodeRows1 : List OpcodeRow :=
  [⟨0xFFFF, 0x00E0, fun _ => .cls⟩,
   ⟨0xFFFF, 0x00EE, fun _ => .ret⟩,
   ⟨0xF000, 0x1000, fun op => .jp (fieldNNN op)⟩,
   ⟨0xF000, 0x2000, fun op => .call (fieldNNN op)⟩,
   ⟨0xF000, 0x3000, fun op => .seImm (fieldX op) (fieldNN op)⟩,
   ⟨0xF000, 0x4000, fun op => .sneImm (fieldX op) (fieldNN op)⟩,
   ⟨0xF00F, 0x5000, fun op => .seReg (fieldX op) (fieldY op)⟩,
   ⟨0xF000, 0x6000, fun op => .ldImm (fieldX op) (fieldNN op)⟩,
   ⟨0xF000, 0x7000, fun op => .addImm (fieldX op) (fieldNN op)⟩]

/-- Rows 10 to 19 of R100. -/
def opcodeRows2 : List OpcodeRow :=
  [⟨0xF00F, 0x8000, fun op => .ldReg (fieldX op) (fieldY op)⟩,
   ⟨0xF00F, 0x8001, fun op => .orReg (fieldX op) (fieldY op)⟩,
   ⟨0xF00F, 0x8002, fun op => .andReg (fieldX op) (fieldY op)⟩,
   ⟨0xF00F, 0x8003, fun op => .xorReg (fieldX op) (fieldY op)⟩,
   ⟨0xF00F, 0x8004, fun op => .addReg (fieldX op) (fieldY op)⟩,
   ⟨0xF00F, 0x8005, fun op => .subReg (fieldX op) (fieldY op)⟩,
   ⟨0xF00F, 0x8006, fun op => .shr (fieldX op) (fieldY op)⟩,
   ⟨0xF00F, 0x8007, fun op => .subn (fieldX op) (fieldY op)⟩,
   ⟨0xF00F, 0x800E, fun op => .shl (fieldX op) (fieldY op)⟩,
   ⟨0xF00F, 0x9000, fun op => .sneReg (fieldX op) (fieldY op)⟩]

/-- Rows 20 to 25 of R100. -/
def opcodeRows3 : List OpcodeRow :=
  [⟨0xF000, 0xA000, fun op => .ldIndex (fieldNNN op)⟩,
   ⟨0xF000, 0xB000, fun op => .jpV0 (fieldNNN op)⟩,
   ⟨0xF000, 0xC000, fun op => .rnd (fieldX op) (fieldNN op)⟩,
   ⟨0xF000, 0xD000, fun op => .drw (fieldX op) (fieldY op) (fieldN op)⟩,
   ⟨0xF0FF, 0xE09E, fun op => .skp (fieldX op)⟩,
   ⟨0xF0FF, 0xE0A1, fun op => .sknp (fieldX op)⟩]

/-- Rows 26 to 34 of R100. -/
def opcodeRows4 : List OpcodeRow :=
  [⟨0xF0FF, 0xF007, fun op => .ldVxDt (fieldX op)⟩,
   ⟨0xF0FF, 0xF00A, fun op => .ldVxKey (fieldX op)⟩,
   ⟨0xF0FF, 0xF015, fun op => .ldDtVx (fieldX op)⟩,
   ⟨0xF0FF, 0xF018, fun op => .ldStVx (fieldX op)⟩,
   ⟨0xF0FF, 0xF01E, fun op => .addIndex (fieldX op)⟩,
   ⟨0xF0FF, 0xF029, fun op => .ldFont (fieldX op)⟩,
   ⟨0xF0FF, 0xF033, fun op => .ldBcd (fieldX op)⟩,
   ⟨0xF0FF, 0xF055, fun op => .storeRegs (fieldX op)⟩,
   ⟨0xF0FF, 0xF065, fun op => .loadRegs (fieldX op)⟩]

/-- The opcode table (R100). -/
def opcodeRows : List OpcodeRow := opcodeRows1 ++ opcodeRows2 ++ opcodeRows3 ++ opcodeRows4

/-- Decode one word for a machine with or without `8XY7` (R99, R110, R157). `none`: an undecoded word (R103). -/
def decodeWordWith (has8xy7 : Bool) (op : Opcode) : Option Instr :=
  ((opcodeRows.find? (fun r => rowMatches r op)).map (fun r => r.build op)).filter
    (fun i => i.wellFormedWith has8xy7)

/-- Decode one word for a machine with the default parameters. -/
def decodeWord (op : Opcode) : Option Instr := decodeWordWith Config.params.has8xy7 op

/-- Why bytes are no instruction: fewer than two are left, or the word matches no row (R95, R103). -/
inductive DecodeError where
  | truncated
  | unknownOpcode (op : Opcode)
  deriving DecidableEq, Repr

/-- The word of two bytes at consecutive addresses, the first in the high half (R74). -/
def wordOfBytes (first second : Byte) : Opcode := first ++ second

/-- The two bytes of a word in address order: high byte first (R74). -/
def bytesOfWord (op : Opcode) : List Byte := [op.extractLsb' 8 8, op.extractLsb' 0 8]

/-- Decode the instruction at the head of a byte list, for a machine with or without `8XY7`, and return the bytes
after it (R95, R107). -/
def decodeWith (has8xy7 : Bool) : List Byte → Except DecodeError (Instr × List Byte)
  | first :: second :: rest =>
    match decodeWordWith has8xy7 (wordOfBytes first second) with
    | some i => .ok (i, rest)
    | none => .error (.unknownOpcode (wordOfBytes first second))
  | _ => .error .truncated

/-- Decode the instruction at the head of a byte list for a machine with the default parameters. -/
def decode (bytes : List Byte) : Except DecodeError (Instr × List Byte) :=
  decodeWith Config.params.has8xy7 bytes

/-- Format NNN of R97. -/
def encNNN (f : BitVec 4) (nnn : BitVec 12) : Opcode := f ++ nnn

/-- Format XNN of R97. -/
def encXNN (f : BitVec 4) (x : Reg) (nn : Byte) : Opcode := f ++ (BitVec.ofFin x : BitVec 4) ++ nn

/-- Formats XY and XYN of R97. -/
def encXYN (f : BitVec 4) (x y : Reg) (n : BitVec 4) : Opcode :=
  f ++ (BitVec.ofFin x : BitVec 4) ++ (BitVec.ofFin y : BitVec 4) ++ n

/-- The word of an instruction (the patterns of R100 in the formats of R97). -/
def encode : Instr → Opcode
  | .cls => 0x00E0
  | .ret => 0x00EE
  | .jp nnn => encNNN 0x1 nnn
  | .call nnn => encNNN 0x2 nnn
  | .seImm x nn => encXNN 0x3 x nn
  | .sneImm x nn => encXNN 0x4 x nn
  | .seReg x y => encXYN 0x5 x y 0x0
  | .ldImm x nn => encXNN 0x6 x nn
  | .addImm x nn => encXNN 0x7 x nn
  | .ldReg x y => encXYN 0x8 x y 0x0
  | .orReg x y => encXYN 0x8 x y 0x1
  | .andReg x y => encXYN 0x8 x y 0x2
  | .xorReg x y => encXYN 0x8 x y 0x3
  | .addReg x y => encXYN 0x8 x y 0x4
  | .subReg x y => encXYN 0x8 x y 0x5
  | .shr x y => encXYN 0x8 x y 0x6
  | .subn x y => encXYN 0x8 x y 0x7
  | .shl x y => encXYN 0x8 x y 0xE
  | .sneReg x y => encXYN 0x9 x y 0x0
  | .ldIndex nnn => encNNN 0xA nnn
  | .jpV0 nnn => encNNN 0xB nnn
  | .rnd x nn => encXNN 0xC x nn
  | .drw x y n => encXYN 0xD x y n
  | .skp x => encXNN 0xE x 0x9E
  | .sknp x => encXNN 0xE x 0xA1
  | .ldVxDt x => encXNN 0xF x 0x07
  | .ldVxKey x => encXNN 0xF x 0x0A
  | .ldDtVx x => encXNN 0xF x 0x15
  | .ldStVx x => encXNN 0xF x 0x18
  | .addIndex x => encXNN 0xF x 0x1E
  | .ldFont x => encXNN 0xF x 0x29
  | .ldBcd x => encXNN 0xF x 0x33
  | .storeRegs x => encXNN 0xF x 0x55
  | .loadRegs x => encXNN 0xF x 0x65

/-- The instruction's bytes in address order. -/
def encodeBytes (i : Instr) : List Byte := bytesOfWord (encode i)

/-- The word whose bits the opcode table numbers: bit 0 is the least significant bit of the one 16-bit word, and every
bit above `nbits` is 0. -/
def tableWord (nbits w : Nat) : Opcode := BitVec.ofNat 16 (w % 2 ^ nbits)

/-- What the decoder reads from a table row's word, laid out in memory high byte first (R74). -/
def decodeTableWord (nbits w : Nat) : Option Instr :=
  match decode (bytesOfWord (tableWord nbits w)) with
  | .ok (i, _) => some i
  | .error _ => none

end Sys2Proof
end

