-- ==== Sys2Proof/Machine/State.lean ====
section
/-! DEFINITION. The state of the block (spec/10_state.md R30), the host's part that a step reads (the calls it makes
and the answers it gives, spec/00_scope.md R18, R19, R21), what a step can answer, and the state right after reset. -/

namespace Sys2Proof.Machine

/-- The memory image: the bytes that differ from the contents after a load of an empty program, by rising address
(R33; the canonical form is `Memory.wf`, what an unlisted address reads as, with the machine's parameters, is
`Memory.initial`). -/
abbrev Memory := List Host.Cell

/-- QuirkConfig (R44). -/
structure Quirks where
  vfReset  : Bool
  shiftVx  : Bool
  wrap     : Bool
  indexInc : Bool
  deriving DecidableEq, Repr

/-- The three callback bindings of a load (R51). A number names the host's function; the block only calls it. -/
structure Callbacks where
  drawPixel : Nat
  screen    : Nat
  poll      : Nat
  deriving DecidableEq, Repr

/-- The five fault kinds of the hardware, each with the `info` it reports (R230). They are terminal for the run but
they are states of the machine, not stops of the model: `raise` enters them (R236). -/
inductive HwFault where
  | romTooLarge (length : Nat)
  | stackUnderflow (pc : Addr)
  | stackOverflow (pc : Addr)
  | unknownOpcode (op : Opcode) (pc : Addr)
  | invalidKeyIndex (key : Byte) (pc : Option Addr)
  deriving DecidableEq, Repr

/-- One interaction of the block with its host, for the ordered trace (R86, R255): the call, the binding it went
through, its arguments and the host's answer; `now` and `rand` are readings, `report` is a fault's report, the last
two are the host's queries. -/
inductive HostEvent where
  | drawPixel (callback : Nat) (x y : Addr) (collided : Bool)
  | screen (callback : Nat) (clear update : Bool)
  | poll (callback : Nat) (pausedIn : Bool) (answer : PollReport)
  | now (t : Time)
  | rand (r : Byte)
  | report (f : HwFault)
  | runningIs (answer : Bool)
  | soundActiveIs (answer : Bool)
  deriving DecidableEq, Repr

/-- The arguments of `load_and_run` (R270): the buffer, its stated length, the three callbacks, `quirk_flags[4]`. -/
structure LoadRequest where
  program    : List Byte
  length     : Nat
  callbacks  : Callbacks
  quirkFlags : Vector Bool 4
  deriving DecidableEq, Repr

/-- What the host can do to the block (R19): load, tick, and read its two outputs (R256, R257). -/
inductive HostOp where
  | load (request : LoadRequest)
  | tick
  | isRunning
  | readSoundActive
  deriving DecidableEq, Repr

/-- The state. `params` is the machine's instantiation (R10), which nothing changes. From `v` to `callbacks` the state is
the block's (R30). From `ops` on it is the host's part and the model's own: what the host will do, the milliseconds since
boot at its clock's last reading and the ones that pass before each coming reading (so the clock never goes backwards,
R258), its other answers, a counter for free values, and the trace of the interactions so far. -/
structure State where
  params       : Params
  v            : Vector Byte 16
  index        : Addr
  pc           : Addr
  stack        : Vector Addr 16
  sp           : BitVec 8
  delay        : Byte
  sound        : Byte
  keys         : BitVec 16
  quirks       : Quirks
  running      : Bool
  paused       : Bool
  clearPending : Bool
  soundActive  : Bool
  lastIn       : Time
  lastTmr      : Time
  lastCpu      : Time
  mem          : Memory
  callbacks    : Callbacks
  ops          : List HostOp
  hostTime     : Nat
  clock        : List Nat
  polls        : List PollReport
  rands        : List Byte
  collisions   : List Bool
  fresh        : Nat
  trace        : List HostEvent
  deriving DecidableEq, Repr

/-- Why the model stops. None of these is a fault of the hardware (R248): each marks a point where the spec gives the
block no behaviour (R17). -/
inductive Fault where
  /-- `unspecified MemOutOfRange` (R73): raised by a CPU step whose fetch, and by `DXYN`, `FX33`, `FX55`, `FX65` whose
  bytes, would leave `0..4095`. The source gives no behaviour; safe, errs toward unprovable. -/
  | memOutOfRange
  /-- `unspecified FontIndexRange` (R190): raised by `FX29` with `V[X] > 15`. The source gives no behaviour; safe, errs
  toward unprovable. -/
  | fontIndexRange
  /-- `unspecified HostContract` (R258): raised by a load whose buffer is shorter than its stated length. The source
  gives no behaviour; safe, errs toward unprovable. -/
  | hostContract
  /-- Raised by `00EE` and `2NNN` where `SP` names no slot of the stack (`SP > 16`), which the invariant of R40 rules
  out in every run of the block; safe, no run reaches it. -/
  | stackSlotRange
  deriving DecidableEq, Repr

/-- Why an instruction has no meaning. -/
inductive Refusal where
  /-- Raised by `exec`'s arm of an instruction that is not modelled yet; no arm does. Safe. -/
  | notModelled (mnemonic : String)
  deriving DecidableEq, Repr

/-- The block right after its reset, a successful load (R56, R275), here the load of an empty program (R279) with
the default parameters, every quirk off, no callbacks named and the clock at 0 (log entries 11 and 12); no host call is
listed. -/
def State.reset : State where
  params       := Config.params
  v            := Vector.replicate 16 0
  index        := 0
  pc           := BitVec.ofNat 16 Config.params.programOffset
  stack        := Vector.replicate 16 0
  sp           := 0
  delay        := 0
  sound        := 0
  keys         := 0
  quirks       := ⟨false, false, false, false⟩
  running      := true
  paused       := false
  clearPending := false
  soundActive  := false
  lastIn       := 0
  lastTmr      := 0
  lastCpu      := 0
  mem          := []
  callbacks    := ⟨0, 0, 0⟩
  ops          := []
  hostTime     := 0
  clock        := []
  polls        := []
  rands        := []
  collisions   := []
  fresh        := 0
  trace        := []

end Sys2Proof.Machine
end

