-- ==== Sys2Proof/Machine/Ops.lean ====
section
/-! DEFINITION. The named operations over memory, registers, the program counter, the call stack and the host's
interface, and entering a hardware fault, the one way an exception is taken (spec/60_exceptions.md R236; there is no
return from one, R237). -/

namespace Sys2Proof.Machine

/-! Memory (spec/20_memory.md R70 to R73) -/

/-- What an unlisted address reads as: the contents after a load, the font in its region and zero elsewhere (R33, R34,
R56). -/
def Memory.initial (p : Params) (a : Nat) : Byte :=
  if a < p.programOffset then
    if p.fontBase ≤ a ∧ a < p.fontBase + Config.fontSize then p.font.toList.getD (a - p.fontBase) 0 else 0
  else 0

/-- `mem[a]` (R72). -/
def Memory.read (p : Params) : Memory → Nat → Byte
  | [], a => Memory.initial p a
  | (k, b) :: rest, a => if k = a then b else Memory.read p rest a

/-- `mem[a] <- b`, keeping the canonical form (R72). -/
def Memory.write (p : Params) : Memory → Nat → Byte → Memory
  | [], a, b => if b = Memory.initial p a then [] else [(a, b)]
  | (k, c) :: rest, a, b =>
    if a < k then
      if b = Memory.initial p a then (k, c) :: rest else (a, b) :: (k, c) :: rest
    else if k = a then
      if b = Memory.initial p a then rest else (a, b) :: rest
    else (k, c) :: Memory.write p rest a b

/-- Store bytes at consecutive addresses, the first at `a` (R75). -/
def Memory.writeList (p : Params) : Memory → Nat → List Byte → Memory
  | m, _, [] => m
  | m, a, b :: rest => Memory.writeList p (Memory.write p m a b) (a + 1) rest

/-- The `n` bytes from `a` on, in address order (R75). -/
def Memory.readList (p : Params) (m : Memory) (a n : Nat) : List Byte :=
  (List.range n).map fun k => Memory.read p m (a + k)

/-- The canonical form: addresses strictly rising and inside memory, no entry equal to what an unlisted address reads
as. -/
abbrev Memory.wf (p : Params) (m : Memory) : Prop :=
  m.Pairwise (fun c d => c.1 < d.1) ∧ ∀ c ∈ m, c.1 < Config.memSize ∧ c.2 ≠ Memory.initial p c.1

/-- Do the `n` bytes from `a` on lie inside `0..4095`? An access of no byte asks for nothing (R73, R77). -/
abbrev SpanInside (a n : Nat) : Prop := n = 0 ∨ a + n ≤ Config.memSize

/-- `MemRead(a, 1)` of a state's memory. -/
def readByte (s : State) (a : Nat) : Byte := Memory.read s.params s.mem a

/-- `MemRead(pc, 2)`: the word to execute, high byte first; `none` where it would leave memory (R73, R74, R215). -/
def fetchWord (s : State) : Option Opcode :=
  if SpanInside s.pc.toNat 2 then
    some (wordOfBytes (readByte s s.pc.toNat) (readByte s (s.pc.toNat + 1)))
  else none

/-- Store bytes from address `a` on. -/
def storeBytes (a : Nat) (bs : List Byte) (s : State) : State :=
  { s with mem := Memory.writeList s.params s.mem a bs }

/-- Put a word where the next fetch reads it, if it fits in memory. -/
def placeWord (op : Opcode) (s : State) : State :=
  if SpanInside s.pc.toNat 2 then storeBytes s.pc.toNat (bytesOfWord op) s else s

/-! Registers (spec/10_state.md R31, R32, R37, R38) -/

/-- `V[x]` (R14). -/
def getV (s : State) (x : Reg) : Byte := s.v[x]

/-- `V[x] <- b` (R14). -/
def setV (x : Reg) (b : Byte) (s : State) : State := { s with v := s.v.set x.val b x.isLt }

/-- `VF <- 1` or `VF <- 0` (R32). -/
def setFlag (f : Bool) (s : State) : State := setV 15 (if f then 1 else 0) s

/-- `I <- a` (R37). -/
def setIndex (a : Addr) (s : State) : State := { s with index := a }

/-- `pc <- a` (R14). -/
def setPc (a : Addr) (s : State) : State := { s with pc := a }

/-- `pc <- pc + 2` (R38). -/
def advance (s : State) : State := setPc (s.pc + 2) s

/-- Skip-next: `pc <- pc + 4` if `c`, else `pc <- pc + 2` (R134). -/
def skipNextIf (c : Bool) (s : State) : State := if c then setPc (s.pc + 4) s else advance s

/-! The call stack (spec/10_state.md R39, R40) -/

/-- Push a return address; the slot `SP` names must exist. -/
def pushReturn (a : Addr) (s : State) (h : s.sp.toNat < 16) : State :=
  { s with stack := s.stack.set s.sp.toNat a h, sp := s.sp + 1 }

/-- The return address a pop reads; the slot keeps its value. -/
def topReturn (s : State) (h : s.sp.toNat - 1 < 16) : Addr := s.stack[s.sp.toNat - 1]

/-- Drop the top return address from the stack. -/
def dropReturn (s : State) : State := { s with sp := s.sp - 1 }

/-! Hardware faults (spec/60_exceptions.md R230, R236) -/

/-- The numeric code of a fault kind (R230, D22). -/
def HwFault.code : HwFault → Nat
  | .romTooLarge _ => 1
  | .stackUnderflow _ => 2
  | .stackOverflow _ => 3
  | .unknownOpcode _ _ => 4
  | .invalidKeyIndex _ _ => 5

/-- Record an interaction with the host at the end of the trace (R86). -/
def note (e : HostEvent) (s : State) : State := { s with trace := s.trace ++ [e] }

/-- Fault entry, the same for all five (R16, R236): report, then `running <- false`; nothing is saved and control goes
nowhere. The caller gives the state before the instruction's or activity's own writes. -/
def raise (f : HwFault) (s : State) : State := { note (.report f) s with running := false }

/-! The host's answers (spec/60_exceptions.md R249 to R254). Each is the next one the state lists or, where it lists
none, a free value; `after…` is the state once the answer is taken. -/

/-- One free value has been used if `used`. -/
def useFresh (used : Bool) (s : State) : State := { s with fresh := if used then s.fresh + 1 else s.fresh }

/-- The milliseconds that pass before the next reading of the clock. -/
def elapsedAnswer (s : State) : Nat := s.clock.headD (Config.freeElapsed s.fresh)

/-- The host's time, in milliseconds since boot, at the next reading: never less than at the last one (R205, R258). -/
def timeAtNow (s : State) : Nat := s.hostTime + elapsedAnswer s

/-- `Now()`: the host's time in `CLOCK_BITS` bits, wrapping (R205, R253). -/
def nowAnswer (s : State) : Time := timeAtNow s % 2 ^ s.params.clockBits

def afterNow (s : State) : State :=
  note (.now (nowAnswer s))
    (useFresh s.clock.isEmpty { s with hostTime := timeAtNow s, clock := s.clock.tail })

/-- `Rand8()` (R254). -/
def randAnswer (s : State) : Byte := s.rands.headD (Config.freeRand s.fresh)

def afterRand (s : State) : State :=
  note (.rand (randAnswer s)) (useFresh s.rands.isEmpty { s with rands := s.rands.tail })

/-- `Poll(paused)` (R252). -/
def pollAnswer (s : State) : PollReport := s.polls.headD (Config.freePoll s.fresh s.paused)

def afterPoll (s : State) : State :=
  note (.poll s.callbacks.poll s.paused (pollAnswer s))
    (useFresh s.polls.isEmpty { s with polls := s.polls.tail })

/-- `DrawPixel(x, y)` (R250). -/
def collidedAnswer (p : Addr × Addr) (s : State) : Bool :=
  s.collisions.headD (Config.freeCollided s.fresh p.1 p.2)

def afterDrawPixel (p : Addr × Addr) (s : State) : State :=
  note (.drawPixel s.callbacks.drawPixel p.1 p.2 (collidedAnswer p s))
    (useFresh s.collisions.isEmpty { s with collisions := s.collisions.tail })

/-- `Screen(clear, update)` (R251). -/
def callScreen (clear update : Bool) (s : State) : State :=
  note (.screen s.callbacks.screen clear update) s

/-! The key a key-wait takes (spec/47_fx_misc.md R186, D17) -/

/-- The lowest-numbered key of a bitmap. -/
def lowestKey (keys : BitVec 16) : Reg :=
  ((List.finRange 16).find? fun k => keys.getLsbD k.val).getD 0

/-- `PickKey`: some key of the bitmap. Which one is free: the free choice where it names a key that is down, and
otherwise the lowest. -/
def pickKey (s : State) : Reg :=
  if s.keys.getLsbD (Config.keyChoice s.fresh s.keys).val then Config.keyChoice s.fresh s.keys
  else lowestKey s.keys

end Sys2Proof.Machine
end

