-- ==== Sys2Proof/Machine/Reset.lean ====
section
/-! DEFINITION. The load, the block's only reset (spec/70_reset_and_hazards.md R270 to R276), and the states whose
contents the spec leaves unspecified: after a failed load and before the first load (spec/10_state.md R57). -/

namespace Sys2Proof.Machine

/-- The four switches in the order of `quirk_flags` (R44, R274, D4). -/
def quirksOfFlags (f : Vector Bool 4) : Quirks := ⟨f[0], f[1], f[2], f[3]⟩

/-- The memory after a load of `program`: zero but for the font and the program (R36, R56). -/
def loadedMemory (p : Params) (program : List Byte) : Memory := Memory.writeList p [] p.programOffset program

/-- How many program bytes fit: `MEM_SIZE - PROGRAM_OFFSET` (R11). -/
def programCapacity (p : Params) : Nat := Config.memSize - p.programOffset

/-- A memory image whose every byte is a free value (R57). -/
def unspecifiedMemory (p : Params) (n : Nat) : Memory :=
  Memory.writeList p [] 0
    ((List.range Config.memSize).map fun a => BitVec.ofNat 8 (Config.unspecified n (100 + a)))

/-- The same state with every element of the block but `running` unspecified: a free value each (R57; log entry 10).
The host's part is not the block's and stays. -/
def unspecify (s : State) : State :=
  let u := Config.unspecified s.fresh
  { useFresh true s with
    v            := Vector.ofFn fun r : Fin 16 => BitVec.ofNat 8 (u r.val)
    stack        := Vector.ofFn fun k : Fin 16 => BitVec.ofNat 16 (u (20 + k.val))
    index        := BitVec.ofNat 16 (u 40)
    pc           := BitVec.ofNat 16 (u 41)
    sp           := BitVec.ofNat 8 (u 42)
    delay        := BitVec.ofNat 8 (u 43)
    sound        := BitVec.ofNat 8 (u 44)
    keys         := BitVec.ofNat 16 (u 45)
    quirks       := ⟨(u 46).testBit 0, (u 46).testBit 1, (u 46).testBit 2, (u 46).testBit 3⟩
    paused       := (u 47).testBit 0
    clearPending := (u 48).testBit 0
    soundActive  := (u 49).testBit 0
    lastIn       := u 50 % 2 ^ s.params.clockBits
    lastTmr      := u 51 % 2 ^ s.params.clockBits
    lastCpu      := u 52 % 2 ^ s.params.clockBits
    callbacks    := ⟨u 53, u 54, u 55⟩
    mem          := unspecifiedMemory s.params s.fresh }

/-- The effect of a successful load whose reading of the clock is `now` (R56, R270). -/
def loaded (r : LoadRequest) (now : Time) (s : State) : State :=
  { s with
    v            := Vector.replicate 16 0
    index        := 0
    pc           := BitVec.ofNat 16 s.params.programOffset
    stack        := Vector.replicate 16 0
    sp           := 0
    delay        := 0
    sound        := 0
    keys         := 0
    quirks       := quirksOfFlags r.quirkFlags
    running      := true
    paused       := false
    clearPending := false
    soundActive  := false
    lastIn       := now
    lastTmr      := now
    lastCpu      := now
    callbacks    := r.callbacks
    mem          := loadedMemory s.params (r.program.take r.length) }

/-- `load_and_run` (R231, R270, R271). A buffer shorter than the stated length breaks the host's contract (R258). -/
def loadAndRun (r : LoadRequest) (s : State) : Host.Outcome State Fault Refusal :=
  if r.length > programCapacity s.params then .next (unspecify (raise (.romTooLarge r.length) s))
  else if r.program.length < r.length then .fault .hostContract
  else .next (loaded r (nowAnswer s) (afterNow s))

/-- The block at power-on, before the first load (R57, R276, D23): not running, everything else unspecified. -/
def powerOn : State := { unspecify State.reset with running := false }

end Sys2Proof.Machine
end

