-- ==== Sys2Proof/Machine/Operands.lean ====
section
/-! DEFINITION. The operand forms (spec/30_encoding.md R98): registers and immediates, the byte at `I + k`, jump
targets, the source of a shift, the digits of a register, a font glyph's address. -/

namespace Sys2Proof.Machine

/-- `NNN` where it meets a 16-bit register: `zext_16(NNN)` (R98). -/
def zextNNN (nnn : BitVec 12) : Addr := nnn.setWidth 16

/-- The target of `BNNN`: `zext_16(NNN) + zext_16(V[0])`, not masked (R166). -/
def indexedTarget (nnn : BitVec 12) (s : State) : Addr := zextNNN nnn + (getV s 0).setWidth 16

/-- The source of a shift: `V[X]` with `Q.shift_vx`, else `V[Y]` (R156, R158). -/
def shiftSource (x y : Reg) (s : State) : Byte := if s.quirks.shiftVx then getV s x else getV s y

/-- The base address of a memory access: `I` as an unbounded integer (R72). -/
def baseAddr (s : State) : Nat := s.index.toNat

/-- The three decimal digits of a byte, hundreds first (R191). -/
def bcdDigits (b : Byte) : List Byte :=
  [BitVec.ofNat 8 (b.toNat / 100), BitVec.ofNat 8 (b.toNat / 10 % 10), BitVec.ofNat 8 (b.toNat % 10)]

/-- The values of `V0..VX`, lowest register first (R193). -/
def regsUpTo (x : Reg) (s : State) : List Byte := s.v.toList.take (x.val + 1)

/-- The registers after `V0..VX` are loaded from `I` on; those above `X` keep their values (R194). -/
def regsLoaded (x : Reg) (s : State) : Vector Byte 16 :=
  Vector.ofFn fun r : Fin 16 => if r ≤ x then readByte s (baseAddr s + r.val) else getV s r

/-- The address of digit `d`'s font glyph: `FONT_BASE + 5 * d` (R190). -/
def glyphAddr (p : Params) (d : Nat) : Addr := BitVec.ofNat 16 (p.fontBase + 5 * d)

/-- `if Q.index_inc then I <- I + X + 1` (R195). -/
def bumpIndex (x : Reg) (s : State) : State :=
  if s.quirks.indexInc then setIndex (BitVec.ofNat 16 (s.index.toNat + x.val + 1)) s else s

end Sys2Proof.Machine
end

