-- ==== Sys2Proof/Machine/Flags.lean ====
section
/-! DEFINITION. The flag computations (spec/10_state.md R32, spec/43_alu.md R150 to R160): each from the exact
unsigned integers of the operands. -/

namespace Sys2Proof.Machine

/-- The carry out of an 8-bit addition (R154). -/
def carryOut (a b : Byte) : Bool := decide (a.toNat + b.toNat > 255)

/-- The not-borrow of `a - b` (R155, R157). -/
def notBorrow (a b : Byte) : Bool := decide (a.toNat ≥ b.toNat)

/-- The bit a right shift by one drops (R156). -/
def shiftedOutRight (b : Byte) : Bool := b.getLsbD 0

/-- The bit a left shift by one drops (R158). -/
def shiftedOutLeft (b : Byte) : Bool := b.getLsbD 7

/-- The exact sum `I + V[X]` (R189). -/
def indexSum (x : Reg) (s : State) : Nat := s.index.toNat + (getV s x).toNat

/-- Does the sum leave the 12-bit address space? (R189) -/
def indexOverflow (x : Reg) (s : State) : Bool := decide (indexSum x s > 0x0FFF)

/-- The sum masked to 12 bits: the only place the block masks an address (R71, R189). -/
def maskedIndexSum (x : Reg) (s : State) : Addr := BitVec.ofNat 16 (indexSum x s % 0x1000)

/-- The logic operations' `if Q.vf_reset then VF <- 0` (R151 to R153). -/
def logicFlag (s : State) : State := if s.quirks.vfReset then setFlag false s else s

/-- An arithmetic or shift result with its flag: the result into `V[X]` first, `VF` last (R159). -/
def setResultAndFlag (x : Reg) (r : Byte) (f : Bool) (s : State) : State := setFlag f (setV x r s)

end Sys2Proof.Machine
end

