-- ==== Sys2Proof/Machine/Alu.lean ====
section
/-! DEFINITION. Family 8, the register-register ALU (spec/43_alu.md). Operands are read from the state before any
write, the result is written first and `VF` last (R159). -/

namespace Sys2Proof.Machine

/-- `8XY0` LD VX, VY (R150). -/
def execLdReg (x y : Reg) (s : State) : Host.Outcome State Fault Refusal :=
  .next (advance (setV x (getV s y) s))

/-- `8XY1` OR VX, VY (R151). -/
def execOrReg (x y : Reg) (s : State) : Host.Outcome State Fault Refusal :=
  .next (advance (logicFlag (setV x (getV s x ||| getV s y) s)))

/-- `8XY2` AND VX, VY (R152). -/
def execAndReg (x y : Reg) (s : State) : Host.Outcome State Fault Refusal :=
  .next (advance (logicFlag (setV x (getV s x &&& getV s y) s)))

/-- `8XY3` XOR VX, VY (R153). -/
def execXorReg (x y : Reg) (s : State) : Host.Outcome State Fault Refusal :=
  .next (advance (logicFlag (setV x (getV s x ^^^ getV s y) s)))

/-- `8XY4` ADD VX, VY (R154). -/
def execAddReg (x y : Reg) (s : State) : Host.Outcome State Fault Refusal :=
  .next (advance (setResultAndFlag x (getV s x + getV s y) (carryOut (getV s x) (getV s y)) s))

/-- `8XY5` SUB VX, VY (R155). -/
def execSubReg (x y : Reg) (s : State) : Host.Outcome State Fault Refusal :=
  .next (advance (setResultAndFlag x (getV s x - getV s y) (notBorrow (getV s x) (getV s y)) s))

/-- `8XY6` SHR VX, VY (R156). -/
def execShr (x y : Reg) (s : State) : Host.Outcome State Fault Refusal :=
  .next (advance (setResultAndFlag x (shiftSource x y s >>> 1) (shiftedOutRight (shiftSource x y s)) s))

/-- `8XY7` SUBN VX, VY (R157). PRESUMED: log entry 6. -/
def execSubn (x y : Reg) (s : State) : Host.Outcome State Fault Refusal :=
  .next (advance (setResultAndFlag x (getV s y - getV s x) (notBorrow (getV s y) (getV s x)) s))

/-- `8XYE` SHL VX, VY (R158). -/
def execShl (x y : Reg) (s : State) : Host.Outcome State Fault Refusal :=
  .next (advance (setResultAndFlag x (shiftSource x y s <<< 1) (shiftedOutLeft (shiftSource x y s)) s))

end Sys2Proof.Machine
end

