-- ==== Sys2Proof/Machine/Draw.lean ====
section
/-! DEFINITION. The sprite draw (spec/45_draw.md). The pixels a sprite plots are computed first, in the order the host
sees them (rows outermost, columns innermost, R171); the host is then called once for each. -/

namespace Sys2Proof.Machine

/-- The cell the pixel (`px`, `py`) plots, if any: wrapped, or clipped (R172). -/
def plotTarget (wrap : Bool) (px py : Nat) : Option (Addr × Addr) :=
  if wrap then some (BitVec.ofNat 16 (px % Config.dispW), BitVec.ofNat 16 (py % Config.dispH))
  else if px < Config.dispW ∧ py < Config.dispH then some (BitVec.ofNat 16 px, BitVec.ofNat 16 py)
  else none

/-- The cells one sprite byte plots; bit 7 is column 0 (R171). PRESUMED: log entry 13. -/
def rowPixels (wrap : Bool) (x0 py : Nat) (byte : Byte) : List (Addr × Addr) :=
  (List.range 8).filterMap fun col =>
    if byte.getLsbD (7 - col) then plotTarget wrap (x0 + col) py else none

/-- The cells a sprite plots, its first byte in row `y0` (R170). -/
def spritePixels (wrap : Bool) (x0 : Nat) : Nat → List Byte → List (Addr × Addr)
  | _, [] => []
  | y0, byte :: rest => rowPixels wrap x0 y0 byte ++ spritePixels wrap x0 (y0 + 1) rest

/-- Call `DrawPixel` for each cell in order; was any call's answer a collision? (R173) -/
def plotAll : List (Addr × Addr) → State → Bool × State
  | [], s => (false, s)
  | p :: ps, s =>
    let r := plotAll ps (afterDrawPixel p s)
    (collidedAnswer p s || r.1, r.2)

/-- The sprite bytes of `DXYN` (R177). -/
def spriteBytes (n : BitVec 4) (s : State) : List Byte := Memory.readList s.params s.mem (baseAddr s) n.toNat

/-- The cells `DXYN` plots, its operands read before `VF` is cleared (R170, R174). -/
def drawTargets (x y : Reg) (n : BitVec 4) (s : State) : List (Addr × Addr) :=
  spritePixels s.quirks.wrap (getV s x).toNat (getV s y).toNat (spriteBytes n s)

/-- `DXYN` DRW VX, VY, N (R170). -/
def execDrw (x y : Reg) (n : BitVec 4) (s : State) : Host.Outcome State Fault Refusal :=
  if SpanInside (baseAddr s) n.toNat then
    let r := plotAll (drawTargets x y n s) (setFlag false s)
    .next (advance (callScreen false true (if r.1 then setFlag true r.2 else r.2)))
  else .fault .memOutOfRange

end Sys2Proof.Machine
end

