-- ==== Sys2Proof/Machine/Flow.lean ====
section
/-! DEFINITION. Family 0, jump and call (spec/40_system_flow.md). -/

namespace Sys2Proof.Machine

/-- `00E0` CLS (R120): the clear is deferred to the next timer step; no host call is made here. -/
def execCls (s : State) : Host.Outcome State Fault Refusal :=
  .next (advance { s with clearPending := true })

/-- `00EE` RET (R121). -/
def execRet (s : State) : Host.Outcome State Fault Refusal :=
  if s.sp = 0 then .next (raise (.stackUnderflow s.pc) s)
  else if h : s.sp.toNat - 1 < 16 then .next (setPc (topReturn s h) (dropReturn s))
  else .fault .stackSlotRange

/-- `1NNN` JP (R122). -/
def execJp (nnn : BitVec 12) (s : State) : Host.Outcome State Fault Refusal :=
  .next (setPc (zextNNN nnn) s)

/-- `2NNN` CALL (R123). -/
def execCall (nnn : BitVec 12) (s : State) : Host.Outcome State Fault Refusal :=
  if s.sp = 16 then .next (raise (.stackOverflow s.pc) s)
  else if h : s.sp.toNat < 16 then .next (setPc (zextNNN nnn) (pushReturn (s.pc + 2) s h))
  else .fault .stackSlotRange

end Sys2Proof.Machine
end

