-- ==== Sys2Proof/Machine/Immediate.lean ====
section
/-! DEFINITION. Load and add immediate (spec/42_immediate.md). -/

namespace Sys2Proof.Machine

/-- `6XNN` LD VX, NN (R140). -/
def execLdImm (x : Reg) (nn : Byte) (s : State) : Host.Outcome State Fault Refusal :=
  .next (advance (setV x nn s))

/-- `7XNN` ADD VX, NN (R141): modulo 256, no flag. -/
def execAddImm (x : Reg) (nn : Byte) (s : State) : Host.Outcome State Fault Refusal :=
  .next (advance (setV x (getV s x + nn) s))

end Sys2Proof.Machine
end

