-- ==== Sys2Proof/Machine/Index.lean ====
section
/-! DEFINITION. Load index, indexed jump, random (spec/44_index_jump_random.md). -/

namespace Sys2Proof.Machine

/-- `ANNN` LD I, NNN (R165). -/
def execLdIndex (nnn : BitVec 12) (s : State) : Host.Outcome State Fault Refusal :=
  .next (advance (setIndex (zextNNN nnn) s))

/-- `BNNN` JP V0, NNN (R166). -/
def execJpV0 (nnn : BitVec 12) (s : State) : Host.Outcome State Fault Refusal :=
  .next (setPc (indexedTarget nnn s) s)

/-- `CXNN` RND VX, NN (R167): one draw from the host, masked. -/
def execRnd (x : Reg) (nn : Byte) (s : State) : Host.Outcome State Fault Refusal :=
  .next (advance (setV x (randAnswer s &&& nn) (afterRand s)))

end Sys2Proof.Machine
end

