-- ==== Sys2Proof/Machine/Keys.lean ====
section
/-! DEFINITION. Skips on key state (spec/46_keys.md). -/

namespace Sys2Proof.Machine

/-- Is the key numbered `V[X]` down, as the last input poll left `KEYS`? (R180) -/
def keyDown (x : Reg) (s : State) : Bool := s.keys.getLsbD (getV s x).toNat

/-- `EX9E` SKP VX (R180); an index of 16 or more is a hardware fault (R182). -/
def execSkp (x : Reg) (s : State) : Host.Outcome State Fault Refusal :=
  if (getV s x).toNat ≥ 16 then .next (raise (.invalidKeyIndex (getV s x) (some s.pc)) s)
  else .next (skipNextIf (keyDown x s) s)

/-- `EXA1` SKNP VX (R181); an index of 16 or more is a hardware fault (R182). -/
def execSknp (x : Reg) (s : State) : Host.Outcome State Fault Refusal :=
  if (getV s x).toNat ≥ 16 then .next (raise (.invalidKeyIndex (getV s x) (some s.pc)) s)
  else .next (skipNextIf (!keyDown x s) s)

end Sys2Proof.Machine
end

