-- ==== Sys2Proof/Machine/Misc.lean ====
section
/-! DEFINITION. Family F: timers, key wait, index arithmetic, font, BCD, block store and load
(spec/47_fx_misc.md). -/

namespace Sys2Proof.Machine

/-- `FX07` LD VX, DT (R185). -/
def execLdVxDt (x : Reg) (s : State) : Host.Outcome State Fault Refusal :=
  .next (advance (setV x s.delay s))

/-- `FX0A` LD VX, K (R186): with no key down nothing changes, and the same instruction is fetched again. -/
def execLdVxKey (x : Reg) (s : State) : Host.Outcome State Fault Refusal :=
  if s.keys = 0 then .next s
  else .next (advance (setV x (BitVec.ofNat 8 (pickKey s).val) (useFresh true s)))

/-- `FX15` LD DT, VX (R187). -/
def execLdDtVx (x : Reg) (s : State) : Host.Outcome State Fault Refusal :=
  .next (advance { s with delay := getV s x })

/-- `FX18` LD ST, VX (R188): `sound_active` follows only at the next timer step. -/
def execLdStVx (x : Reg) (s : State) : Host.Outcome State Fault Refusal :=
  .next (advance { s with sound := getV s x })

/-- `FX1E` ADD I, VX (R189). -/
def execAddIndex (x : Reg) (s : State) : Host.Outcome State Fault Refusal :=
  .next (advance (setFlag (indexOverflow x s) (setIndex (maskedIndexSum x s) s)))

/-- `FX29` LD F, VX (R190); the spec gives no meaning above digit 15. -/
def execLdFont (x : Reg) (s : State) : Host.Outcome State Fault Refusal :=
  if (getV s x).toNat > 15 then .fault .fontIndexRange
  else .next (advance (setIndex (glyphAddr s.params (getV s x).toNat) s))

/-- `FX33` LD B, VX (R191). -/
def execLdBcd (x : Reg) (s : State) : Host.Outcome State Fault Refusal :=
  if SpanInside (baseAddr s) 3 then .next (advance (storeBytes (baseAddr s) (bcdDigits (getV s x)) s))
  else .fault .memOutOfRange

/-- `FX55` LD [I], VX (R193, R195). -/
def execStoreRegs (x : Reg) (s : State) : Host.Outcome State Fault Refusal :=
  if SpanInside (baseAddr s) (x.val + 1) then
    .next (advance (bumpIndex x (storeBytes (baseAddr s) (regsUpTo x s) s)))
  else .fault .memOutOfRange

/-- `FX65` LD VX, [I] (R194, R195). -/
def execLoadRegs (x : Reg) (s : State) : Host.Outcome State Fault Refusal :=
  if SpanInside (baseAddr s) (x.val + 1) then
    .next (advance (bumpIndex x { s with v := regsLoaded x s }))
  else .fault .memOutOfRange

end Sys2Proof.Machine
end

