-- ==== Sys2Proof/Machine/Skips.lean ====
section
/-! DEFINITION. Conditional skips on registers and immediates (spec/41_skips.md). -/

namespace Sys2Proof.Machine

/-- `3XNN` SE VX, NN (R130). -/
def execSeImm (x : Reg) (nn : Byte) (s : State) : Host.Outcome State Fault Refusal :=
  .next (skipNextIf (getV s x == nn) s)

/-- `4XNN` SNE VX, NN (R131). -/
def execSneImm (x : Reg) (nn : Byte) (s : State) : Host.Outcome State Fault Refusal :=
  .next (skipNextIf (getV s x != nn) s)

/-- `5XY0` SE VX, VY (R132). -/
def execSeReg (x y : Reg) (s : State) : Host.Outcome State Fault Refusal :=
  .next (skipNextIf (getV s x == getV s y) s)

/-- `9XY0` SNE VX, VY (R133). -/
def execSneReg (x y : Reg) (s : State) : Host.Outcome State Fault Refusal :=
  .next (skipNextIf (getV s x != getV s y) s)

end Sys2Proof.Machine
end

