-- ==== Sys2Proof/Machine/Scheduler.lean ====
section
/-! DEFINITION. The cycle scheduler (spec/49_scheduler.md): the input poll, the timer and display step, the CPU step
and `tick`, which runs those that are due, in that order. -/

namespace Sys2Proof.Machine

/-! The timestamps (R200) -/

/-- `last_in <- now`. -/
def stampIn (now : Time) (s : State) : State := { s with lastIn := now }

/-- `last_tmr <- now`. -/
def stampTmr (now : Time) (s : State) : State := { s with lastTmr := now }

/-- `last_cpu <- now`. -/
def stampCpu (now : Time) (s : State) : State := { s with lastCpu := now }

/-! The input poll (R210 to R214) -/

/-- Does the report name a key outside the keypad? 255 is no event (R214). -/
def badKey (r : PollReport) : Bool := r.key != 255 && decide (r.key.toNat ≥ 16)

/-- `KEYS` after a report's key part (R211). -/
def keysAfter (r : PollReport) (keys : BitVec 16) : BitVec 16 :=
  if r.key = 255 then keys
  else if r.keyState then keys ||| BitVec.twoPow 16 r.key.toNat
  else keys &&& ~~~ BitVec.twoPow 16 r.key.toNat

/-- The key, pause and stop parts of a valid report (R211 to R213). -/
def applyReport (r : PollReport) (s : State) : State :=
  { s with
    keys    := keysAfter r s.keys
    paused  := r.pausedOut
    running := if r.stop then false else s.running }

/-- `InputPoll()` (R210). -/
def inputPoll (s : State) : State :=
  if badKey (pollAnswer s) then raise (.invalidKeyIndex (pollAnswer s).key none) (afterPoll s)
  else applyReport (pollAnswer s) (afterPoll s)

/-! The timer and display step (R206 to R208) -/

/-- One countdown: never below 0 (R41, R206). -/
def countDown (t : Byte) : Byte := if t = 0 then 0 else t - 1

/-- Deliver a pending clear to the host (R208). -/
def deliverClear (s : State) : State :=
  if s.clearPending then callScreen true s.params.clearAlsoUpdates { s with clearPending := false } else s

/-- `TimerStep()` (R206). -/
def timerStep (s : State) : State :=
  deliverClear
    { s with
      delay       := countDown s.delay
      sound       := countDown s.sound
      soundActive := countDown s.sound != 0 }

/-! The CPU step (R215) -/

/-- `ExecuteOne()`: fetch, decode, execute (R215, R234). -/
def executeOne (s : State) : Host.Outcome State Fault Refusal :=
  match fetchWord s with
  | none => .fault .memOutOfRange
  | some op =>
    match decodeWordWith s.params.has8xy7 op with
    | none => .next (raise (.unknownOpcode op s.pc) s)
    | some i => exec i s

/-! `tick` (R200 to R205) -/

/-- `delta(now, last)`: unsigned subtraction modulo `2^CLOCK_BITS`, right across one wrap of the clock (R200, R205). -/
def clockDelta (bits : Nat) (now last : Time) : Nat := (now + 2 ^ bits - last % 2 ^ bits) % 2 ^ bits

/-- `delta(now, last) >= period` (R200). -/
def due (bits : Nat) (now last : Time) (period : Nat) : Bool := decide (clockDelta bits now last ≥ period)

/-- The input poll's turn in a tick. -/
def inputTurn (now : Time) (s : State) : State :=
  if s.running && due s.params.clockBits now s.lastIn s.params.pIn then inputPoll (stampIn now s) else s

/-- The timer and display step's turn in a tick. -/
def timerTurn (now : Time) (s : State) : State :=
  if s.running && due s.params.clockBits now s.lastTmr s.params.pTmr then timerStep (stampTmr now s) else s

/-- Does the CPU step fire at its turn? (R200) -/
def cpuFires (now : Time) (s : State) : Bool :=
  s.running && !s.paused && due s.params.clockBits now s.lastCpu s.params.pCpu

/-- The CPU step's turn in a tick. -/
def cpuTurn (now : Time) (s : State) : Host.Outcome State Fault Refusal :=
  if cpuFires now s then executeOne (stampCpu now s) else .next s

/-- A tick of a running block up to the CPU step's turn: one reading of the clock, then the input poll and the timer
step, each if it is due (R202, R203, R205). -/
def beforeCpu (s : State) : State := timerTurn (nowAnswer s) (inputTurn (nowAnswer s) (afterNow s))

/-- `tick()` (R200); a halted block does nothing (R201). -/
def tick (s : State) : Host.Outcome State Fault Refusal :=
  if s.running then cpuTurn (nowAnswer s) (beforeCpu s) else .next s

/-- Let the next tick's clock reading make the CPU step due and nothing else, with the host calling `tick` next. -/
def makeCpuDue (s : State) : State :=
  let now := (s.lastCpu + s.params.pCpu) % 2 ^ s.params.clockBits
  { s with
    running := true
    paused  := false
    lastIn  := now
    lastTmr := now
    clock   := clockDelta s.params.clockBits now s.hostTime :: s.clock
    ops     := .tick :: s.ops }

end Sys2Proof.Machine
end

