-- ==== Sys2Proof/Machine/HostCalls.lean ====
section
/-! DEFINITION. One operation of the host on the block (spec/00_scope.md R19): the next call the state lists or, where
it lists none, a tick (log entry 14). -/

namespace Sys2Proof.Machine

/-- The host's next call. -/
def nextOp (s : State) : HostOp := s.ops.headD .tick

/-- The state once the host's next call is taken from the list. -/
def takeOp (s : State) : State := { s with ops := s.ops.tail }

/-- Perform a call of the host (R200, R256, R257, R270). -/
def perform (op : HostOp) (s : State) : Host.Outcome State Fault Refusal :=
  match op with
  | .load request => loadAndRun request s
  | .tick => tick s
  | .isRunning => .next (note (.runningIs s.running) s)
  | .readSoundActive => .next (note (.soundActiveIs s.soundActive) s)

end Sys2Proof.Machine
end

