-- ==== Sys2Proof/Machine/Step.lean ====
section
/-! DEFINITION. One step of the machine: one operation of the host on the block, run to completion
(spec/00_scope.md R19, R21). -/

namespace Sys2Proof.Machine

/-- One step. -/
def step (s : State) : Host.Outcome State Fault Refusal := perform (nextOp s) (takeOp s)

/-- The state with a table row's word where the next fetch reads it, and with the next step a tick whose CPU step is
due (log entry 15). -/
def State.withFetchWord (s : State) (nbits w : Nat) : State := makeCpuDue (placeWord (tableWord nbits w) s)

end Sys2Proof.Machine
end

