-- ==== Sys2Proof/Safety.lean ====
section
/-! DEFINITION. The terms in which claims about the machine are made: the parts of a state and which of them an
instruction may write (spec/10_state.md R54), the invariant of a run (R58), the end of a run (spec/70_reset_and_hazards.md
R289), and the display a conforming host keeps (spec/60_exceptions.md R250, R251). -/

namespace Sys2Proof.Machine

/-! Parts of the state, and frames -/

/-- The parts of the state: the parameters (R10), the block's (R30), then the host's part and the model's own. -/
inductive Part where
  | params
  | regs | index | pc | stackSlots | sp | delay | sound | keys | quirks
  | running | paused | clearPending | soundActive
  | lastIn | lastTmr | lastCpu | callbacks | memory
  | ops | hostTime | clock | polls | rands | collisions | fresh | trace
  deriving DecidableEq, Repr

/-- Does the part hold the same in both states? Registers are compared by reading each, memory by reading each byte. -/
def samePart (p : Part) (s t : State) : Prop :=
  match p with
  | .params => t.params = s.params
  | .regs => ∀ r, getV t r = getV s r
  | .index => t.index = s.index
  | .pc => t.pc = s.pc
  | .stackSlots => t.stack = s.stack
  | .sp => t.sp = s.sp
  | .delay => t.delay = s.delay
  | .sound => t.sound = s.sound
  | .keys => t.keys = s.keys
  | .quirks => t.quirks = s.quirks
  | .running => t.running = s.running
  | .paused => t.paused = s.paused
  | .clearPending => t.clearPending = s.clearPending
  | .soundActive => t.soundActive = s.soundActive
  | .lastIn => t.lastIn = s.lastIn
  | .lastTmr => t.lastTmr = s.lastTmr
  | .lastCpu => t.lastCpu = s.lastCpu
  | .callbacks => t.callbacks = s.callbacks
  | .memory => ∀ a, readByte t a = readByte s a
  | .ops => t.ops = s.ops
  | .hostTime => t.hostTime = s.hostTime
  | .clock => t.clock = s.clock
  | .polls => t.polls = s.polls
  | .rands => t.rands = s.rands
  | .collisions => t.collisions = s.collisions
  | .fresh => t.fresh = s.fresh
  | .trace => t.trace = s.trace

/-- Every part but the listed ones is the same in both states. -/
def keepsAllBut (written : List Part) (s t : State) : Prop := ∀ p, p ∉ written → samePart p s t

/-- The parts an instruction may write when it answers a next state (R54): its own, `rands`, `collisions`, `fresh` and
`trace` for what passes between it and the host, and `running` and `trace` for an instruction that can fault. -/
def writtenParts : Instr → List Part
  | .cls => [.pc, .clearPending]
  | .ret => [.pc, .sp, .running, .trace]
  | .jp _ => [.pc]
  | .call _ => [.pc, .stackSlots, .sp, .running, .trace]
  | .seImm _ _ => [.pc]
  | .sneImm _ _ => [.pc]
  | .seReg _ _ => [.pc]
  | .ldImm _ _ => [.pc, .regs]
  | .addImm _ _ => [.pc, .regs]
  | .ldReg _ _ => [.pc, .regs]
  | .orReg _ _ => [.pc, .regs]
  | .andReg _ _ => [.pc, .regs]
  | .xorReg _ _ => [.pc, .regs]
  | .addReg _ _ => [.pc, .regs]
  | .subReg _ _ => [.pc, .regs]
  | .shr _ _ => [.pc, .regs]
  | .subn _ _ => [.pc, .regs]
  | .shl _ _ => [.pc, .regs]
  | .sneReg _ _ => [.pc]
  | .ldIndex _ => [.pc, .index]
  | .jpV0 _ => [.pc]
  | .rnd _ _ => [.pc, .regs, .rands, .fresh, .trace]
  | .drw _ _ _ => [.pc, .regs, .collisions, .fresh, .trace]
  | .skp _ => [.pc, .running, .trace]
  | .sknp _ => [.pc, .running, .trace]
  | .ldVxDt _ => [.pc, .regs]
  | .ldVxKey _ => [.pc, .regs, .fresh]
  | .ldDtVx _ => [.pc, .delay]
  | .ldStVx _ => [.pc, .sound]
  | .addIndex _ => [.pc, .regs, .index]
  | .ldFont _ => [.pc, .index]
  | .ldBcd _ => [.pc, .memory]
  | .storeRegs _ => [.pc, .memory, .index]
  | .loadRegs _ => [.pc, .regs, .index]

/-- May the instruction write register `r` in this state? Its destination, and `VF` where R32 names it. -/
def mayWriteReg (i : Instr) (s : State) (r : Reg) : Prop :=
  match i with
  | .ldImm x _ | .addImm x _ | .ldReg x _ | .rnd x _ | .ldVxDt x | .ldVxKey x => r = x
  | .orReg x _ | .andReg x _ | .xorReg x _ => r = x ∨ (r = 15 ∧ s.quirks.vfReset = true)
  | .addReg x _ | .subReg x _ | .shr x _ | .subn x _ | .shl x _ => r = x ∨ r = 15
  | .drw _ _ _ | .addIndex _ => r = 15
  | .loadRegs x => r ≤ x
  | _ => False

/-- How many bytes the instruction stores, from the address `baseAddr s` on (R77). -/
def storedBytes : Instr → Nat
  | .ldBcd _ => 3
  | .storeRegs x => x.val + 1
  | _ => 0

/-- The registers hold `b` in `x` and are otherwise unchanged. -/
def onlyReg (x : Reg) (b : Byte) (s t : State) : Prop :=
  getV t x = b ∧ ∀ r, r ≠ x → getV t r = getV s r

/-- `V[X]` holds the result and `VF` the flag, the flag alone where `X = 15` (R159); no other register changes. -/
def resultAndFlag (x : Reg) (b : Byte) (flag : Prop) [Decidable flag] (s t : State) : Prop :=
  getV t 15 = (if flag then 1 else 0) ∧ (x ≠ 15 → getV t x = b) ∧
    ∀ r, r ≠ x → r ≠ 15 → getV t r = getV s r

/-- What R151 to R153 say of the registers after a logic operation with result `b`: `VF` is 0 with the quirk, also
where it is the destination; without the quirk `V[X]` alone changes. -/
def logicResult (x : Reg) (b : Byte) (s t : State) : Prop :=
  if s.quirks.vfReset = true then resultAndFlag x b False s t else onlyReg x b s t

/-- What R195 says of `I` after a block transfer of `X + 1` bytes. -/
def indexAfterBlock (x : Reg) (s t : State) : Prop :=
  t.index.toNat = if s.quirks.indexInc = true then s.index.toNat + x.val + 1 else s.index.toNat

/-- The instruction completes: `exec` answers a next state, and it is as described. -/
def completes (i : Instr) (s : State) (described : State → Prop) : Prop :=
  ∃ t, exec i s = .next t ∧ described t

/-! The invariant of a run -/

/-- The parameters are a legal instantiation (R10), memory is in canonical form, while the block runs the stack pointer
counts at most 16 return addresses (R40, R58), and each timestamp is a reading of `CLOCK_BITS` bits (R50). After a failed
load, when nothing runs, the pointer is unspecified (R57). The canonical form is the model's representation of memory (log
entry 42). -/
abbrev RunInv (s : State) : Prop :=
  s.params.Legal ∧ Memory.wf s.params s.mem ∧ (s.running = true → s.sp.toNat ≤ 16) ∧
    s.lastIn < 2 ^ s.params.clockBits ∧ s.lastTmr < 2 ^ s.params.clockBits ∧ s.lastCpu < 2 ^ s.params.clockBits

/-! The end of a run -/

/-- End (a) of R289: not running. -/
abbrev Halted (s : State) : Prop := s.running = false

/-- End (b) of R289: `pc` at a jump to itself. -/
def AtSelfJump (s : State) : Prop :=
  ∃ op nnn, fetchWord s = some op ∧ decodeWordWith s.params.has8xy7 op = some (.jp nnn) ∧ zextNNN nnn = s.pc

/-- The instruction the CPU step would perform in this state, if its word decodes. -/
def nextInstr (s : State) : Option Instr := (fetchWord s).bind (decodeWordWith s.params.has8xy7)

/-! Kinds of interaction, for counting them -/

/-- A call of `Poll` (R252). -/
def isPollCall : HostEvent → Bool
  | .poll _ _ _ => true
  | _ => false

/-- A call of `Screen` that asks for a clear (R251). -/
def isClearCall : HostEvent → Bool
  | .screen _ clear _ => clear
  | _ => false

/-- A call of `Screen` that asks for no clear (R251). -/
def isPresentCall : HostEvent → Bool
  | .screen _ clear _ => !clear
  | _ => false

/-- A call of `DrawPixel` (R250). -/
def isDrawPixelCall : HostEvent → Bool
  | .drawPixel _ _ _ _ => true
  | _ => false

/-! The display of a conforming host -/

/-- Which cells are lit (R250). It is the host's, not the block's (R52). -/
abbrev Display := Addr × Addr → Bool

/-- What one interaction does to the display: the XOR-plot, the clear (R250, R251). DESIGN CHOICE (log entry 44): every other
interaction leaves it, the clock reading of a load among them, so that over a trace which spans a load the picture of the run
before remains. The spec leaves that to the host (R261): a claim over such a trace takes the display anew, at any value, after
each load. -/
def displayStep (d : Display) (e : HostEvent) : Display :=
  match e with
  | .drawPixel _ x y _ => fun q => if q = (x, y) then !(d q) else d q
  | .screen _ clear _ => if clear then fun _ => false else d
  | _ => d

/-- The display after a list of interactions. -/
def displayAfter (d : Display) (es : List HostEvent) : Display := es.foldl displayStep d

/-- The host keeps the contract of R250 along the interactions: each `DrawPixel` reports whether the cell was lit. Over a
trace that spans a load this also demands that the picture stay at the load, which R261 does not (DESIGN CHOICE, log entry 44);
over the interactions of one run, from any display, it demands what R250 says. -/
def KeepsDisplay : Display → List HostEvent → Prop
  | _, [] => True
  | d, e :: es =>
    (match e with
     | .drawPixel _ x y collided => collided = d (x, y)
     | _ => True) ∧ KeepsDisplay (displayStep d e) es

end Sys2Proof.Machine
end

