-- ==== Sys2Proof/Certificates/Slice0/Obligations.lean ====
section
/-! DEFINITION. The statements for the provers, in the order of spec/: reset, memory, decoding, frames, the families of
instructions, the scheduler, faults and the host. Each docstring names the rule it formalises; where a clause is the
spec's own decision, or the model's choice, it says so. The lists `trace`, `ops`, `clock`, `polls`, `rands` and `collisions` are
how the model holds what passes between block and host (log entries 9, 14 and 36); `Memory.wf`, where it is a premise, is the
form in which the model holds memory (log entry 42). -/

open Sys2Proof Sys2Proof.Machine

/-! ### Reset -/

/-- R11, R231: a load whose buffer holds the stated length succeeds if and only if the length is at most
`MEM_SIZE - PROGRAM_OFFSET`, which is 3584 with the default offset (log entry 1); a longer program is a RomTooLarge fault,
whatever the block was doing and whatever the buffer holds. -/
def Obligations.LoadSucceedsIffProgramFits : Prop :=
  Config.memSize - Config.params.programOffset = 3584 ∧
  ∀ (r : LoadRequest) (s : State), programCapacity s.params = Config.memSize - s.params.programOffset ∧
    (r.length ≤ r.program.length →
      ∃ t, loadAndRun r s = .next t ∧ (t.running = true ↔ r.length ≤ Config.memSize - s.params.programOffset)) ∧
    (r.length > Config.memSize - s.params.programOffset →
      ∃ t, loadAndRun r s = .next t ∧ t.running = false ∧
        t.trace = s.trace ++ [.report (.romTooLarge r.length)])

/-- R10, R56, the table of reset values, for every load that fits, under every legal instantiation of the parameters. The
value of the three timestamps is the spec's decision D9. -/
def Obligations.LoadSetsEveryElement : Prop :=
  ∀ (r : LoadRequest) (s : State), s.params.Legal → r.length ≤ programCapacity s.params →
    r.length ≤ r.program.length →
    ∃ t, loadAndRun r s = .next t ∧ t.params = s.params ∧
      (∀ x, getV t x = 0) ∧ t.index = 0 ∧ t.pc.toNat = s.params.programOffset ∧
      (∀ k : Fin 16, t.stack[k] = 0) ∧ t.sp = 0 ∧ t.delay = 0 ∧ t.sound = 0 ∧ t.keys = 0 ∧
      t.quirks.vfReset = r.quirkFlags[0] ∧ t.quirks.shiftVx = r.quirkFlags[1] ∧
      t.quirks.wrap = r.quirkFlags[2] ∧ t.quirks.indexInc = r.quirkFlags[3] ∧
      t.running = true ∧ t.paused = false ∧ t.clearPending = false ∧ t.soundActive = false ∧
      t.lastIn = nowAnswer s ∧ t.lastTmr = nowAnswer s ∧ t.lastCpu = nowAnswer s ∧
      t.callbacks = r.callbacks ∧ t.trace = s.trace ++ [.now (nowAnswer s)] ∧
      ∀ a, a < Config.memSize → readByte t a =
        if s.params.programOffset ≤ a ∧ a < s.params.programOffset + r.length then
          r.program.getD (a - s.params.programOffset) 0
        else if s.params.fontBase ≤ a ∧ a < s.params.fontBase + 80 then
          s.params.font.toList.getD (a - s.params.fontBase) 0
        else 0

/-- R56, R279: the state named reset is, in every element of the block but the timestamps, what the load of an empty
program with no quirk and no callback leaves on a machine with the default parameters, whatever the block was doing before.
That reset is this load is the model's choice (log entries 11 and 12). -/
def Obligations.ResetIsEmptyLoad : Prop :=
  ∀ (program : List Byte) (s : State), s.params = Config.params →
    ∃ t, loadAndRun ⟨program, 0, ⟨0, 0, 0⟩, Vector.replicate 4 false⟩ s = .next t ∧
      keepsAllBut [.lastIn, .lastTmr, .lastCpu, .ops, .hostTime, .clock, .polls, .rands, .collisions, .fresh, .trace]
        State.reset t

/-- The invariant (R10, R40, R50, R58) holds right after reset. That memory is a list in canonical form is the model's
representation (log entry 42). That reset is the load of an empty program is the model's choice (log entry 11), and so are its
timestamps of 0 (log entry 12); its parameters are the spec's defaults, with `FONT_BASE` free (log entries 1 to 7). -/
def Obligations.ResetMeetsInvariant : Prop := RunInv State.reset

/-- R10, R40, R50, R58, R72: every step keeps the parameters legal, memory in canonical form, the timestamps readings of
`CLOCK_BITS` bits and, while the block runs, `0 <= SP <= 16`. That memory is a list in canonical form, which every step
keeps, is the model's representation (log entry 42). -/
def Obligations.StepKeepsInvariant : Prop :=
  ∀ s t, RunInv s → step s = .next t → RunInv t

/-- R34, R35, R56: after every load that fits, under every legal instantiation of the parameters (R10), glyph `d` of the
font stands at the address `FX29` computes for `d`; and so after reset, where the bytes are the spec's default table, from
general knowledge (D3, log entry 3). -/
def Obligations.FontGlyphsAfterReset : Prop :=
  (∀ (r : LoadRequest) (s : State) (d k : Nat), s.params.Legal → r.length ≤ programCapacity s.params →
    r.length ≤ r.program.length → d < 16 → k < 5 →
    ∃ t, loadAndRun r s = .next t ∧
      readByte t ((glyphAddr t.params d).toNat + k) = s.params.font.toList.getD (5 * d + k) 0) ∧
  ∀ d k, d < 16 → k < 5 →
    readByte State.reset ((glyphAddr State.reset.params d).toNat + k) = Config.font.getD (5 * d + k) 0

/-! ### Memory -/

/-- R72, R74: a byte read returns the byte and a byte write sets exactly that byte; a two-byte read is the first byte times
256 plus the second, the byte at `pc` in the high half of the opcode. That memory is a list in canonical form, which a write
keeps, is the model's representation (log entry 42). -/
def Obligations.MemoryReadsAndWrites : Prop :=
  (∀ (p : Params) (m : Memory) (a : Nat) (b : Byte), Memory.wf p m → a < Config.memSize →
    Memory.wf p (Memory.write p m a b) ∧ Memory.read p (Memory.write p m a b) a = b ∧
    ∀ a', a' ≠ a → Memory.read p (Memory.write p m a b) a' = Memory.read p m a') ∧
  ∀ s : State, s.pc.toNat + 1 ≤ 4095 →
    ∃ op, fetchWord s = some op ∧
      op.toNat = (readByte s s.pc.toNat).toNat * 256 + (readByte s (s.pc.toNat + 1)).toNat ∧
      op.extractLsb' 8 8 = readByte s s.pc.toNat ∧ op.extractLsb' 0 8 = readByte s (s.pc.toNat + 1)

/-- R73, R215: a CPU step whose fetch would leave memory stops the model, and no other value of `pc` does. The stop is
the spec's decision D10. -/
def Obligations.FetchStopsOutsideMemory : Prop :=
  ∀ s : State,
    (s.pc.toNat ≥ 0xFFF → executeOne s = .fault .memOutOfRange) ∧
    (s.pc.toNat < 0xFFF → ∃ op, fetchWord s = some op)

/-- R83: the word fetched next is the one the instruction before has just stored there. -/
def Obligations.FetchSeesStoredRegisters : Prop :=
  ∀ (x : Reg) (s t : State), Memory.wf s.params s.mem → 1 ≤ x.val → s.index = s.pc + 2 → s.pc.toNat + 3 ≤ 4095 →
    exec (.storeRegs x) s = .next t → fetchWord t = some (wordOfBytes (getV s 0) (getV s 1))

/-! ### Decoding -/

/-- R100, R110: decoding the word of a well-formed instruction gives it back, with every operand at every value and with
either value of HAS_8XY7. -/
def Obligations.DecodeOfEncode : Prop :=
  ∀ (has : Bool) (i : Instr), i.wellFormedWith has = true → decodeWordWith has (encode i) = some i ∧
    ∀ rest, decodeWith has (encodeBytes i ++ rest) = .ok (i, rest)

/-- R95, R100: a word that decodes is the word of the instruction it decodes to: no bit is ignored. -/
def Obligations.EncodeOfDecode : Prop :=
  ∀ (has : Bool) (op : Opcode) (i : Instr), decodeWordWith has op = some i →
    encode i = op ∧ i.wellFormedWith has = true

/-- R100: no two rows of the opcode table overlap. -/
def Obligations.OpcodeRowsDoNotOverlap : Prop :=
  ∀ (op : Opcode) (j k : Nat) (p q : OpcodeRow), opcodeRows[j]? = some p → opcodeRows[k]? = some q →
    rowMatches p op = true → rowMatches q op = true → j = k

/-- R104: the undecoded words, family by family; `8XY7` is one without HAS_8XY7 (R10, R157; log entry 6). That every fixed
digit is checked is the spec's decision D11. -/
def Obligations.UndecodedWordsByFamily : Prop :=
  ∀ (has : Bool) (op : Opcode), decodeWordWith has op = none ↔
    (fieldF op = 0x0 ∧ op ≠ 0x00E0 ∧ op ≠ 0x00EE) ∨
    (fieldF op = 0x5 ∧ fieldN op ≠ 0) ∨
    (fieldF op = 0x8 ∧ fieldN op ∈ [0x8, 0x9, 0xA, 0xB, 0xC, 0xD, 0xF]) ∨
    (fieldF op = 0x8 ∧ fieldN op = 0x7 ∧ has = false) ∨
    (fieldF op = 0x9 ∧ fieldN op ≠ 0) ∨
    (fieldF op = 0xE ∧ fieldNN op ∉ [0x9E, 0xA1]) ∨
    (fieldF op = 0xF ∧ fieldNN op ∉ [0x07, 0x0A, 0x15, 0x18, 0x1E, 0x29, 0x33, 0x55, 0x65])

/-- The examples of 95_test_vectors.md E-1, E-2, E-7, and the parameter HAS_8XY7 of R157 (log entry 6): a few words and
what they are. -/
def Obligations.SampleWordsDecode : Prop :=
  decode [0x6A, 0x42] = .ok (.ldImm 0xA 0x42, []) ∧ decodeWord 0xD123 = some (.drw 1 2 3) ∧
  decodeWord 0x8014 = some (.addReg 0 1) ∧ decodeWord 0x00E0 = some .cls ∧ decodeWord 0xF265 = some (.loadRegs 2) ∧
  decode [0x01, 0xE0] = .error (.unknownOpcode 0x01E0) ∧ decodeWord 0x5121 = none ∧ decodeWord 0x0000 = none ∧
  decode [0x6A] = .error .truncated ∧
  decodeWordWith true 0x8127 = some (.subn 1 2) ∧ decodeWordWith false 0x8127 = none

/-! ### Frames -/

/-- R54: what each instruction may write; everything else is unchanged in the next state. -/
def Obligations.InstructionsWriteOnlyTheirParts : Prop :=
  ∀ (i : Instr) (s t : State), exec i s = .next t → keepsAllBut (writtenParts i) s t

/-- R31, R32, R54: every register but the instruction's destination, and `VF` where R32 names it, is unchanged. -/
def Obligations.InstructionsKeepOtherRegisters : Prop :=
  ∀ (i : Instr) (s t : State) (r : Reg), exec i s = .next t → ¬ mayWriteReg i s r → getV t r = getV s r

/-- R77: every byte of memory outside the bytes the instruction stores, from `I` on, is unchanged. -/
def Obligations.InstructionsKeepOtherMemory : Prop :=
  ∀ (i : Instr) (s t : State) (a : Nat), exec i s = .next t →
    (a < baseAddr s ∨ baseAddr s + storedBytes i ≤ a) → readByte t a = readByte s a

/-- R46, R54, R236: an instruction that ends the run is `RET`, `CALL`, `SKP` or `SKNP`; it has reported one fault of the kinds 2,
3 or 5 and changed nothing else. That it leaves everything else untouched is the spec's decision D22. -/
def Obligations.FaultingInstructionChangesNothingElse : Prop :=
  ∀ (i : Instr) (s t : State), exec i s = .next t → s.running = true → t.running = false →
    (i = .ret ∨ (∃ nnn, i = .call nnn) ∨ (∃ x, i = .skp x) ∨ ∃ x, i = .sknp x) ∧
    ∃ f : HwFault, t = raise f s ∧ t.trace = s.trace ++ [.report f] ∧ f.code ∈ [2, 3, 5] ∧
      keepsAllBut [.running, .trace] s t

/-! ### Family 0, jump, call -/

/-- R120: `00E0` sets `clear_pending` and makes no host call; the clear reaches the host at the next timer step. -/
def Obligations.ClsDefersTheClear : Prop :=
  (∀ has op, decodeWordWith has op = some .cls ↔ op = 0x00E0) ∧
  ∀ s, completes .cls s fun t =>
    t.clearPending = true ∧ t.pc = s.pc + 2 ∧ keepsAllBut [.pc, .clearPending] s t ∧
    ∃ update, (timerStep t).trace = s.trace ++ [.screen s.callbacks.screen true update]

/-- R121: `00EE` pops the call stack into `pc`, and with an empty stack is a StackUnderflow fault. -/
def Obligations.RetPopsTheReturnAddress : Prop :=
  (∀ has op, decodeWordWith has op = some .ret ↔ op = 0x00EE) ∧
  (∀ (s : State) (k : Fin 16), s.sp.toNat = k.val + 1 → completes .ret s fun t =>
    t.sp.toNat = k.val ∧ t.pc = s.stack[k] ∧ keepsAllBut [.pc, .sp] s t) ∧
  ∀ s : State, s.sp = 0 → completes .ret s fun t =>
    t.running = false ∧ t.trace = s.trace ++ [.report (.stackUnderflow s.pc)] ∧
    keepsAllBut [.running, .trace] s t

/-- R122: `1NNN` sets `pc` to `NNN`; where that is its own address it is a fixed point of the CPU step (R289). -/
def Obligations.JumpSetsPc : Prop :=
  (∀ has op, fieldF op = 0x1 → decodeWordWith has op = some (.jp (fieldNNN op))) ∧
  (∀ (nnn : BitVec 12) s, completes (.jp nnn) s fun t => t.pc.toNat = nnn.toNat ∧ keepsAllBut [.pc] s t) ∧
  ∀ s : State, AtSelfJump s → executeOne s = .next s

/-- R123, R236: `2NNN` pushes `pc + 2` and jumps; with a full stack it is a StackOverflow fault and pushes nothing. That
the fault leaves everything else untouched too is the spec's decision D22 (log entry 22). -/
def Obligations.CallPushesTheReturnAddress : Prop :=
  (∀ has op, fieldF op = 0x2 → decodeWordWith has op = some (.call (fieldNNN op))) ∧
  (∀ (nnn : BitVec 12) (s : State) (k : Fin 16), s.sp.toNat = k.val → completes (.call nnn) s fun t =>
    t.stack[k] = s.pc + 2 ∧ (∀ j : Fin 16, j ≠ k → t.stack[j] = s.stack[j]) ∧
    t.sp.toNat = k.val + 1 ∧ t.pc.toNat = nnn.toNat ∧ keepsAllBut [.pc, .sp, .stackSlots] s t) ∧
  ∀ (nnn : BitVec 12) (s : State), s.sp = 16 → completes (.call nnn) s fun t =>
    t.running = false ∧ t.trace = s.trace ++ [.report (.stackOverflow s.pc)] ∧
    keepsAllBut [.running, .trace] s t

/-- R121, R123: a call followed by a return comes back to the instruction after the call, and only `pc` and the pushed
slot of the stack, which keeps that address, differ. -/
def Obligations.ReturnUndoesCall : Prop :=
  ∀ (nnn : BitVec 12) (s : State) (k : Fin 16), s.sp.toNat = k.val →
    ∃ t u, exec (.call nnn) s = .next t ∧ exec .ret t = .next u ∧ u.pc = s.pc + 2 ∧ u.sp = s.sp ∧
      u.stack[k] = s.pc + 2 ∧ (∀ j : Fin 16, j ≠ k → u.stack[j] = s.stack[j]) ∧
      keepsAllBut [.pc, .stackSlots] s u

/-! ### Skips -/

/-- R130 to R133: the skips on a register and an immediate, and on two registers; with `N` other than 0 the words of
families 5 and 9 are undecoded. -/
def Obligations.SkipsCompare : Prop :=
  (∀ has op, fieldF op = 0x3 → decodeWordWith has op = some (.seImm (fieldX op) (fieldNN op))) ∧
  (∀ has op, fieldF op = 0x4 → decodeWordWith has op = some (.sneImm (fieldX op) (fieldNN op))) ∧
  (∀ has op, fieldF op = 0x5 → decodeWordWith has op =
    if fieldN op = 0 then some (.seReg (fieldX op) (fieldY op)) else none) ∧
  (∀ has op, fieldF op = 0x9 → decodeWordWith has op =
    if fieldN op = 0 then some (.sneReg (fieldX op) (fieldY op)) else none) ∧
  ∀ (x y : Reg) (nn : Byte) (s : State),
    (completes (.seImm x nn) s fun t =>
      t.pc = (if getV s x = nn then s.pc + 4 else s.pc + 2) ∧ keepsAllBut [.pc] s t) ∧
    (completes (.sneImm x nn) s fun t =>
      t.pc = (if getV s x ≠ nn then s.pc + 4 else s.pc + 2) ∧ keepsAllBut [.pc] s t) ∧
    (completes (.seReg x y) s fun t =>
      t.pc = (if getV s x = getV s y then s.pc + 4 else s.pc + 2) ∧ keepsAllBut [.pc] s t) ∧
    (completes (.sneReg x y) s fun t =>
      t.pc = (if getV s x ≠ getV s y then s.pc + 4 else s.pc + 2) ∧ keepsAllBut [.pc] s t)

/-! ### Loads and add immediate -/

/-- R140, R141, R150: load immediate, add immediate modulo 256 without a flag, and register to register assign. -/
def Obligations.LoadsAndAddImmediate : Prop :=
  (∀ has op, fieldF op = 0x6 → decodeWordWith has op = some (.ldImm (fieldX op) (fieldNN op))) ∧
  (∀ has op, fieldF op = 0x7 → decodeWordWith has op = some (.addImm (fieldX op) (fieldNN op))) ∧
  (∀ has op, fieldF op = 0x8 → fieldN op = 0 → decodeWordWith has op = some (.ldReg (fieldX op) (fieldY op))) ∧
  ∀ (x y : Reg) (nn : Byte) (s : State),
    (completes (.ldImm x nn) s fun t =>
      onlyReg x nn s t ∧ t.pc = s.pc + 2 ∧ keepsAllBut [.pc, .regs] s t) ∧
    (completes (.addImm x nn) s fun t =>
      onlyReg x (BitVec.ofNat 8 (((getV s x).toNat + nn.toNat) % 256)) s t ∧ t.pc = s.pc + 2 ∧
      keepsAllBut [.pc, .regs] s t) ∧
    (completes (.ldReg x y) s fun t =>
      onlyReg x (getV s y) s t ∧ t.pc = s.pc + 2 ∧ keepsAllBut [.pc, .regs] s t)

/-! ### ALU -/

/-- R151, R152, R153: OR, AND and XOR, bit by bit, with the VF-reset quirk on and off. -/
def Obligations.LogicOperations : Prop :=
  (∀ has op, fieldF op = 0x8 → fieldN op = 1 → decodeWordWith has op = some (.orReg (fieldX op) (fieldY op))) ∧
  (∀ has op, fieldF op = 0x8 → fieldN op = 2 → decodeWordWith has op = some (.andReg (fieldX op) (fieldY op))) ∧
  (∀ has op, fieldF op = 0x8 → fieldN op = 3 → decodeWordWith has op = some (.xorReg (fieldX op) (fieldY op))) ∧
  ∀ (x y : Reg) (s : State) (o a e : Byte),
    (∀ k, k < 8 → o.getLsbD k = ((getV s x).getLsbD k || (getV s y).getLsbD k) ∧
      a.getLsbD k = ((getV s x).getLsbD k && (getV s y).getLsbD k) ∧
      e.getLsbD k = ((getV s x).getLsbD k != (getV s y).getLsbD k)) →
    (completes (.orReg x y) s fun t =>
      logicResult x o s t ∧ t.pc = s.pc + 2 ∧ keepsAllBut [.pc, .regs] s t) ∧
    (completes (.andReg x y) s fun t =>
      logicResult x a s t ∧ t.pc = s.pc + 2 ∧ keepsAllBut [.pc, .regs] s t) ∧
    (completes (.xorReg x y) s fun t =>
      logicResult x e s t ∧ t.pc = s.pc + 2 ∧ keepsAllBut [.pc, .regs] s t)

/-- R154: addition modulo 256, the carry in `VF`. -/
def Obligations.AddSetsCarry : Prop :=
  (∀ has op, fieldF op = 0x8 → fieldN op = 4 → decodeWordWith has op = some (.addReg (fieldX op) (fieldY op))) ∧
  ∀ (x y : Reg) (s : State), completes (.addReg x y) s fun t =>
    resultAndFlag x (BitVec.ofNat 8 (((getV s x).toNat + (getV s y).toNat) % 256))
      ((getV s x).toNat + (getV s y).toNat > 255) s t ∧
    t.pc = s.pc + 2 ∧ keepsAllBut [.pc, .regs] s t

/-- R155, R157: both subtractions modulo 256, the not-borrow in `VF`. The flag for equal operands is the spec's decision
D32, and `8XY7` as a whole the spec's decision D12 (log entry 6). -/
def Obligations.SubtractionsSetNotBorrow : Prop :=
  (∀ has op, fieldF op = 0x8 → fieldN op = 5 → decodeWordWith has op = some (.subReg (fieldX op) (fieldY op))) ∧
  (∀ has op, fieldF op = 0x8 → fieldN op = 7 → decodeWordWith has op =
    if has = true then some (.subn (fieldX op) (fieldY op)) else none) ∧
  ∀ (x y : Reg) (s : State),
    (completes (.subReg x y) s fun t =>
      resultAndFlag x (BitVec.ofNat 8 (((getV s x).toNat + 256 - (getV s y).toNat) % 256))
        ((getV s x).toNat ≥ (getV s y).toNat) s t ∧ t.pc = s.pc + 2 ∧ keepsAllBut [.pc, .regs] s t) ∧
    (completes (.subn x y) s fun t =>
      resultAndFlag x (BitVec.ofNat 8 (((getV s y).toNat + 256 - (getV s x).toNat) % 256))
        ((getV s y).toNat ≥ (getV s x).toNat) s t ∧ t.pc = s.pc + 2 ∧ keepsAllBut [.pc, .regs] s t)

/-- R156, R158: shifts by one of the source the quirk names, the dropped bit in `VF`. That `V[Y]` keeps its value is the
spec's decision D14. -/
def Obligations.ShiftsSetTheDroppedBit : Prop :=
  (∀ has op, fieldF op = 0x8 → fieldN op = 6 → decodeWordWith has op = some (.shr (fieldX op) (fieldY op))) ∧
  (∀ has op, fieldF op = 0x8 → fieldN op = 0xE → decodeWordWith has op = some (.shl (fieldX op) (fieldY op))) ∧
  ∀ (x y : Reg) (s : State) (b : Byte),
    b = (if s.quirks.shiftVx = true then getV s x else getV s y) →
    (completes (.shr x y) s fun t =>
      resultAndFlag x (BitVec.ofNat 8 (b.toNat / 2)) (b.toNat % 2 = 1) s t ∧
      t.pc = s.pc + 2 ∧ keepsAllBut [.pc, .regs] s t) ∧
    (completes (.shl x y) s fun t =>
      resultAndFlag x (BitVec.ofNat 8 (b.toNat * 2 % 256)) (b.toNat ≥ 128) s t ∧
      t.pc = s.pc + 2 ∧ keepsAllBut [.pc, .regs] s t)

/-! ### Load index, indexed jump, random -/

/-- R165, R166: `ANNN` sets `I` to `NNN`; `BNNN` jumps to `NNN + V0`, not masked. -/
def Obligations.LdIndexAndIndexedJump : Prop :=
  (∀ has op, fieldF op = 0xA → decodeWordWith has op = some (.ldIndex (fieldNNN op))) ∧
  (∀ has op, fieldF op = 0xB → decodeWordWith has op = some (.jpV0 (fieldNNN op))) ∧
  ∀ (nnn : BitVec 12) (s : State),
    (completes (.ldIndex nnn) s fun t =>
      t.index.toNat = nnn.toNat ∧ t.pc = s.pc + 2 ∧ keepsAllBut [.pc, .index] s t) ∧
    (completes (.jpV0 nnn) s fun t =>
      t.pc.toNat = nnn.toNat + (getV s 0).toNat ∧ keepsAllBut [.pc] s t)

/-- R167: `CXNN` makes one draw and stores it masked; any draw may come, and no bit outside the mask is set. That it is one
draw is the spec's own ("This spec makes one draw per execution"); that the draw is the first the state lists is how the model
holds the host's answers (log entry 9). -/
def Obligations.RandomIsMasked : Prop :=
  (∀ has op, fieldF op = 0xC → decodeWordWith has op = some (.rnd (fieldX op) (fieldNN op))) ∧
  ∀ (x : Reg) (nn : Byte) (s : State), ∃ r : Byte,
    (completes (.rnd x nn) s fun t =>
      onlyReg x (r &&& nn) s t ∧ (getV t x) &&& ~~~nn = 0 ∧ t.trace = s.trace ++ [.rand r] ∧
      t.pc = s.pc + 2 ∧ keepsAllBut [.pc, .regs, .rands, .fresh, .trace] s t) ∧
    ∀ r' rest, s.rands = r' :: rest → r = r'

/-! ### Draw -/

/-- R171, R172: which cells a sprite plots, and which `DXYN` plots: its sprite is the `N` bytes from `I` on, its origin
(`V[X]`, `V[Y]`), and the quirk says whether it wraps. Bit 7 as column 0 and the untruncated sums are the spec's decision
D19 (log entry 13). -/
def Obligations.SpriteCells : Prop :=
  (∀ (wrap : Bool) (x0 y0 : Nat) (bytes : List Byte) (p : Addr × Addr),
    p ∈ spritePixels wrap x0 y0 bytes ↔
      ∃ row col, row < bytes.length ∧ col < 8 ∧ (bytes.getD row 0).getLsbD (7 - col) = true ∧
        if wrap = true then p.1.toNat = (x0 + col) % 64 ∧ p.2.toNat = (y0 + row) % 32
        else x0 + col < 64 ∧ y0 + row < 32 ∧ p.1.toNat = x0 + col ∧ p.2.toNat = y0 + row) ∧
  ∀ (x y : Reg) (n : BitVec 4) (s : State) (p : Addr × Addr),
    p ∈ drawTargets x y n s ↔
      ∃ row col, row < n.toNat ∧ col < 8 ∧ (readByte s (s.index.toNat + row)).getLsbD (7 - col) = true ∧
        if s.quirks.wrap = true then
          p.1.toNat = ((getV s x).toNat + col) % 64 ∧ p.2.toNat = ((getV s y).toNat + row) % 32
        else
          (getV s x).toNat + col < 64 ∧ (getV s y).toNat + row < 32 ∧
            p.1.toNat = (getV s x).toNat + col ∧ p.2.toNat = (getV s y).toNat + row

/-- R170, R171, R172, R175: `DXYN` makes one `DrawPixel` call for each plotted cell, inside the display, then one
`Screen(false, true)`; `VF` is 1 exactly when some call reported a collision; a pending clear is left pending. The plotted
cells are those of the set bits of the `N` bytes from `I` on, all of them with wrap and the ones inside the display without,
in the order rows outermost, columns innermost, both ascending: `positions` lists their (row, column) in that order. Bit 7 as
column 0, the untruncated sums and the order are the spec's decision D19 (log entry 13); that the answers begin with the ones
the state lists is how the model holds the host's answers (log entry 9). -/
def Obligations.DrawCallsTheHost : Prop :=
  (∀ has op, fieldF op = 0xD → decodeWordWith has op = some (.drw (fieldX op) (fieldY op) (fieldN op))) ∧
  ∀ (x y : Reg) (n : BitVec 4) (s : State), SpanInside (baseAddr s) n.toNat →
    (∀ p ∈ drawTargets x y n s, p.1.toNat ≤ 63 ∧ p.2.toNat ≤ 31) ∧
    (∃ positions : List (Nat × Nat),
      positions.Pairwise (fun a b => a.1 < b.1 ∨ (a.1 = b.1 ∧ a.2 < b.2)) ∧
      (∀ row col, (row, col) ∈ positions ↔
        row < n.toNat ∧ col < 8 ∧ (readByte s (s.index.toNat + row)).getLsbD (7 - col) = true ∧
          (s.quirks.wrap = true ∨ ((getV s x).toNat + col < 64 ∧ (getV s y).toNat + row < 32))) ∧
      (drawTargets x y n s).map (fun p => (p.1.toNat, p.2.toNat)) =
        positions.map (fun q => (((getV s x).toNat + q.2) % 64, ((getV s y).toNat + q.1) % 32))) ∧
    completes (.drw x y n) s fun t =>
      ∃ answers : List Bool, answers.length = (drawTargets x y n s).length ∧
        t.trace = s.trace ++
          List.zipWith (fun p c => HostEvent.drawPixel s.callbacks.drawPixel p.1 p.2 c) (drawTargets x y n s) answers ++
          [HostEvent.screen s.callbacks.screen false true] ∧
        (∀ k, k < s.collisions.length → k < answers.length → answers.getD k false = s.collisions.getD k false) ∧
        onlyReg 15 (if answers.any id then 1 else 0) s t ∧ t.pc = s.pc + 2 ∧
        keepsAllBut [.pc, .regs, .collisions, .fresh, .trace] s t

/-- R176, R177: a sprite that would leave memory stops the model; with `N = 0` nothing is read and nothing plotted. The
stop is the spec's decision D10, the meaning of `N = 0` its decision D31. -/
def Obligations.DrawReadsInsideMemory : Prop :=
  ∀ (x y : Reg) (s : State),
    (∀ n : BitVec 4, 1 ≤ n.toNat → s.index.toNat + n.toNat - 1 > 4095 →
      exec (.drw x y n) s = .fault .memOutOfRange) ∧
    (∀ n : BitVec 4, 1 ≤ n.toNat → s.index.toNat + n.toNat - 1 ≤ 4095 → completes (.drw x y n) s fun t =>
      t.pc = s.pc + 2) ∧
    completes (.drw x y 0) s fun t =>
      getV t 15 = 0 ∧ t.trace = s.trace ++ [HostEvent.screen s.callbacks.screen false true] ∧ t.pc = s.pc + 2

/-- R173, R178: over a host that keeps the reference display, `VF` is 1 exactly when the sprite erased a lit cell, the
display afterwards is the display before XOR the sprite, and a sprite cannot collide with itself. -/
def Obligations.DrawOnReferenceDisplay : Prop :=
  ∀ (x y : Reg) (n : BitVec 4) (s t : State) (d : Display) (es : List HostEvent),
    exec (.drw x y n) s = .next t → t.trace = s.trace ++ es → KeepsDisplay d es →
    (drawTargets x y n s).Nodup ∧
    (getV t 15 = 1 ∨ getV t 15 = 0) ∧
    (getV t 15 = 1 ↔ ∃ p ∈ drawTargets x y n s, d p = true) ∧
    ∀ p, displayAfter d es p = (d p != decide (p ∈ drawTargets x y n s))

/-! ### Keys -/

/-- R180 to R182, R235: the skips on key state read `KEYS` as it stands; a key index of 16 or more in the register is an
InvalidKeyIndex fault, the register is not masked. That fault is the spec's decision D18 (log entry 16). -/
def Obligations.KeySkips : Prop :=
  (∀ has op, fieldF op = 0xE → fieldNN op = 0x9E → decodeWordWith has op = some (.skp (fieldX op))) ∧
  (∀ has op, fieldF op = 0xE → fieldNN op = 0xA1 → decodeWordWith has op = some (.sknp (fieldX op))) ∧
  (∀ (x : Reg) (s : State) (k : Fin 16), (getV s x).toNat = k.val →
    (completes (.skp x) s fun t =>
      t.pc = (if s.keys.getLsbD k.val = true then s.pc + 4 else s.pc + 2) ∧ keepsAllBut [.pc] s t) ∧
    (completes (.sknp x) s fun t =>
      t.pc = (if s.keys.getLsbD k.val = true then s.pc + 2 else s.pc + 4) ∧ keepsAllBut [.pc] s t)) ∧
  ∀ (x : Reg) (s : State) (i : Instr), (i = .skp x ∨ i = .sknp x) → (getV s x).toNat ≥ 16 →
    completes i s fun t =>
      t.running = false ∧ t.trace = s.trace ++ [.report (.invalidKeyIndex (getV s x) (some s.pc))] ∧
      keepsAllBut [.running, .trace] s t

/-- R186: the key wait. With no key down nothing changes; with a key down, some key that is down is stored and `pc`
advances. Which key is left free (the spec's decision D17, log entry 8). -/
def Obligations.KeyWait : Prop :=
  (∀ has op, fieldF op = 0xF → fieldNN op = 0x0A → decodeWordWith has op = some (.ldVxKey (fieldX op))) ∧
  ∀ (x : Reg) (s : State),
    (s.keys = 0 → exec (.ldVxKey x) s = .next s) ∧
    (s.keys ≠ 0 → completes (.ldVxKey x) s fun t =>
      ∃ k : Fin 16, s.keys.getLsbD k.val = true ∧ onlyReg x (BitVec.ofNat 8 k.val) s t ∧
        t.pc = s.pc + 2 ∧ keepsAllBut [.pc, .regs, .fresh] s t)

/-! ### Family F -/

/-- R185, R187, R188: the timers are read and written; `sound_active` is not touched, and for a value of 1 the next timer
step makes it false. -/
def Obligations.TimerRegisters : Prop :=
  (∀ has op, fieldF op = 0xF → fieldNN op = 0x07 → decodeWordWith has op = some (.ldVxDt (fieldX op))) ∧
  (∀ has op, fieldF op = 0xF → fieldNN op = 0x15 → decodeWordWith has op = some (.ldDtVx (fieldX op))) ∧
  (∀ has op, fieldF op = 0xF → fieldNN op = 0x18 → decodeWordWith has op = some (.ldStVx (fieldX op))) ∧
  ∀ (x : Reg) (s : State),
    (completes (.ldVxDt x) s fun t =>
      onlyReg x s.delay s t ∧ t.pc = s.pc + 2 ∧ keepsAllBut [.pc, .regs] s t) ∧
    (completes (.ldDtVx x) s fun t =>
      t.delay = getV s x ∧ t.pc = s.pc + 2 ∧ keepsAllBut [.pc, .delay] s t) ∧
    (completes (.ldStVx x) s fun t =>
      t.sound = getV s x ∧ t.pc = s.pc + 2 ∧ keepsAllBut [.pc, .sound] s t ∧
      (getV s x = 1 → (timerStep t).sound = 0 ∧ (timerStep t).soundActive = false))

/-- R189: `FX1E` adds into `I`, masks it to 12 bits and puts the overflow into `VF`. That `VF` is 0 without an overflow
is the spec's decision D15 (log entry 17). -/
def Obligations.AddIndexMasksAndFlags : Prop :=
  (∀ has op, fieldF op = 0xF → fieldNN op = 0x1E → decodeWordWith has op = some (.addIndex (fieldX op))) ∧
  ∀ (x : Reg) (s : State), completes (.addIndex x) s fun t =>
    t.index.toNat = (s.index.toNat + (getV s x).toNat) % 0x1000 ∧
    onlyReg 15 (if s.index.toNat + (getV s x).toNat > 0xFFF then 1 else 0) s t ∧
    t.pc = s.pc + 2 ∧ keepsAllBut [.pc, .regs, .index] s t

/-- R190: `FX29` points `I` at the glyph of a digit, an address that fits under every legal instantiation of the
parameters (R10); above digit 15 the model stops (the spec's decision D16). -/
def Obligations.LdFontPointsAtGlyph : Prop :=
  (∀ has op, fieldF op = 0xF → fieldNN op = 0x29 → decodeWordWith has op = some (.ldFont (fieldX op))) ∧
  ∀ (x : Reg) (s : State),
    ((getV s x).toNat ≤ 15 → completes (.ldFont x) s fun t =>
      t.index = BitVec.ofNat 16 (s.params.fontBase + 5 * (getV s x).toNat) ∧
      (s.params.Legal → t.index.toNat = s.params.fontBase + 5 * (getV s x).toNat) ∧ t.pc = s.pc + 2 ∧
      keepsAllBut [.pc, .index] s t) ∧
    ((getV s x).toNat > 15 → exec (.ldFont x) s = .fault .fontIndexRange)

/-- R191: `FX33` stores the three decimal digits, hundreds at `I`. -/
def Obligations.BcdStoresDigits : Prop :=
  (∀ has op, fieldF op = 0xF → fieldNN op = 0x33 → decodeWordWith has op = some (.ldBcd (fieldX op))) ∧
  ∀ (x : Reg) (s : State),
    (Memory.wf s.params s.mem → s.index.toNat + 2 ≤ 4095 → completes (.ldBcd x) s fun t =>
      ∃ h d u : Nat, h ≤ 2 ∧ d ≤ 9 ∧ u ≤ 9 ∧ 100 * h + 10 * d + u = (getV s x).toNat ∧
        (readByte t s.index.toNat).toNat = h ∧ (readByte t (s.index.toNat + 1)).toNat = d ∧
        (readByte t (s.index.toNat + 2)).toNat = u ∧
        (∀ a, (a < baseAddr s ∨ baseAddr s + 3 ≤ a) → readByte t a = readByte s a) ∧
        t.pc = s.pc + 2 ∧ keepsAllBut [.pc, .memory] s t) ∧
    (s.index.toNat + 2 > 4095 → exec (.ldBcd x) s = .fault .memOutOfRange)

/-- R193, R195: `FX55` stores `V0..VX` from `I` on. -/
def Obligations.StoreRegsStoresTheBlock : Prop :=
  (∀ has op, fieldF op = 0xF → fieldNN op = 0x55 → decodeWordWith has op = some (.storeRegs (fieldX op))) ∧
  ∀ (x : Reg) (s : State),
    (Memory.wf s.params s.mem → s.index.toNat + x.val ≤ 4095 → completes (.storeRegs x) s fun t =>
      (∀ r : Reg, r ≤ x → readByte t (s.index.toNat + r.val) = getV s r) ∧
      (∀ a, (a < baseAddr s ∨ baseAddr s + (x.val + 1) ≤ a) → readByte t a = readByte s a) ∧
      indexAfterBlock x s t ∧ t.pc = s.pc + 2 ∧ keepsAllBut [.pc, .memory, .index] s t) ∧
    (s.index.toNat + x.val > 4095 → exec (.storeRegs x) s = .fault .memOutOfRange)

/-- R194, R195: `FX65` loads `V0..VX` from `I` on; the registers above keep their values. -/
def Obligations.LoadRegsLoadsTheBlock : Prop :=
  (∀ has op, fieldF op = 0xF → fieldNN op = 0x65 → decodeWordWith has op = some (.loadRegs (fieldX op))) ∧
  ∀ (x : Reg) (s : State),
    (s.index.toNat + x.val ≤ 4095 → completes (.loadRegs x) s fun t =>
      (∀ r : Reg, getV t r = if r ≤ x then readByte s (s.index.toNat + r.val) else getV s r) ∧
      indexAfterBlock x s t ∧ t.pc = s.pc + 2 ∧ keepsAllBut [.pc, .regs, .index] s t) ∧
    (s.index.toNat + x.val > 4095 → exec (.loadRegs x) s = .fault .memOutOfRange)

/-- R193, R194: loading a stored block back gives the stored registers, in whatever state the registers, `I` excepted,
are in between. -/
def Obligations.LoadUndoesStore : Prop :=
  ∀ (x : Reg) (s t u w : State), Memory.wf s.params s.mem → exec (.storeRegs x) s = .next t →
    u.params = t.params → u.mem = t.mem → u.index = s.index → exec (.loadRegs x) u = .next w →
    ∀ r : Reg, r ≤ x → getV w r = getV s r

/-! ### The scheduler -/

/-- R201: a tick of a halted block changes nothing and calls nobody, and no call but a load ends that. That a step takes
the host's call from a list is how the model holds the calls (log entry 14). -/
def Obligations.HaltedTickDoesNothing : Prop :=
  ∀ s : State, s.running = false →
    tick s = .next s ∧ (nextOp s = .tick → step s = .next (takeOp s)) ∧
    ((∀ r, nextOp s ≠ .load r) → ∃ t, step s = .next t ∧ t.running = false)

/-- R200, R202, R205, R215: when the CPU step fires in a tick and the bytes at `pc` decode, the step is `exec` of that
instruction in the state the clock reading, the input poll and the timer step have left, with `last_cpu` set. The order of the
three is the spec's decision D7. -/
def Obligations.StepRunsDecodedInstruction : Prop :=
  ∀ (s b : State) (i : Instr) (op : Opcode), nextOp s = .tick → s.running = true →
    b = beforeCpu (takeOp s) → cpuFires (nowAnswer s) b = true → fetchWord b = some op →
    decodeWordWith s.params.has8xy7 op = some i →
    step s = exec i (stampCpu (nowAnswer s) b)

/-- R74, R200: a word placed for the next fetch is the instruction the next step runs, on the state as it was but for the
placed bytes, the clock reading and the three timestamps. The premises on the periods are met by the defaults: with a
`P_IN` or `P_TMR` of 0 another activity is due in every tick, and a `P_CPU` that `CLOCK_BITS` bits do not hold is never due.
How a program comes to run is log entry 15. -/
def Obligations.PlacedWordRuns : Prop :=
  ∀ (s : State) (w : Nat) (i : Instr), Memory.wf s.params s.mem → s.pc.toNat < 0xFFF →
    0 < s.params.pIn → 0 < s.params.pTmr → s.params.pCpu < 2 ^ s.params.clockBits →
    decodeTableWord 16 w = some i → i.wellFormedWith s.params.has8xy7 = true →
    ∃ b, step (s.withFetchWord 16 w) = exec i b ∧ b.running = true ∧ b.paused = false ∧
      fetchWord b = some (tableWord 16 w) ∧ b.trace = s.trace ++ [.now b.lastCpu] ∧
      keepsAllBut [.memory, .running, .paused, .lastIn, .lastTmr, .lastCpu, .hostTime, .trace] s b ∧
      ∀ a, a ≠ s.pc.toNat → a ≠ s.pc.toNat + 1 → readByte b a = readByte s a

/-- R202, R200: each activity that is due in a tick runs, and one that is not due or is gated off does not: the input
poll first, on the state with the clock reading noted; then the timer step, on what the poll's turn left, if that still
runs; then the CPU step, on what both left, if that still runs and is not paused. The order of the turns and the test of
`running` before each are the spec's decision D7, the one reading of the clock its decision D8. -/
def Obligations.DueActivitiesRun : Prop :=
  ∀ (s u : State) (now : Time), s.running = true → now = nowAnswer s → u = inputTurn now (afterNow s) →
    (due s.params.clockBits now s.lastIn s.params.pIn = true → u = inputPoll (stampIn now (afterNow s))) ∧
    (due s.params.clockBits now s.lastIn s.params.pIn = false → u = afterNow s) ∧
    (u.running = true → due s.params.clockBits now s.lastTmr s.params.pTmr = true →
      beforeCpu s = timerStep (stampTmr now u)) ∧
    (u.running = false ∨ due s.params.clockBits now s.lastTmr s.params.pTmr = false → beforeCpu s = u) ∧
    ((beforeCpu s).running = true → (beforeCpu s).paused = false →
      due s.params.clockBits now s.lastCpu s.params.pCpu = true →
      tick s = executeOne (stampCpu now (beforeCpu s))) ∧
    ((beforeCpu s).running = false ∨ (beforeCpu s).paused = true ∨
        due s.params.clockBits now s.lastCpu s.params.pCpu = false → tick s = .next (beforeCpu s)) ∧
    (nextOp s = .tick → step s = tick (takeOp s))

/-- R203, R212, R238, R247: a stop or a fault in the input poll suppresses the timer step and the CPU step of the same tick;
while the block is paused at the CPU step's turn, or whenever the CPU step does not fire, no instruction runs, and registers,
`I`, `pc`, the stack and memory are as before. The gates at each turn and the order of the turns are the spec's decisions D7
and D8. -/
def Obligations.StopAndPauseGateTheTick : Prop :=
  ∀ s u : State, s.running = true → u = inputTurn (nowAnswer s) (afterNow s) →
    (u.running = false → tick s = .next u ∧
      keepsAllBut [.keys, .running, .paused, .lastIn, .hostTime, .clock, .polls, .fresh, .trace] s u) ∧
    (u.paused = true → tick s = .next (beforeCpu s)) ∧
    (cpuFires (nowAnswer s) (beforeCpu s) = false → tick s = .next (beforeCpu s)) ∧
    keepsAllBut [.delay, .sound, .keys, .running, .paused, .clearPending, .soundActive, .lastIn, .lastTmr, .hostTime,
      .clock, .polls, .fresh, .trace] s (beforeCpu s)

/-- R204: one tick does a bounded amount of work: at most one `Poll`, at most two `Screen` calls (one for a deferred clear
and one for a draw), at most 120 `DrawPixel` calls. -/
def Obligations.TickWorkIsBounded : Prop :=
  ∀ s t : State, tick s = .next t → ∃ es, t.trace = s.trace ++ es ∧
    es.countP isPollCall ≤ 1 ∧
    es.countP isClearCall ≤ 1 ∧
    es.countP isPresentCall ≤ 1 ∧
    es.countP isDrawPixelCall ≤ 120

/-- R205, R253: the difference of two clock readings is taken modulo `2^CLOCK_BITS`, so it is right across a wrap: if at
most `2^CLOCK_BITS - 1` milliseconds passed between them, the difference is how many passed; the spec's example with 32 bits.
The host's time never goes backwards in a step, which is an assumption about the host (R258; log entry 35), and a reading is
that time in `CLOCK_BITS` bits. -/
def Obligations.ClockDifferenceSurvivesWrap : Prop :=
  (∀ bits time passed period : Nat, passed < 2 ^ bits →
    clockDelta bits ((time + passed) % 2 ^ bits) (time % 2 ^ bits) = passed ∧
    (due bits ((time + passed) % 2 ^ bits) (time % 2 ^ bits) period = true ↔ passed ≥ period)) ∧
  clockDelta 32 0x00000003 0xFFFFFFFE = 5 ∧
  (∀ s : State, s.hostTime ≤ (afterNow s).hostTime ∧
    nowAnswer s = (afterNow s).hostTime % 2 ^ s.params.clockBits) ∧
  ∀ s t : State, step s = .next t → s.hostTime ≤ t.hostTime

/-- R206, R207, R208: the timer and display step. `sound_active` when `SOUND` was 0 and the clear's `update` flag are the
spec's decision D20 (log entry 7). -/
def Obligations.TimerStepEffect : Prop :=
  ∀ s t : State, t = timerStep s →
    t.delay.toNat = s.delay.toNat - 1 ∧ t.sound.toNat = s.sound.toNat - 1 ∧
    (t.soundActive = true ↔ t.sound ≠ 0) ∧ t.clearPending = false ∧
    t.trace = s.trace ++
      (if s.clearPending = true then [HostEvent.screen s.callbacks.screen true s.params.clearAlsoUpdates] else []) ∧
    keepsAllBut [.delay, .sound, .soundActive, .clearPending, .trace] s t

/-- R41, R42, R206, the monotonicity of the timers: one step changes `DELAY` and `SOUND` only by counting down by one, unless it
is a load or its CPU step fires on the instruction that writes the timer. -/
def Obligations.TimersOnlyCountDown : Prop :=
  ∀ s t b : State, nextOp s = .tick → step s = .next t → b = beforeCpu (takeOp s) →
    ((t.delay = s.delay ∨ t.delay.toNat + 1 = s.delay.toNat) ∨
      (cpuFires (nowAnswer s) b = true ∧ ∃ x, nextInstr b = some (.ldDtVx x))) ∧
    ((t.sound = s.sound ∨ t.sound.toNat + 1 = s.sound.toNat) ∨
      (cpuFires (nowAnswer s) b = true ∧ ∃ x, nextInstr b = some (.ldStVx x)))

/-- R216: in a tick a timestamp becomes the tick's reading of the clock exactly when its activity fires: the poll in a
running block, the timer step if the block still runs after the poll's turn, the CPU step if it still runs and is not paused
after both; otherwise it stays. That it stays when the activity is due but gated off is the spec's decision D9. -/
def Obligations.TimestampsMoveOnlyWhenFired : Prop :=
  ∀ s t u b : State, tick s = .next t → u = inputTurn (nowAnswer s) (afterNow s) → b = beforeCpu s →
    (t.lastIn = if s.running = true ∧ due s.params.clockBits (nowAnswer s) s.lastIn s.params.pIn = true then
      nowAnswer s else s.lastIn) ∧
    (t.lastTmr = if u.running = true ∧ due s.params.clockBits (nowAnswer s) s.lastTmr s.params.pTmr = true then
      nowAnswer s else s.lastTmr) ∧
    (t.lastCpu = if b.running = true ∧ b.paused = false ∧
        due s.params.clockBits (nowAnswer s) s.lastCpu s.params.pCpu = true then
      nowAnswer s else s.lastCpu)

/-- R211 to R214: a valid report sets or clears the one key it names, or none for 255, stores the pause flag and obeys a
stop; a reported key from 16 to 254 is an InvalidKeyIndex fault and none of the report's parts is applied. That a true
`key_state` is a press, the order of the parts and the end of the activity at a key fault are the spec's decision D21. -/
def Obligations.InputPollAppliesTheReport : Prop :=
  ∀ (s : State) (r : PollReport), r = pollAnswer s →
    ((r.key = 255 ∨ r.key.toNat < 16) →
      (∀ k : Fin 16, (inputPoll s).keys.getLsbD k.val =
        if r.key.toNat = k.val then r.keyState else s.keys.getLsbD k.val) ∧
      (inputPoll s).paused = r.pausedOut ∧ (inputPoll s).running = (s.running && !r.stop) ∧
      (inputPoll s).trace = s.trace ++ [.poll s.callbacks.poll s.paused r] ∧
      keepsAllBut [.keys, .paused, .running, .polls, .fresh, .trace] s (inputPoll s)) ∧
    (16 ≤ r.key.toNat → r.key.toNat ≤ 254 →
      (inputPoll s).running = false ∧
      (inputPoll s).trace =
        s.trace ++ [.poll s.callbacks.poll s.paused r, .report (.invalidKeyIndex r.key none)] ∧
      keepsAllBut [.running, .polls, .fresh, .trace] s (inputPoll s))

/-- R104, R234, R236: a CPU step whose word is no instruction reports UnknownOpcode with the word and its address, stops the
run and changes nothing else; `pc` stays on the word. That it leaves everything else untouched is the spec's decision D22
(log entry 22). -/
def Obligations.UnknownOpcodeHalts : Prop :=
  ∀ (s : State) (op : Opcode), fetchWord s = some op → decodeWordWith s.params.has8xy7 op = none →
    ∃ t, executeOne s = .next t ∧ t.running = false ∧ t.trace = s.trace ++ [.report (.unknownOpcode op s.pc)] ∧
      keepsAllBut [.running, .trace] s t

/-! ### The whole machine -/

/-- R10, R44, R54: no step changes the parameters, and the quirks and the callbacks change only by a load. -/
def Obligations.QuirksChangeOnlyByLoad : Prop :=
  ∀ s t : State, step s = .next t → t.params = s.params ∧
    ((∀ r, nextOp s ≠ .load r) → t.quirks = s.quirks ∧ t.callbacks = s.callbacks)

/-- R46, R237, R273: `running` becomes true only by a load that fits, which starts at `PROGRAM_OFFSET` (a parameter, whose
default is log entry 1); a halted block stays halted under every other call. -/
def Obligations.OnlyALoadStartsARun : Prop :=
  ∀ s t : State, step s = .next t → s.running = false → t.running = true →
    ∃ r : LoadRequest, nextOp s = .load r ∧ r.length ≤ programCapacity s.params ∧
      t.pc = BitVec.ofNat 16 s.params.programOffset

/-- R45 to R48, R54, R240: what a tick can do to the status bits and `KEYS`. `clear_pending` becomes true only by a CPU step
that fires on `00E0`, and false only by a timer step that fires; `sound_active` changes only by a timer step that fires;
`KEYS` and `paused` are what the input poll's turn left, whatever instruction runs; `running` never becomes true, and becomes
false only in the poll's turn or by a CPU step that fires and enters a fault of the kinds 2 to 5. -/
def Obligations.StatusBitsChangeOnlyByTheirWriters : Prop :=
  ∀ s t u b : State, nextOp s = .tick → step s = .next t →
    u = inputTurn (nowAnswer s) (afterNow (takeOp s)) → b = beforeCpu (takeOp s) →
    (s.clearPending = false → t.clearPending = true →
      cpuFires (nowAnswer s) b = true ∧ nextInstr b = some .cls) ∧
    (s.clearPending = true → t.clearPending = false →
      u.running = true ∧ due s.params.clockBits (nowAnswer s) s.lastTmr s.params.pTmr = true) ∧
    (t.soundActive ≠ s.soundActive →
      u.running = true ∧ due s.params.clockBits (nowAnswer s) s.lastTmr s.params.pTmr = true) ∧
    t.keys = u.keys ∧ t.paused = u.paused ∧
    (t.running = true → s.running = true) ∧
    (s.running = true → t.running = false → u.running = false ∨
      (cpuFires (nowAnswer s) b = true ∧
        ∃ f : HwFault, f.code ∈ [2, 3, 4, 5] ∧ t = raise f (stampCpu (nowAnswer s) b)))

/-- R256, R257: the host's queries answer `running` and the sound-active bit and change nothing. The second output is the
spec's decision D25. -/
def Obligations.QueriesChangeNothing : Prop :=
  ∀ s : State,
    (nextOp s = .isRunning → ∃ t, step s = .next t ∧ t.trace = s.trace ++ [.runningIs s.running] ∧
      keepsAllBut [.ops, .trace] s t) ∧
    (nextOp s = .readSoundActive → ∃ t, step s = .next t ∧ t.trace = s.trace ++ [.soundActiveIs s.soundActive] ∧
      keepsAllBut [.ops, .trace] s t)
end

