-- ==== Sys2Proof/Laws/Decode.lean ====
section
/-! SUPPORT. The decoder read through its table: the rows are disjoint, so a word that matches a row decodes by that row;
and matching a row is a condition on the word's fields (spec/30_encoding.md R96, R99, R100). -/

namespace Sys2Proof

/-- Two rows ask for different values of a bit that both masks keep. -/
def rowsDisjoint (p q : OpcodeRow) : Bool := (p.mask &&& q.mask) &&& (p.value ^^^ q.value) != 0

/-- No word matches two disjoint rows. -/
theorem not_both_match {p q : OpcodeRow} (h : rowsDisjoint p q = true) (op : Opcode)
    (hp : rowMatches p op = true) (hq : rowMatches q op = true) : False := by
  simp only [rowMatches, beq_iff_eq] at hp hq
  simp only [rowsDisjoint, bne_iff_ne, ne_eq] at h
  apply h
  rw [← hp, ← hq]
  ext i hi
  have hz : (0 : Opcode)[i] = false := BitVec.getElem_zero hi
  rw [hz]
  simp only [BitVec.getElem_and, BitVec.getElem_xor]
  cases op[i] <;> cases p.mask[i] <;> cases q.mask[i] <;> rfl

/-- The rows of R100 are disjoint. -/
theorem opcodeRows_disjoint : opcodeRows.Pairwise (fun p q => rowsDisjoint p q = true) := by
  decide

/-- In a table of disjoint rows the search finds the row a word matches. -/
theorem find_of_matches {rows : List OpcodeRow} (hd : rows.Pairwise (fun p q => rowsDisjoint p q = true))
    {r : OpcodeRow} (hr : r ∈ rows) {op : Opcode} (hm : rowMatches r op = true) :
    rows.find? (fun q => rowMatches q op) = some r := by
  induction rows with
  | nil => cases hr
  | cons q rest ih =>
    obtain ⟨hq, hrest⟩ := List.pairwise_cons.mp hd
    rw [List.find?_cons]
    rcases List.mem_cons.mp hr with rfl | hr
    · simp [hm]
    · have : rowMatches q op = false := by
        by_contra hc
        exact not_both_match (hq r hr) op (by simpa using hc) hm
      simp [this, ih hrest hr]

/-- A word that matches a row decodes by that row. -/
theorem decodeWord_of_row {has : Bool} {r : OpcodeRow} (hr : r ∈ opcodeRows) {op : Opcode}
    (hm : rowMatches r op = true) (hw : (r.build op).wellFormedWith has = true) :
    decodeWordWith has op = some (r.build op) := by
  unfold decodeWordWith
  rw [find_of_matches opcodeRows_disjoint hr hm]
  simp only [Option.map_some, Option.filter_some]
  rw [if_pos hw]

/-- A word that decodes matches a row and is built by it. -/
theorem row_of_decodeWord {has : Bool} {op : Opcode} {i : Instr} (h : decodeWordWith has op = some i) :
    ∃ r ∈ opcodeRows, rowMatches r op = true ∧ r.build op = i ∧ i.wellFormedWith has = true := by
  unfold decodeWordWith at h
  cases hf : opcodeRows.find? (fun r => rowMatches r op) with
  | none => simp [hf] at h
  | some r =>
    rw [hf] at h
    simp only [Option.map_some, Option.filter_some] at h
    split at h
    · rename_i hw
      cases h
      exact ⟨r, List.mem_of_find?_eq_some hf, by simpa using List.find?_some hf, rfl, hw⟩
    · cases h

/-! Bytes and words (R74) -/

theorem wordOfBytes_toNat (a b : Byte) : (wordOfBytes a b).toNat = a.toNat * 256 + b.toNat := by
  have h : (wordOfBytes a b).toNat = a.toNat <<< 8 ||| b.toNat := BitVec.toNat_append a b
  rw [h, ← Nat.shiftLeft_add_eq_or_of_lt b.isLt, Nat.shiftLeft_eq]

@[simp] theorem wordOfBytes_high (a b : Byte) : (wordOfBytes a b).extractLsb' 8 8 = a := by
  apply BitVec.eq_of_toNat_eq
  rw [BitVec.extractLsb'_toNat, wordOfBytes_toNat, Nat.shiftRight_eq_div_pow]
  have := a.isLt
  have := b.isLt
  omega

@[simp] theorem wordOfBytes_low (a b : Byte) : (wordOfBytes a b).extractLsb' 0 8 = b := by
  apply BitVec.eq_of_toNat_eq
  rw [BitVec.extractLsb'_toNat, wordOfBytes_toNat, Nat.shiftRight_eq_div_pow]
  have := b.isLt
  omega

/-- A word laid out in memory and read back is the word. -/
@[simp] theorem wordOfBytes_bytes (op : Opcode) :
    wordOfBytes (op.extractLsb' 8 8) (op.extractLsb' 0 8) = op := by
  apply BitVec.eq_of_toNat_eq
  rw [wordOfBytes_toNat, BitVec.extractLsb'_toNat, BitVec.extractLsb'_toNat, Nat.shiftRight_eq_div_pow,
    Nat.shiftRight_eq_div_pow]
  have := op.isLt
  omega

/-- The default parameters, with any choice of the open one, are a legal instantiation (R10). -/
theorem params_legal : Config.params.Legal := by
  have := Config.fontBaseChoice.isLt
  simp only [Params.Legal, Config.params, Config.fontSize, Config.memSize]
  omega

/-! Matching a row, as a condition on fields -/

theorem and_F000 (op : Opcode) : op &&& 0xF000 = fieldF op ++ (0 : BitVec 12) := by
  ext i hi
  simp only [fieldF, BitVec.getElem_and, BitVec.getElem_append]
  interval_cases i <;> simp

theorem and_F00F (op : Opcode) : op &&& 0xF00F = fieldF op ++ (0 : BitVec 8) ++ fieldN op := by
  ext i hi
  simp only [fieldF, fieldN, BitVec.getElem_and, BitVec.getElem_append]
  interval_cases i <;> simp

theorem and_F0FF (op : Opcode) : op &&& 0xF0FF = fieldF op ++ (0 : BitVec 4) ++ fieldNN op := by
  ext i hi
  simp only [fieldF, fieldNN, BitVec.getElem_and, BitVec.getElem_append]
  interval_cases i <;> simp

/-! The fields of a word in each of the formats of R97 -/

@[simp] theorem fieldF_encNNN (f : BitVec 4) (nnn : BitVec 12) : fieldF (encNNN f nnn) = f := by
  ext i hi
  simp only [fieldF, encNNN, BitVec.getElem_extractLsb', BitVec.getLsbD_append]
  rw [if_neg (by omega), Nat.add_sub_cancel_left]
  exact BitVec.getLsbD_eq_getElem hi

@[simp] theorem fieldNNN_encNNN (f : BitVec 4) (nnn : BitVec 12) : fieldNNN (encNNN f nnn) = nnn := by
  ext i hi
  simp only [fieldNNN, encNNN, BitVec.getElem_extractLsb', BitVec.getLsbD_append]
  rw [if_pos (by omega)]
  simp [hi]

@[simp] theorem fieldF_encXNN (f : BitVec 4) (x : Reg) (nn : Byte) : fieldF (encXNN f x nn) = f := by
  ext i hi
  simp only [fieldF, encXNN, BitVec.getElem_extractLsb', BitVec.getLsbD_append]
  rw [if_neg (by omega), if_neg (by omega), show 12 + i - 8 - 4 = i by omega]
  exact BitVec.getLsbD_eq_getElem hi

@[simp] theorem fieldX_encXNN (f : BitVec 4) (x : Reg) (nn : Byte) : fieldX (encXNN f x nn) = x := by
  have : (encXNN f x nn).extractLsb' 8 4 = (BitVec.ofFin x : BitVec 4) := by
    ext i hi
    simp only [encXNN, BitVec.getElem_extractLsb', BitVec.getLsbD_append]
    rw [if_neg (by omega), if_pos (by omega)]
    simp [hi]
  rw [fieldX, this]

@[simp] theorem fieldNN_encXNN (f : BitVec 4) (x : Reg) (nn : Byte) : fieldNN (encXNN f x nn) = nn := by
  ext i hi
  simp only [fieldNN, encXNN, BitVec.getElem_extractLsb', BitVec.getLsbD_append]
  rw [if_pos (by omega)]
  simp [hi]

@[simp] theorem fieldF_encXYN (f : BitVec 4) (x y : Reg) (n : BitVec 4) : fieldF (encXYN f x y n) = f := by
  ext i hi
  simp only [fieldF, encXYN, BitVec.getElem_extractLsb', BitVec.getLsbD_append]
  rw [if_neg (by omega), if_neg (by omega), if_neg (by omega), show 12 + i - 4 - 4 - 4 = i by omega]
  exact BitVec.getLsbD_eq_getElem hi

@[simp] theorem fieldX_encXYN (f : BitVec 4) (x y : Reg) (n : BitVec 4) : fieldX (encXYN f x y n) = x := by
  have : (encXYN f x y n).extractLsb' 8 4 = (BitVec.ofFin x : BitVec 4) := by
    ext i hi
    simp only [encXYN, BitVec.getElem_extractLsb', BitVec.getLsbD_append]
    rw [if_neg (by omega), if_neg (by omega), if_pos (by omega)]
    rw [show 8 + i - 4 - 4 = i by omega]
    rfl
  rw [fieldX, this]

@[simp] theorem fieldY_encXYN (f : BitVec 4) (x y : Reg) (n : BitVec 4) : fieldY (encXYN f x y n) = y := by
  have : (encXYN f x y n).extractLsb' 4 4 = (BitVec.ofFin y : BitVec 4) := by
    ext i hi
    simp only [encXYN, BitVec.getElem_extractLsb', BitVec.getLsbD_append]
    rw [if_neg (by omega), if_pos (by omega)]
    simp [hi]
  rw [fieldY, this]

@[simp] theorem fieldN_encXYN (f : BitVec 4) (x y : Reg) (n : BitVec 4) : fieldN (encXYN f x y n) = n := by
  ext i hi
  simp only [fieldN, encXYN, BitVec.getElem_extractLsb', BitVec.getLsbD_append]
  rw [if_pos (by omega)]
  simp [hi]

/-! Decoding by a row, from the word's fields -/

/-- A word that matches the row at place `k` of the table decodes by that row. -/
theorem decodeWord_at {has : Bool} (k : Nat) {r : OpcodeRow} (hk : opcodeRows[k]? = some r) {op : Opcode}
    (hm : rowMatches r op = true) (hw : (r.build op).wellFormedWith has = true := by rfl) :
    decodeWordWith has op = some (r.build op) :=
  decodeWord_of_row (List.mem_of_getElem? hk) hm hw

/-- Matching a row of formats NNN, XNN, XYN: the family. -/
theorem match_F {v : Opcode} {b : Opcode → Instr} {op : Opcode} {f : BitVec 4} (hf : fieldF op = f)
    (hv : f ++ (0 : BitVec 12) = v := by decide) : rowMatches ⟨0xF000, v, b⟩ op = true := by
  simp only [rowMatches, beq_iff_eq]; rw [and_F000, hf]; exact hv

/-- Matching a row of format XY: the family and `N`. -/
theorem match_FN {v : Opcode} {b : Opcode → Instr} {op : Opcode} {f n : BitVec 4} (hf : fieldF op = f) (hn : fieldN op = n)
    (hv : f ++ (0 : BitVec 8) ++ n = v := by decide) : rowMatches ⟨0xF00F, v, b⟩ op = true := by
  simp only [rowMatches, beq_iff_eq]; rw [and_F00F, hf, hn]; exact hv

/-- Matching a row of format X: the family and `NN`. -/
theorem match_FNN {v : Opcode} {b : Opcode → Instr} {op : Opcode} {f : BitVec 4} {n : Byte} (hf : fieldF op = f) (hn : fieldNN op = n)
    (hv : f ++ (0 : BitVec 4) ++ n = v := by decide) : rowMatches ⟨0xF0FF, v, b⟩ op = true := by
  simp only [rowMatches, beq_iff_eq]; rw [and_F0FF, hf, hn]; exact hv

/-- A word is its fields in format NNN. -/
theorem op_of_NNN (op : Opcode) : encNNN (fieldF op) (fieldNNN op) = op := by
  apply BitVec.eq_of_toNat_eq
  have h : (encNNN (fieldF op) (fieldNNN op)).toNat = (fieldF op).toNat <<< 12 ||| (fieldNNN op).toNat := BitVec.toNat_append _ _
  rw [h, ← Nat.shiftLeft_add_eq_or_of_lt (fieldNNN op).isLt, Nat.shiftLeft_eq, fieldF, fieldNNN, BitVec.extractLsb'_toNat, BitVec.extractLsb'_toNat, Nat.shiftRight_eq_div_pow, Nat.shiftRight_eq_div_pow]
  have := op.isLt
  omega

/-- A word is its fields in format XNN. -/
theorem op_of_XNN (op : Opcode) : encXNN (fieldF op) (fieldX op) (fieldNN op) = op := by
  apply BitVec.eq_of_getLsbD_eq
  intro i hi
  have e : (BitVec.ofFin (fieldX op) : BitVec 4) = op.extractLsb' 8 4 := rfl
  simp only [encXNN, e, BitVec.getLsbD_append, fieldF, fieldNN, BitVec.getLsbD_extractLsb']
  split
  · simp_all
  · split
    · rw [show 8 + (i - 8) = i by omega]; simp_all
    · rw [show 12 + (i - 8 - 4) = i by omega]
      simp only [Bool.and_eq_right_iff_imp, decide_eq_true_eq]
      intro; omega

/-- A word is its fields in format XYN. -/
theorem op_of_XYN (op : Opcode) : encXYN (fieldF op) (fieldX op) (fieldY op) (fieldN op) = op := by
  apply BitVec.eq_of_getLsbD_eq
  intro i hi
  have e : (BitVec.ofFin (fieldX op) : BitVec 4) = op.extractLsb' 8 4 := rfl
  have e' : (BitVec.ofFin (fieldY op) : BitVec 4) = op.extractLsb' 4 4 := rfl
  simp only [encXYN, e, e', BitVec.getLsbD_append, fieldF, fieldN, BitVec.getLsbD_extractLsb']
  split
  · simp_all
  · split
    · rw [show 4 + (i - 4) = i by omega]; simp_all
    · split
      · rw [show 8 + (i - 4 - 4) = i by omega]
        simp only [Bool.and_eq_right_iff_imp, decide_eq_true_eq]
        intro; omega
      · rw [show 12 + (i - 4 - 4 - 4) = i by omega]
        simp only [Bool.and_eq_right_iff_imp, decide_eq_true_eq]
        intro; omega

theorem fields_of_F000 {v : Opcode} {b : Opcode → Instr} {op : Opcode} (h : rowMatches ⟨0xF000, v, b⟩ op = true) :
    fieldF op = fieldF v := by
  simp only [rowMatches, beq_iff_eq] at h
  rw [← h]; ext i hi; simp only [fieldF, BitVec.getElem_extractLsb', BitVec.getLsbD_and]; interval_cases i <;> simp

theorem fields_of_F00F {v : Opcode} {b : Opcode → Instr} {op : Opcode} (h : rowMatches ⟨0xF00F, v, b⟩ op = true) :
    fieldF op = fieldF v ∧ fieldN op = fieldN v := by
  simp only [rowMatches, beq_iff_eq] at h
  rw [← h]
  constructor
  · ext i hi; simp only [fieldF, BitVec.getElem_extractLsb', BitVec.getLsbD_and]; interval_cases i <;> simp
  · ext i hi; simp only [fieldN, BitVec.getElem_extractLsb', BitVec.getLsbD_and]; interval_cases i <;> simp

theorem fields_of_F0FF {v : Opcode} {b : Opcode → Instr} {op : Opcode} (h : rowMatches ⟨0xF0FF, v, b⟩ op = true) :
    fieldF op = fieldF v ∧ fieldNN op = fieldNN v := by
  simp only [rowMatches, beq_iff_eq] at h
  rw [← h]
  constructor
  · ext i hi; simp only [fieldF, BitVec.getElem_extractLsb', BitVec.getLsbD_and]; interval_cases i <;> simp
  · ext i hi; simp only [fieldNN, BitVec.getElem_extractLsb', BitVec.getLsbD_and]; interval_cases i <;> simp

end Sys2Proof
end

