-- ==== Sys2Proof/Laws/State.lean ====
section
/-! SUPPORT. The state's fields after each of the base updates, one lemma a field, each true by unfolding once; the
derived updates as equations over the base ones, so that no later proof unfolds a record update. -/

namespace Sys2Proof.Machine

/-! Base updates -/

@[simp] theorem setV_params (x : Reg) (b : Byte) (s : State) : (setV x b s).params = s.params := rfl
@[simp] theorem setV_v (x : Reg) (b : Byte) (s : State) : (setV x b s).v = s.v.set x.val b x.isLt := rfl
@[simp] theorem setV_index (x : Reg) (b : Byte) (s : State) : (setV x b s).index = s.index := rfl
@[simp] theorem setV_pc (x : Reg) (b : Byte) (s : State) : (setV x b s).pc = s.pc := rfl
@[simp] theorem setV_stack (x : Reg) (b : Byte) (s : State) : (setV x b s).stack = s.stack := rfl
@[simp] theorem setV_sp (x : Reg) (b : Byte) (s : State) : (setV x b s).sp = s.sp := rfl
@[simp] theorem setV_delay (x : Reg) (b : Byte) (s : State) : (setV x b s).delay = s.delay := rfl
@[simp] theorem setV_sound (x : Reg) (b : Byte) (s : State) : (setV x b s).sound = s.sound := rfl
@[simp] theorem setV_keys (x : Reg) (b : Byte) (s : State) : (setV x b s).keys = s.keys := rfl
@[simp] theorem setV_quirks (x : Reg) (b : Byte) (s : State) : (setV x b s).quirks = s.quirks := rfl
@[simp] theorem setV_running (x : Reg) (b : Byte) (s : State) : (setV x b s).running = s.running := rfl
@[simp] theorem setV_paused (x : Reg) (b : Byte) (s : State) : (setV x b s).paused = s.paused := rfl
@[simp] theorem setV_clearPending (x : Reg) (b : Byte) (s : State) : (setV x b s).clearPending = s.clearPending := rfl
@[simp] theorem setV_soundActive (x : Reg) (b : Byte) (s : State) : (setV x b s).soundActive = s.soundActive := rfl
@[simp] theorem setV_lastIn (x : Reg) (b : Byte) (s : State) : (setV x b s).lastIn = s.lastIn := rfl
@[simp] theorem setV_lastTmr (x : Reg) (b : Byte) (s : State) : (setV x b s).lastTmr = s.lastTmr := rfl
@[simp] theorem setV_lastCpu (x : Reg) (b : Byte) (s : State) : (setV x b s).lastCpu = s.lastCpu := rfl
@[simp] theorem setV_mem (x : Reg) (b : Byte) (s : State) : (setV x b s).mem = s.mem := rfl
@[simp] theorem setV_callbacks (x : Reg) (b : Byte) (s : State) : (setV x b s).callbacks = s.callbacks := rfl
@[simp] theorem setV_ops (x : Reg) (b : Byte) (s : State) : (setV x b s).ops = s.ops := rfl
@[simp] theorem setV_hostTime (x : Reg) (b : Byte) (s : State) : (setV x b s).hostTime = s.hostTime := rfl
@[simp] theorem setV_clock (x : Reg) (b : Byte) (s : State) : (setV x b s).clock = s.clock := rfl
@[simp] theorem setV_polls (x : Reg) (b : Byte) (s : State) : (setV x b s).polls = s.polls := rfl
@[simp] theorem setV_rands (x : Reg) (b : Byte) (s : State) : (setV x b s).rands = s.rands := rfl
@[simp] theorem setV_collisions (x : Reg) (b : Byte) (s : State) : (setV x b s).collisions = s.collisions := rfl
@[simp] theorem setV_fresh (x : Reg) (b : Byte) (s : State) : (setV x b s).fresh = s.fresh := rfl
@[simp] theorem setV_trace (x : Reg) (b : Byte) (s : State) : (setV x b s).trace = s.trace := rfl

@[simp] theorem setIndex_params (a : Addr) (s : State) : (setIndex a s).params = s.params := rfl
@[simp] theorem setIndex_v (a : Addr) (s : State) : (setIndex a s).v = s.v := rfl
@[simp] theorem setIndex_index (a : Addr) (s : State) : (setIndex a s).index = a := rfl
@[simp] theorem setIndex_pc (a : Addr) (s : State) : (setIndex a s).pc = s.pc := rfl
@[simp] theorem setIndex_stack (a : Addr) (s : State) : (setIndex a s).stack = s.stack := rfl
@[simp] theorem setIndex_sp (a : Addr) (s : State) : (setIndex a s).sp = s.sp := rfl
@[simp] theorem setIndex_delay (a : Addr) (s : State) : (setIndex a s).delay = s.delay := rfl
@[simp] theorem setIndex_sound (a : Addr) (s : State) : (setIndex a s).sound = s.sound := rfl
@[simp] theorem setIndex_keys (a : Addr) (s : State) : (setIndex a s).keys = s.keys := rfl
@[simp] theorem setIndex_quirks (a : Addr) (s : State) : (setIndex a s).quirks = s.quirks := rfl
@[simp] theorem setIndex_running (a : Addr) (s : State) : (setIndex a s).running = s.running := rfl
@[simp] theorem setIndex_paused (a : Addr) (s : State) : (setIndex a s).paused = s.paused := rfl
@[simp] theorem setIndex_clearPending (a : Addr) (s : State) : (setIndex a s).clearPending = s.clearPending := rfl
@[simp] theorem setIndex_soundActive (a : Addr) (s : State) : (setIndex a s).soundActive = s.soundActive := rfl
@[simp] theorem setIndex_lastIn (a : Addr) (s : State) : (setIndex a s).lastIn = s.lastIn := rfl
@[simp] theorem setIndex_lastTmr (a : Addr) (s : State) : (setIndex a s).lastTmr = s.lastTmr := rfl
@[simp] theorem setIndex_lastCpu (a : Addr) (s : State) : (setIndex a s).lastCpu = s.lastCpu := rfl
@[simp] theorem setIndex_mem (a : Addr) (s : State) : (setIndex a s).mem = s.mem := rfl
@[simp] theorem setIndex_callbacks (a : Addr) (s : State) : (setIndex a s).callbacks = s.callbacks := rfl
@[simp] theorem setIndex_ops (a : Addr) (s : State) : (setIndex a s).ops = s.ops := rfl
@[simp] theorem setIndex_hostTime (a : Addr) (s : State) : (setIndex a s).hostTime = s.hostTime := rfl
@[simp] theorem setIndex_clock (a : Addr) (s : State) : (setIndex a s).clock = s.clock := rfl
@[simp] theorem setIndex_polls (a : Addr) (s : State) : (setIndex a s).polls = s.polls := rfl
@[simp] theorem setIndex_rands (a : Addr) (s : State) : (setIndex a s).rands = s.rands := rfl
@[simp] theorem setIndex_collisions (a : Addr) (s : State) : (setIndex a s).collisions = s.collisions := rfl
@[simp] theorem setIndex_fresh (a : Addr) (s : State) : (setIndex a s).fresh = s.fresh := rfl
@[simp] theorem setIndex_trace (a : Addr) (s : State) : (setIndex a s).trace = s.trace := rfl

@[simp] theorem setPc_params (a : Addr) (s : State) : (setPc a s).params = s.params := rfl
@[simp] theorem setPc_v (a : Addr) (s : State) : (setPc a s).v = s.v := rfl
@[simp] theorem setPc_index (a : Addr) (s : State) : (setPc a s).index = s.index := rfl
@[simp] theorem setPc_pc (a : Addr) (s : State) : (setPc a s).pc = a := rfl
@[simp] theorem setPc_stack (a : Addr) (s : State) : (setPc a s).stack = s.stack := rfl
@[simp] theorem setPc_sp (a : Addr) (s : State) : (setPc a s).sp = s.sp := rfl
@[simp] theorem setPc_delay (a : Addr) (s : State) : (setPc a s).delay = s.delay := rfl
@[simp] theorem setPc_sound (a : Addr) (s : State) : (setPc a s).sound = s.sound := rfl
@[simp] theorem setPc_keys (a : Addr) (s : State) : (setPc a s).keys = s.keys := rfl
@[simp] theorem setPc_quirks (a : Addr) (s : State) : (setPc a s).quirks = s.quirks := rfl
@[simp] theorem setPc_running (a : Addr) (s : State) : (setPc a s).running = s.running := rfl
@[simp] theorem setPc_paused (a : Addr) (s : State) : (setPc a s).paused = s.paused := rfl
@[simp] theorem setPc_clearPending (a : Addr) (s : State) : (setPc a s).clearPending = s.clearPending := rfl
@[simp] theorem setPc_soundActive (a : Addr) (s : State) : (setPc a s).soundActive = s.soundActive := rfl
@[simp] theorem setPc_lastIn (a : Addr) (s : State) : (setPc a s).lastIn = s.lastIn := rfl
@[simp] theorem setPc_lastTmr (a : Addr) (s : State) : (setPc a s).lastTmr = s.lastTmr := rfl
@[simp] theorem setPc_lastCpu (a : Addr) (s : State) : (setPc a s).lastCpu = s.lastCpu := rfl
@[simp] theorem setPc_mem (a : Addr) (s : State) : (setPc a s).mem = s.mem := rfl
@[simp] theorem setPc_callbacks (a : Addr) (s : State) : (setPc a s).callbacks = s.callbacks := rfl
@[simp] theorem setPc_ops (a : Addr) (s : State) : (setPc a s).ops = s.ops := rfl
@[simp] theorem setPc_hostTime (a : Addr) (s : State) : (setPc a s).hostTime = s.hostTime := rfl
@[simp] theorem setPc_clock (a : Addr) (s : State) : (setPc a s).clock = s.clock := rfl
@[simp] theorem setPc_polls (a : Addr) (s : State) : (setPc a s).polls = s.polls := rfl
@[simp] theorem setPc_rands (a : Addr) (s : State) : (setPc a s).rands = s.rands := rfl
@[simp] theorem setPc_collisions (a : Addr) (s : State) : (setPc a s).collisions = s.collisions := rfl
@[simp] theorem setPc_fresh (a : Addr) (s : State) : (setPc a s).fresh = s.fresh := rfl
@[simp] theorem setPc_trace (a : Addr) (s : State) : (setPc a s).trace = s.trace := rfl

@[simp] theorem pushReturn_params (a : Addr) (s : State) (h : s.sp.toNat < 16) : (pushReturn a s h).params = s.params := rfl
@[simp] theorem pushReturn_v (a : Addr) (s : State) (h : s.sp.toNat < 16) : (pushReturn a s h).v = s.v := rfl
@[simp] theorem pushReturn_index (a : Addr) (s : State) (h : s.sp.toNat < 16) : (pushReturn a s h).index = s.index := rfl
@[simp] theorem pushReturn_pc (a : Addr) (s : State) (h : s.sp.toNat < 16) : (pushReturn a s h).pc = s.pc := rfl
@[simp] theorem pushReturn_stack (a : Addr) (s : State) (h : s.sp.toNat < 16) : (pushReturn a s h).stack = s.stack.set s.sp.toNat a h := rfl
@[simp] theorem pushReturn_sp (a : Addr) (s : State) (h : s.sp.toNat < 16) : (pushReturn a s h).sp = s.sp + 1 := rfl
@[simp] theorem pushReturn_delay (a : Addr) (s : State) (h : s.sp.toNat < 16) : (pushReturn a s h).delay = s.delay := rfl
@[simp] theorem pushReturn_sound (a : Addr) (s : State) (h : s.sp.toNat < 16) : (pushReturn a s h).sound = s.sound := rfl
@[simp] theorem pushReturn_keys (a : Addr) (s : State) (h : s.sp.toNat < 16) : (pushReturn a s h).keys = s.keys := rfl
@[simp] theorem pushReturn_quirks (a : Addr) (s : State) (h : s.sp.toNat < 16) : (pushReturn a s h).quirks = s.quirks := rfl
@[simp] theorem pushReturn_running (a : Addr) (s : State) (h : s.sp.toNat < 16) : (pushReturn a s h).running = s.running := rfl
@[simp] theorem pushReturn_paused (a : Addr) (s : State) (h : s.sp.toNat < 16) : (pushReturn a s h).paused = s.paused := rfl
@[simp] theorem pushReturn_clearPending (a : Addr) (s : State) (h : s.sp.toNat < 16) : (pushReturn a s h).clearPending = s.clearPending := rfl
@[simp] theorem pushReturn_soundActive (a : Addr) (s : State) (h : s.sp.toNat < 16) : (pushReturn a s h).soundActive = s.soundActive := rfl
@[simp] theorem pushReturn_lastIn (a : Addr) (s : State) (h : s.sp.toNat < 16) : (pushReturn a s h).lastIn = s.lastIn := rfl
@[simp] theorem pushReturn_lastTmr (a : Addr) (s : State) (h : s.sp.toNat < 16) : (pushReturn a s h).lastTmr = s.lastTmr := rfl
@[simp] theorem pushReturn_lastCpu (a : Addr) (s : State) (h : s.sp.toNat < 16) : (pushReturn a s h).lastCpu = s.lastCpu := rfl
@[simp] theorem pushReturn_mem (a : Addr) (s : State) (h : s.sp.toNat < 16) : (pushReturn a s h).mem = s.mem := rfl
@[simp] theorem pushReturn_callbacks (a : Addr) (s : State) (h : s.sp.toNat < 16) : (pushReturn a s h).callbacks = s.callbacks := rfl
@[simp] theorem pushReturn_ops (a : Addr) (s : State) (h : s.sp.toNat < 16) : (pushReturn a s h).ops = s.ops := rfl
@[simp] theorem pushReturn_hostTime (a : Addr) (s : State) (h : s.sp.toNat < 16) : (pushReturn a s h).hostTime = s.hostTime := rfl
@[simp] theorem pushReturn_clock (a : Addr) (s : State) (h : s.sp.toNat < 16) : (pushReturn a s h).clock = s.clock := rfl
@[simp] theorem pushReturn_polls (a : Addr) (s : State) (h : s.sp.toNat < 16) : (pushReturn a s h).polls = s.polls := rfl
@[simp] theorem pushReturn_rands (a : Addr) (s : State) (h : s.sp.toNat < 16) : (pushReturn a s h).rands = s.rands := rfl
@[simp] theorem pushReturn_collisions (a : Addr) (s : State) (h : s.sp.toNat < 16) : (pushReturn a s h).collisions = s.collisions := rfl
@[simp] theorem pushReturn_fresh (a : Addr) (s : State) (h : s.sp.toNat < 16) : (pushReturn a s h).fresh = s.fresh := rfl
@[simp] theorem pushReturn_trace (a : Addr) (s : State) (h : s.sp.toNat < 16) : (pushReturn a s h).trace = s.trace := rfl

@[simp] theorem dropReturn_params (s : State) : (dropReturn s).params = s.params := rfl
@[simp] theorem dropReturn_v (s : State) : (dropReturn s).v = s.v := rfl
@[simp] theorem dropReturn_index (s : State) : (dropReturn s).index = s.index := rfl
@[simp] theorem dropReturn_pc (s : State) : (dropReturn s).pc = s.pc := rfl
@[simp] theorem dropReturn_stack (s : State) : (dropReturn s).stack = s.stack := rfl
@[simp] theorem dropReturn_sp (s : State) : (dropReturn s).sp = s.sp - 1 := rfl
@[simp] theorem dropReturn_delay (s : State) : (dropReturn s).delay = s.delay := rfl
@[simp] theorem dropReturn_sound (s : State) : (dropReturn s).sound = s.sound := rfl
@[simp] theorem dropReturn_keys (s : State) : (dropReturn s).keys = s.keys := rfl
@[simp] theorem dropReturn_quirks (s : State) : (dropReturn s).quirks = s.quirks := rfl
@[simp] theorem dropReturn_running (s : State) : (dropReturn s).running = s.running := rfl
@[simp] theorem dropReturn_paused (s : State) : (dropReturn s).paused = s.paused := rfl
@[simp] theorem dropReturn_clearPending (s : State) : (dropReturn s).clearPending = s.clearPending := rfl
@[simp] theorem dropReturn_soundActive (s : State) : (dropReturn s).soundActive = s.soundActive := rfl
@[simp] theorem dropReturn_lastIn (s : State) : (dropReturn s).lastIn = s.lastIn := rfl
@[simp] theorem dropReturn_lastTmr (s : State) : (dropReturn s).lastTmr = s.lastTmr := rfl
@[simp] theorem dropReturn_lastCpu (s : State) : (dropReturn s).lastCpu = s.lastCpu := rfl
@[simp] theorem dropReturn_mem (s : State) : (dropReturn s).mem = s.mem := rfl
@[simp] theorem dropReturn_callbacks (s : State) : (dropReturn s).callbacks = s.callbacks := rfl
@[simp] theorem dropReturn_ops (s : State) : (dropReturn s).ops = s.ops := rfl
@[simp] theorem dropReturn_hostTime (s : State) : (dropReturn s).hostTime = s.hostTime := rfl
@[simp] theorem dropReturn_clock (s : State) : (dropReturn s).clock = s.clock := rfl
@[simp] theorem dropReturn_polls (s : State) : (dropReturn s).polls = s.polls := rfl
@[simp] theorem dropReturn_rands (s : State) : (dropReturn s).rands = s.rands := rfl
@[simp] theorem dropReturn_collisions (s : State) : (dropReturn s).collisions = s.collisions := rfl
@[simp] theorem dropReturn_fresh (s : State) : (dropReturn s).fresh = s.fresh := rfl
@[simp] theorem dropReturn_trace (s : State) : (dropReturn s).trace = s.trace := rfl

@[simp] theorem storeBytes_params (a : Nat) (bs : List Byte) (s : State) : (storeBytes a bs s).params = s.params := rfl
@[simp] theorem storeBytes_v (a : Nat) (bs : List Byte) (s : State) : (storeBytes a bs s).v = s.v := rfl
@[simp] theorem storeBytes_index (a : Nat) (bs : List Byte) (s : State) : (storeBytes a bs s).index = s.index := rfl
@[simp] theorem storeBytes_pc (a : Nat) (bs : List Byte) (s : State) : (storeBytes a bs s).pc = s.pc := rfl
@[simp] theorem storeBytes_stack (a : Nat) (bs : List Byte) (s : State) : (storeBytes a bs s).stack = s.stack := rfl
@[simp] theorem storeBytes_sp (a : Nat) (bs : List Byte) (s : State) : (storeBytes a bs s).sp = s.sp := rfl
@[simp] theorem storeBytes_delay (a : Nat) (bs : List Byte) (s : State) : (storeBytes a bs s).delay = s.delay := rfl
@[simp] theorem storeBytes_sound (a : Nat) (bs : List Byte) (s : State) : (storeBytes a bs s).sound = s.sound := rfl
@[simp] theorem storeBytes_keys (a : Nat) (bs : List Byte) (s : State) : (storeBytes a bs s).keys = s.keys := rfl
@[simp] theorem storeBytes_quirks (a : Nat) (bs : List Byte) (s : State) : (storeBytes a bs s).quirks = s.quirks := rfl
@[simp] theorem storeBytes_running (a : Nat) (bs : List Byte) (s : State) : (storeBytes a bs s).running = s.running := rfl
@[simp] theorem storeBytes_paused (a : Nat) (bs : List Byte) (s : State) : (storeBytes a bs s).paused = s.paused := rfl
@[simp] theorem storeBytes_clearPending (a : Nat) (bs : List Byte) (s : State) : (storeBytes a bs s).clearPending = s.clearPending := rfl
@[simp] theorem storeBytes_soundActive (a : Nat) (bs : List Byte) (s : State) : (storeBytes a bs s).soundActive = s.soundActive := rfl
@[simp] theorem storeBytes_lastIn (a : Nat) (bs : List Byte) (s : State) : (storeBytes a bs s).lastIn = s.lastIn := rfl
@[simp] theorem storeBytes_lastTmr (a : Nat) (bs : List Byte) (s : State) : (storeBytes a bs s).lastTmr = s.lastTmr := rfl
@[simp] theorem storeBytes_lastCpu (a : Nat) (bs : List Byte) (s : State) : (storeBytes a bs s).lastCpu = s.lastCpu := rfl
@[simp] theorem storeBytes_mem (a : Nat) (bs : List Byte) (s : State) : (storeBytes a bs s).mem = Memory.writeList s.params s.mem a bs := rfl
@[simp] theorem storeBytes_callbacks (a : Nat) (bs : List Byte) (s : State) : (storeBytes a bs s).callbacks = s.callbacks := rfl
@[simp] theorem storeBytes_ops (a : Nat) (bs : List Byte) (s : State) : (storeBytes a bs s).ops = s.ops := rfl
@[simp] theorem storeBytes_hostTime (a : Nat) (bs : List Byte) (s : State) : (storeBytes a bs s).hostTime = s.hostTime := rfl
@[simp] theorem storeBytes_clock (a : Nat) (bs : List Byte) (s : State) : (storeBytes a bs s).clock = s.clock := rfl
@[simp] theorem storeBytes_polls (a : Nat) (bs : List Byte) (s : State) : (storeBytes a bs s).polls = s.polls := rfl
@[simp] theorem storeBytes_rands (a : Nat) (bs : List Byte) (s : State) : (storeBytes a bs s).rands = s.rands := rfl
@[simp] theorem storeBytes_collisions (a : Nat) (bs : List Byte) (s : State) : (storeBytes a bs s).collisions = s.collisions := rfl
@[simp] theorem storeBytes_fresh (a : Nat) (bs : List Byte) (s : State) : (storeBytes a bs s).fresh = s.fresh := rfl
@[simp] theorem storeBytes_trace (a : Nat) (bs : List Byte) (s : State) : (storeBytes a bs s).trace = s.trace := rfl

@[simp] theorem note_params (e : HostEvent) (s : State) : (note e s).params = s.params := rfl
@[simp] theorem note_v (e : HostEvent) (s : State) : (note e s).v = s.v := rfl
@[simp] theorem note_index (e : HostEvent) (s : State) : (note e s).index = s.index := rfl
@[simp] theorem note_pc (e : HostEvent) (s : State) : (note e s).pc = s.pc := rfl
@[simp] theorem note_stack (e : HostEvent) (s : State) : (note e s).stack = s.stack := rfl
@[simp] theorem note_sp (e : HostEvent) (s : State) : (note e s).sp = s.sp := rfl
@[simp] theorem note_delay (e : HostEvent) (s : State) : (note e s).delay = s.delay := rfl
@[simp] theorem note_sound (e : HostEvent) (s : State) : (note e s).sound = s.sound := rfl
@[simp] theorem note_keys (e : HostEvent) (s : State) : (note e s).keys = s.keys := rfl
@[simp] theorem note_quirks (e : HostEvent) (s : State) : (note e s).quirks = s.quirks := rfl
@[simp] theorem note_running (e : HostEvent) (s : State) : (note e s).running = s.running := rfl
@[simp] theorem note_paused (e : HostEvent) (s : State) : (note e s).paused = s.paused := rfl
@[simp] theorem note_clearPending (e : HostEvent) (s : State) : (note e s).clearPending = s.clearPending := rfl
@[simp] theorem note_soundActive (e : HostEvent) (s : State) : (note e s).soundActive = s.soundActive := rfl
@[simp] theorem note_lastIn (e : HostEvent) (s : State) : (note e s).lastIn = s.lastIn := rfl
@[simp] theorem note_lastTmr (e : HostEvent) (s : State) : (note e s).lastTmr = s.lastTmr := rfl
@[simp] theorem note_lastCpu (e : HostEvent) (s : State) : (note e s).lastCpu = s.lastCpu := rfl
@[simp] theorem note_mem (e : HostEvent) (s : State) : (note e s).mem = s.mem := rfl
@[simp] theorem note_callbacks (e : HostEvent) (s : State) : (note e s).callbacks = s.callbacks := rfl
@[simp] theorem note_ops (e : HostEvent) (s : State) : (note e s).ops = s.ops := rfl
@[simp] theorem note_hostTime (e : HostEvent) (s : State) : (note e s).hostTime = s.hostTime := rfl
@[simp] theorem note_clock (e : HostEvent) (s : State) : (note e s).clock = s.clock := rfl
@[simp] theorem note_polls (e : HostEvent) (s : State) : (note e s).polls = s.polls := rfl
@[simp] theorem note_rands (e : HostEvent) (s : State) : (note e s).rands = s.rands := rfl
@[simp] theorem note_collisions (e : HostEvent) (s : State) : (note e s).collisions = s.collisions := rfl
@[simp] theorem note_fresh (e : HostEvent) (s : State) : (note e s).fresh = s.fresh := rfl
@[simp] theorem note_trace (e : HostEvent) (s : State) : (note e s).trace = s.trace ++ [e] := rfl

@[simp] theorem raise_params (f : HwFault) (s : State) : (raise f s).params = s.params := rfl
@[simp] theorem raise_v (f : HwFault) (s : State) : (raise f s).v = s.v := rfl
@[simp] theorem raise_index (f : HwFault) (s : State) : (raise f s).index = s.index := rfl
@[simp] theorem raise_pc (f : HwFault) (s : State) : (raise f s).pc = s.pc := rfl
@[simp] theorem raise_stack (f : HwFault) (s : State) : (raise f s).stack = s.stack := rfl
@[simp] theorem raise_sp (f : HwFault) (s : State) : (raise f s).sp = s.sp := rfl
@[simp] theorem raise_delay (f : HwFault) (s : State) : (raise f s).delay = s.delay := rfl
@[simp] theorem raise_sound (f : HwFault) (s : State) : (raise f s).sound = s.sound := rfl
@[simp] theorem raise_keys (f : HwFault) (s : State) : (raise f s).keys = s.keys := rfl
@[simp] theorem raise_quirks (f : HwFault) (s : State) : (raise f s).quirks = s.quirks := rfl
@[simp] theorem raise_running (f : HwFault) (s : State) : (raise f s).running = false := rfl
@[simp] theorem raise_paused (f : HwFault) (s : State) : (raise f s).paused = s.paused := rfl
@[simp] theorem raise_clearPending (f : HwFault) (s : State) : (raise f s).clearPending = s.clearPending := rfl
@[simp] theorem raise_soundActive (f : HwFault) (s : State) : (raise f s).soundActive = s.soundActive := rfl
@[simp] theorem raise_lastIn (f : HwFault) (s : State) : (raise f s).lastIn = s.lastIn := rfl
@[simp] theorem raise_lastTmr (f : HwFault) (s : State) : (raise f s).lastTmr = s.lastTmr := rfl
@[simp] theorem raise_lastCpu (f : HwFault) (s : State) : (raise f s).lastCpu = s.lastCpu := rfl
@[simp] theorem raise_mem (f : HwFault) (s : State) : (raise f s).mem = s.mem := rfl
@[simp] theorem raise_callbacks (f : HwFault) (s : State) : (raise f s).callbacks = s.callbacks := rfl
@[simp] theorem raise_ops (f : HwFault) (s : State) : (raise f s).ops = s.ops := rfl
@[simp] theorem raise_hostTime (f : HwFault) (s : State) : (raise f s).hostTime = s.hostTime := rfl
@[simp] theorem raise_clock (f : HwFault) (s : State) : (raise f s).clock = s.clock := rfl
@[simp] theorem raise_polls (f : HwFault) (s : State) : (raise f s).polls = s.polls := rfl
@[simp] theorem raise_rands (f : HwFault) (s : State) : (raise f s).rands = s.rands := rfl
@[simp] theorem raise_collisions (f : HwFault) (s : State) : (raise f s).collisions = s.collisions := rfl
@[simp] theorem raise_fresh (f : HwFault) (s : State) : (raise f s).fresh = s.fresh := rfl
@[simp] theorem raise_trace (f : HwFault) (s : State) : (raise f s).trace = s.trace ++ [.report f] := rfl

@[simp] theorem useFresh_params (used : Bool) (s : State) : (useFresh used s).params = s.params := rfl
@[simp] theorem useFresh_v (used : Bool) (s : State) : (useFresh used s).v = s.v := rfl
@[simp] theorem useFresh_index (used : Bool) (s : State) : (useFresh used s).index = s.index := rfl
@[simp] theorem useFresh_pc (used : Bool) (s : State) : (useFresh used s).pc = s.pc := rfl
@[simp] theorem useFresh_stack (used : Bool) (s : State) : (useFresh used s).stack = s.stack := rfl
@[simp] theorem useFresh_sp (used : Bool) (s : State) : (useFresh used s).sp = s.sp := rfl
@[simp] theorem useFresh_delay (used : Bool) (s : State) : (useFresh used s).delay = s.delay := rfl
@[simp] theorem useFresh_sound (used : Bool) (s : State) : (useFresh used s).sound = s.sound := rfl
@[simp] theorem useFresh_keys (used : Bool) (s : State) : (useFresh used s).keys = s.keys := rfl
@[simp] theorem useFresh_quirks (used : Bool) (s : State) : (useFresh used s).quirks = s.quirks := rfl
@[simp] theorem useFresh_running (used : Bool) (s : State) : (useFresh used s).running = s.running := rfl
@[simp] theorem useFresh_paused (used : Bool) (s : State) : (useFresh used s).paused = s.paused := rfl
@[simp] theorem useFresh_clearPending (used : Bool) (s : State) : (useFresh used s).clearPending = s.clearPending := rfl
@[simp] theorem useFresh_soundActive (used : Bool) (s : State) : (useFresh used s).soundActive = s.soundActive := rfl
@[simp] theorem useFresh_lastIn (used : Bool) (s : State) : (useFresh used s).lastIn = s.lastIn := rfl
@[simp] theorem useFresh_lastTmr (used : Bool) (s : State) : (useFresh used s).lastTmr = s.lastTmr := rfl
@[simp] theorem useFresh_lastCpu (used : Bool) (s : State) : (useFresh used s).lastCpu = s.lastCpu := rfl
@[simp] theorem useFresh_mem (used : Bool) (s : State) : (useFresh used s).mem = s.mem := rfl
@[simp] theorem useFresh_callbacks (used : Bool) (s : State) : (useFresh used s).callbacks = s.callbacks := rfl
@[simp] theorem useFresh_ops (used : Bool) (s : State) : (useFresh used s).ops = s.ops := rfl
@[simp] theorem useFresh_hostTime (used : Bool) (s : State) : (useFresh used s).hostTime = s.hostTime := rfl
@[simp] theorem useFresh_clock (used : Bool) (s : State) : (useFresh used s).clock = s.clock := rfl
@[simp] theorem useFresh_polls (used : Bool) (s : State) : (useFresh used s).polls = s.polls := rfl
@[simp] theorem useFresh_rands (used : Bool) (s : State) : (useFresh used s).rands = s.rands := rfl
@[simp] theorem useFresh_collisions (used : Bool) (s : State) : (useFresh used s).collisions = s.collisions := rfl
@[simp] theorem useFresh_fresh (used : Bool) (s : State) : (useFresh used s).fresh = if used then s.fresh + 1 else s.fresh := rfl
@[simp] theorem useFresh_trace (used : Bool) (s : State) : (useFresh used s).trace = s.trace := rfl

@[simp] theorem takeOp_params (s : State) : (takeOp s).params = s.params := rfl
@[simp] theorem takeOp_v (s : State) : (takeOp s).v = s.v := rfl
@[simp] theorem takeOp_index (s : State) : (takeOp s).index = s.index := rfl
@[simp] theorem takeOp_pc (s : State) : (takeOp s).pc = s.pc := rfl
@[simp] theorem takeOp_stack (s : State) : (takeOp s).stack = s.stack := rfl
@[simp] theorem takeOp_sp (s : State) : (takeOp s).sp = s.sp := rfl
@[simp] theorem takeOp_delay (s : State) : (takeOp s).delay = s.delay := rfl
@[simp] theorem takeOp_sound (s : State) : (takeOp s).sound = s.sound := rfl
@[simp] theorem takeOp_keys (s : State) : (takeOp s).keys = s.keys := rfl
@[simp] theorem takeOp_quirks (s : State) : (takeOp s).quirks = s.quirks := rfl
@[simp] theorem takeOp_running (s : State) : (takeOp s).running = s.running := rfl
@[simp] theorem takeOp_paused (s : State) : (takeOp s).paused = s.paused := rfl
@[simp] theorem takeOp_clearPending (s : State) : (takeOp s).clearPending = s.clearPending := rfl
@[simp] theorem takeOp_soundActive (s : State) : (takeOp s).soundActive = s.soundActive := rfl
@[simp] theorem takeOp_lastIn (s : State) : (takeOp s).lastIn = s.lastIn := rfl
@[simp] theorem takeOp_lastTmr (s : State) : (takeOp s).lastTmr = s.lastTmr := rfl
@[simp] theorem takeOp_lastCpu (s : State) : (takeOp s).lastCpu = s.lastCpu := rfl
@[simp] theorem takeOp_mem (s : State) : (takeOp s).mem = s.mem := rfl
@[simp] theorem takeOp_callbacks (s : State) : (takeOp s).callbacks = s.callbacks := rfl
@[simp] theorem takeOp_ops (s : State) : (takeOp s).ops = s.ops.tail := rfl
@[simp] theorem takeOp_hostTime (s : State) : (takeOp s).hostTime = s.hostTime := rfl
@[simp] theorem takeOp_clock (s : State) : (takeOp s).clock = s.clock := rfl
@[simp] theorem takeOp_polls (s : State) : (takeOp s).polls = s.polls := rfl
@[simp] theorem takeOp_rands (s : State) : (takeOp s).rands = s.rands := rfl
@[simp] theorem takeOp_collisions (s : State) : (takeOp s).collisions = s.collisions := rfl
@[simp] theorem takeOp_fresh (s : State) : (takeOp s).fresh = s.fresh := rfl
@[simp] theorem takeOp_trace (s : State) : (takeOp s).trace = s.trace := rfl

@[simp] theorem stampIn_params (now : Time) (s : State) : (stampIn now s).params = s.params := rfl
@[simp] theorem stampIn_v (now : Time) (s : State) : (stampIn now s).v = s.v := rfl
@[simp] theorem stampIn_index (now : Time) (s : State) : (stampIn now s).index = s.index := rfl
@[simp] theorem stampIn_pc (now : Time) (s : State) : (stampIn now s).pc = s.pc := rfl
@[simp] theorem stampIn_stack (now : Time) (s : State) : (stampIn now s).stack = s.stack := rfl
@[simp] theorem stampIn_sp (now : Time) (s : State) : (stampIn now s).sp = s.sp := rfl
@[simp] theorem stampIn_delay (now : Time) (s : State) : (stampIn now s).delay = s.delay := rfl
@[simp] theorem stampIn_sound (now : Time) (s : State) : (stampIn now s).sound = s.sound := rfl
@[simp] theorem stampIn_keys (now : Time) (s : State) : (stampIn now s).keys = s.keys := rfl
@[simp] theorem stampIn_quirks (now : Time) (s : State) : (stampIn now s).quirks = s.quirks := rfl
@[simp] theorem stampIn_running (now : Time) (s : State) : (stampIn now s).running = s.running := rfl
@[simp] theorem stampIn_paused (now : Time) (s : State) : (stampIn now s).paused = s.paused := rfl
@[simp] theorem stampIn_clearPending (now : Time) (s : State) : (stampIn now s).clearPending = s.clearPending := rfl
@[simp] theorem stampIn_soundActive (now : Time) (s : State) : (stampIn now s).soundActive = s.soundActive := rfl
@[simp] theorem stampIn_lastIn (now : Time) (s : State) : (stampIn now s).lastIn = now := rfl
@[simp] theorem stampIn_lastTmr (now : Time) (s : State) : (stampIn now s).lastTmr = s.lastTmr := rfl
@[simp] theorem stampIn_lastCpu (now : Time) (s : State) : (stampIn now s).lastCpu = s.lastCpu := rfl
@[simp] theorem stampIn_mem (now : Time) (s : State) : (stampIn now s).mem = s.mem := rfl
@[simp] theorem stampIn_callbacks (now : Time) (s : State) : (stampIn now s).callbacks = s.callbacks := rfl
@[simp] theorem stampIn_ops (now : Time) (s : State) : (stampIn now s).ops = s.ops := rfl
@[simp] theorem stampIn_hostTime (now : Time) (s : State) : (stampIn now s).hostTime = s.hostTime := rfl
@[simp] theorem stampIn_clock (now : Time) (s : State) : (stampIn now s).clock = s.clock := rfl
@[simp] theorem stampIn_polls (now : Time) (s : State) : (stampIn now s).polls = s.polls := rfl
@[simp] theorem stampIn_rands (now : Time) (s : State) : (stampIn now s).rands = s.rands := rfl
@[simp] theorem stampIn_collisions (now : Time) (s : State) : (stampIn now s).collisions = s.collisions := rfl
@[simp] theorem stampIn_fresh (now : Time) (s : State) : (stampIn now s).fresh = s.fresh := rfl
@[simp] theorem stampIn_trace (now : Time) (s : State) : (stampIn now s).trace = s.trace := rfl

@[simp] theorem stampTmr_params (now : Time) (s : State) : (stampTmr now s).params = s.params := rfl
@[simp] theorem stampTmr_v (now : Time) (s : State) : (stampTmr now s).v = s.v := rfl
@[simp] theorem stampTmr_index (now : Time) (s : State) : (stampTmr now s).index = s.index := rfl
@[simp] theorem stampTmr_pc (now : Time) (s : State) : (stampTmr now s).pc = s.pc := rfl
@[simp] theorem stampTmr_stack (now : Time) (s : State) : (stampTmr now s).stack = s.stack := rfl
@[simp] theorem stampTmr_sp (now : Time) (s : State) : (stampTmr now s).sp = s.sp := rfl
@[simp] theorem stampTmr_delay (now : Time) (s : State) : (stampTmr now s).delay = s.delay := rfl
@[simp] theorem stampTmr_sound (now : Time) (s : State) : (stampTmr now s).sound = s.sound := rfl
@[simp] theorem stampTmr_keys (now : Time) (s : State) : (stampTmr now s).keys = s.keys := rfl
@[simp] theorem stampTmr_quirks (now : Time) (s : State) : (stampTmr now s).quirks = s.quirks := rfl
@[simp] theorem stampTmr_running (now : Time) (s : State) : (stampTmr now s).running = s.running := rfl
@[simp] theorem stampTmr_paused (now : Time) (s : State) : (stampTmr now s).paused = s.paused := rfl
@[simp] theorem stampTmr_clearPending (now : Time) (s : State) : (stampTmr now s).clearPending = s.clearPending := rfl
@[simp] theorem stampTmr_soundActive (now : Time) (s : State) : (stampTmr now s).soundActive = s.soundActive := rfl
@[simp] theorem stampTmr_lastIn (now : Time) (s : State) : (stampTmr now s).lastIn = s.lastIn := rfl
@[simp] theorem stampTmr_lastTmr (now : Time) (s : State) : (stampTmr now s).lastTmr = now := rfl
@[simp] theorem stampTmr_lastCpu (now : Time) (s : State) : (stampTmr now s).lastCpu = s.lastCpu := rfl
@[simp] theorem stampTmr_mem (now : Time) (s : State) : (stampTmr now s).mem = s.mem := rfl
@[simp] theorem stampTmr_callbacks (now : Time) (s : State) : (stampTmr now s).callbacks = s.callbacks := rfl
@[simp] theorem stampTmr_ops (now : Time) (s : State) : (stampTmr now s).ops = s.ops := rfl
@[simp] theorem stampTmr_hostTime (now : Time) (s : State) : (stampTmr now s).hostTime = s.hostTime := rfl
@[simp] theorem stampTmr_clock (now : Time) (s : State) : (stampTmr now s).clock = s.clock := rfl
@[simp] theorem stampTmr_polls (now : Time) (s : State) : (stampTmr now s).polls = s.polls := rfl
@[simp] theorem stampTmr_rands (now : Time) (s : State) : (stampTmr now s).rands = s.rands := rfl
@[simp] theorem stampTmr_collisions (now : Time) (s : State) : (stampTmr now s).collisions = s.collisions := rfl
@[simp] theorem stampTmr_fresh (now : Time) (s : State) : (stampTmr now s).fresh = s.fresh := rfl
@[simp] theorem stampTmr_trace (now : Time) (s : State) : (stampTmr now s).trace = s.trace := rfl

@[simp] theorem stampCpu_params (now : Time) (s : State) : (stampCpu now s).params = s.params := rfl
@[simp] theorem stampCpu_v (now : Time) (s : State) : (stampCpu now s).v = s.v := rfl
@[simp] theorem stampCpu_index (now : Time) (s : State) : (stampCpu now s).index = s.index := rfl
@[simp] theorem stampCpu_pc (now : Time) (s : State) : (stampCpu now s).pc = s.pc := rfl
@[simp] theorem stampCpu_stack (now : Time) (s : State) : (stampCpu now s).stack = s.stack := rfl
@[simp] theorem stampCpu_sp (now : Time) (s : State) : (stampCpu now s).sp = s.sp := rfl
@[simp] theorem stampCpu_delay (now : Time) (s : State) : (stampCpu now s).delay = s.delay := rfl
@[simp] theorem stampCpu_sound (now : Time) (s : State) : (stampCpu now s).sound = s.sound := rfl
@[simp] theorem stampCpu_keys (now : Time) (s : State) : (stampCpu now s).keys = s.keys := rfl
@[simp] theorem stampCpu_quirks (now : Time) (s : State) : (stampCpu now s).quirks = s.quirks := rfl
@[simp] theorem stampCpu_running (now : Time) (s : State) : (stampCpu now s).running = s.running := rfl
@[simp] theorem stampCpu_paused (now : Time) (s : State) : (stampCpu now s).paused = s.paused := rfl
@[simp] theorem stampCpu_clearPending (now : Time) (s : State) : (stampCpu now s).clearPending = s.clearPending := rfl
@[simp] theorem stampCpu_soundActive (now : Time) (s : State) : (stampCpu now s).soundActive = s.soundActive := rfl
@[simp] theorem stampCpu_lastIn (now : Time) (s : State) : (stampCpu now s).lastIn = s.lastIn := rfl
@[simp] theorem stampCpu_lastTmr (now : Time) (s : State) : (stampCpu now s).lastTmr = s.lastTmr := rfl
@[simp] theorem stampCpu_lastCpu (now : Time) (s : State) : (stampCpu now s).lastCpu = now := rfl
@[simp] theorem stampCpu_mem (now : Time) (s : State) : (stampCpu now s).mem = s.mem := rfl
@[simp] theorem stampCpu_callbacks (now : Time) (s : State) : (stampCpu now s).callbacks = s.callbacks := rfl
@[simp] theorem stampCpu_ops (now : Time) (s : State) : (stampCpu now s).ops = s.ops := rfl
@[simp] theorem stampCpu_hostTime (now : Time) (s : State) : (stampCpu now s).hostTime = s.hostTime := rfl
@[simp] theorem stampCpu_clock (now : Time) (s : State) : (stampCpu now s).clock = s.clock := rfl
@[simp] theorem stampCpu_polls (now : Time) (s : State) : (stampCpu now s).polls = s.polls := rfl
@[simp] theorem stampCpu_rands (now : Time) (s : State) : (stampCpu now s).rands = s.rands := rfl
@[simp] theorem stampCpu_collisions (now : Time) (s : State) : (stampCpu now s).collisions = s.collisions := rfl
@[simp] theorem stampCpu_fresh (now : Time) (s : State) : (stampCpu now s).fresh = s.fresh := rfl
@[simp] theorem stampCpu_trace (now : Time) (s : State) : (stampCpu now s).trace = s.trace := rfl

/-! Derived updates -/

@[simp] theorem advance_eq (s : State) : advance s = setPc (s.pc + 2) s := rfl

@[simp] theorem setFlag_eq (f : Bool) (s : State) : setFlag f s = setV 15 (if f then 1 else 0) s := rfl

@[simp] theorem callScreen_eq (c u : Bool) (s : State) :
    callScreen c u s = note (.screen s.callbacks.screen c u) s := rfl

theorem skipNextIf_eq (c : Bool) (s : State) : skipNextIf c s = setPc (if c then s.pc + 4 else s.pc + 2) s := by
  cases c <;> rfl

theorem bumpIndex_eq (x : Reg) (s : State) :
    bumpIndex x s =
      setIndex (if s.quirks.indexInc then BitVec.ofNat 16 (s.index.toNat + x.val + 1) else s.index) s := by
  unfold bumpIndex
  split <;> rfl

/-! Registers and bytes, read after the updates that leave them -/

@[simp] theorem getV_setIndex (a : Addr) (s : State) (r : Reg) : getV (setIndex a s) r = getV s r := rfl
@[simp] theorem getV_setPc (a : Addr) (s : State) (r : Reg) : getV (setPc a s) r = getV s r := rfl
@[simp] theorem getV_dropReturn (s : State) (r : Reg) : getV (dropReturn s) r = getV s r := rfl
@[simp] theorem getV_storeBytes (a : Nat) (bs : List Byte) (s : State) (r : Reg) : getV (storeBytes a bs s) r = getV s r := rfl
@[simp] theorem getV_note (e : HostEvent) (s : State) (r : Reg) : getV (note e s) r = getV s r := rfl
@[simp] theorem getV_raise (f : HwFault) (s : State) (r : Reg) : getV (raise f s) r = getV s r := rfl
@[simp] theorem getV_useFresh (used : Bool) (s : State) (r : Reg) : getV (useFresh used s) r = getV s r := rfl
@[simp] theorem getV_takeOp (s : State) (r : Reg) : getV (takeOp s) r = getV s r := rfl
@[simp] theorem readByte_setV (x : Reg) (b : Byte) (s : State) (k : Nat) : readByte (setV x b s) k = readByte s k := rfl
@[simp] theorem readByte_setIndex (a : Addr) (s : State) (k : Nat) : readByte (setIndex a s) k = readByte s k := rfl
@[simp] theorem readByte_setPc (a : Addr) (s : State) (k : Nat) : readByte (setPc a s) k = readByte s k := rfl
@[simp] theorem readByte_dropReturn (s : State) (k : Nat) : readByte (dropReturn s) k = readByte s k := rfl
@[simp] theorem readByte_note (e : HostEvent) (s : State) (k : Nat) : readByte (note e s) k = readByte s k := rfl
@[simp] theorem readByte_raise (f : HwFault) (s : State) (k : Nat) : readByte (raise f s) k = readByte s k := rfl
@[simp] theorem readByte_useFresh (used : Bool) (s : State) (k : Nat) : readByte (useFresh used s) k = readByte s k := rfl
@[simp] theorem readByte_takeOp (s : State) (k : Nat) : readByte (takeOp s) k = readByte s k := rfl

/-! Registers, read after a write -/

@[simp] theorem getV_setV_same (x : Reg) (b : Byte) (s : State) : getV (setV x b s) x = b := by
  simp [getV]

theorem getV_setV_other {x r : Reg} (h : r ≠ x) (b : Byte) (s : State) : getV (setV x b s) r = getV s r := by
  have : x.val ≠ r.val := fun e => h (Fin.ext e.symm)
  simp [getV, this]

theorem getV_setV (x r : Reg) (b : Byte) (s : State) :
    getV (setV x b s) r = if r = x then b else getV s r := by
  by_cases h : r = x
  · subst h; simp
  · simp [h, getV_setV_other h]

/-- Registers are read from the field `v` alone. -/
theorem getV_congr {s t : State} (h : t.v = s.v) (r : Reg) : getV t r = getV s r := by
  simp [getV, h]

/-- Bytes are read from the fields `params` and `mem` alone. -/
theorem readByte_congr {s t : State} (hp : t.params = s.params) (h : t.mem = s.mem) (a : Nat) :
    readByte t a = readByte s a := by
  simp [readByte, hp, h]

end Sys2Proof.Machine
end

