-- ==== Sys2Proof/Laws/Memory.lean ====
section
/-! SUPPORT. What memory reads after a write, and that writes keep the canonical form (spec/20_memory.md R72). -/

namespace Sys2Proof.Machine

/-! Sizes, for arithmetic -/

theorem memSize_eq : Config.memSize = 4096 := rfl

theorem fontSize_eq : Config.fontSize = 80 := rfl

theorem programCapacity_default : programCapacity Config.params = 3584 := rfl

/-- The initial contents: the font in its region, zero elsewhere (R56). -/
theorem Memory.initial_eq {p : Params} (hp : p.Legal) (a : Nat) :
    Memory.initial p a =
      if p.fontBase ≤ a ∧ a < p.fontBase + Config.fontSize then p.font.toList.getD (a - p.fontBase) 0 else 0 := by
  have := hp.1
  unfold Memory.initial
  by_cases h : a < p.programOffset
  · rw [if_pos h]
  · rw [if_neg h, if_neg (by omega)]

/-- A write's entries are the written cell and old entries. -/
theorem Memory.mem_write {p : Params} {m : Memory} {a : Nat} {b : Byte} {c : Host.Cell} (h : c ∈ Memory.write p m a b) :
    (c = (a, b) ∧ b ≠ Memory.initial p a) ∨ c ∈ m := by
  induction m with
  | nil =>
    unfold Memory.write at h
    split at h
    · cases h
    · simp_all
  | cons hd rest ih =>
    obtain ⟨k, c'⟩ := hd
    unfold Memory.write at h
    split at h
    · split at h
      · exact .inr h
      · rename_i hb
        rcases List.mem_cons.mp h with h | h
        · exact .inl ⟨h, hb⟩
        · exact .inr h
    · split at h
      · split at h
        · exact .inr (List.mem_cons_of_mem _ h)
        · rename_i hb
          rcases List.mem_cons.mp h with h | h
          · exact .inl ⟨h, hb⟩
          · exact .inr (List.mem_cons_of_mem _ h)
      · rcases List.mem_cons.mp h with h | h
        · exact .inr (by simp [h])
        · rcases ih h with h | h
          · exact .inl h
          · exact .inr (List.mem_cons_of_mem _ h)

/-- A write keeps the entries in rising order. -/
theorem Memory.write_sorted {p : Params} {m : Memory} (a : Nat) (b : Byte) (h : m.Pairwise (fun c d => c.1 < d.1)) :
    (Memory.write p m a b).Pairwise (fun c d => c.1 < d.1) := by
  induction m with
  | nil => unfold Memory.write; split <;> simp
  | cons hd rest ih =>
    obtain ⟨k, c⟩ := hd
    obtain ⟨hk, hr⟩ := List.pairwise_cons.mp h
    unfold Memory.write
    split
    · rename_i hak
      split
      · exact h
      · refine List.pairwise_cons.mpr ⟨?_, h⟩
        intro d hd
        rcases List.mem_cons.mp hd with rfl | hd
        · exact hak
        · exact lt_trans hak (hk d hd)
    · rename_i hak
      split
      · rename_i hka
        subst hka
        split
        · exact hr
        · exact List.pairwise_cons.mpr ⟨hk, hr⟩
      · rename_i hka
        refine List.pairwise_cons.mpr ⟨?_, ih hr⟩
        intro d hd
        rcases Memory.mem_write hd with ⟨rfl, -⟩ | hd
        · show k < a
          omega
        · exact hk d hd

/-- A write inside memory keeps the canonical form. -/
theorem Memory.write_wf {p : Params} {m : Memory} {a : Nat} (b : Byte) (h : Memory.wf p m) (ha : a < Config.memSize) :
    Memory.wf p (Memory.write p m a b) := by
  refine ⟨Memory.write_sorted a b h.1, ?_⟩
  intro c hc
  rcases Memory.mem_write hc with ⟨rfl, hb⟩ | hc
  · exact ⟨ha, hb⟩
  · exact h.2 c hc

/-- An address below every entry reads as its initial contents. -/
theorem Memory.read_below {p : Params} {m : Memory} {a : Nat} (h : ∀ c ∈ m, a < c.1) : Memory.read p m a = Memory.initial p a := by
  induction m with
  | nil => rfl
  | cons hd rest ih =>
    obtain ⟨k, c⟩ := hd
    have hk : a < k := h (k, c) (by simp)
    unfold Memory.read
    rw [if_neg (by omega)]
    exact ih fun d hd => h d (List.mem_cons_of_mem _ hd)

/-- A read of the written address gives the byte written. -/
theorem Memory.read_write_same {p : Params} {m : Memory} (a : Nat) (b : Byte) (h : m.Pairwise (fun c d => c.1 < d.1)) :
    Memory.read p (Memory.write p m a b) a = b := by
  induction m with
  | nil =>
    unfold Memory.write
    split
    · simp_all [Memory.read]
    · simp [Memory.read]
  | cons hd rest ih =>
    obtain ⟨k, c⟩ := hd
    obtain ⟨hk, hr⟩ := List.pairwise_cons.mp h
    unfold Memory.write
    split
    · rename_i hak
      split
      · rename_i hb
        rw [hb]
        refine Memory.read_below ?_
        intro d hd
        rcases List.mem_cons.mp hd with rfl | hd
        · exact hak
        · exact lt_trans hak (hk d hd)
      · simp [Memory.read]
    · split
      · rename_i hka
        subst hka
        split
        · rename_i hb
          rw [hb]
          exact Memory.read_below hk
        · simp [Memory.read]
      · rename_i hka
        simp [Memory.read, hka, ih hr]

/-- A read of any other address is as before the write, whatever the form of the memory. -/
theorem Memory.read_write_other {p : Params} {m : Memory} {a a' : Nat} (b : Byte) (h : a' ≠ a) :
    Memory.read p (Memory.write p m a b) a' = Memory.read p m a' := by
  have h' : ¬ a = a' := fun e => h e.symm
  induction m with
  | nil => unfold Memory.write; split <;> simp [Memory.read, h']
  | cons hd rest ih =>
    obtain ⟨k, c⟩ := hd
    unfold Memory.write
    split
    · split
      · rfl
      · simp [Memory.read, h']
    · split
      · rename_i hka
        subst hka
        split <;> simp [Memory.read, h']
      · simp [Memory.read, ih]

/-- Stores inside memory keep the canonical form. -/
theorem Memory.writeList_wf {p : Params} {m : Memory} (a : Nat) (bs : List Byte) (h : Memory.wf p m)
    (ha : a + bs.length ≤ Config.memSize) : Memory.wf p (Memory.writeList p m a bs) := by
  induction bs generalizing m a with
  | nil => exact h
  | cons b rest ih =>
    simp only [List.length_cons] at ha
    exact ih (a + 1) (Memory.write_wf b h (by omega)) (by omega)

/-- Every address outside the stored bytes reads as before. -/
theorem Memory.read_writeList_outside {p : Params} {m : Memory} {a k : Nat} (bs : List Byte)
    (h : k < a ∨ a + bs.length ≤ k) : Memory.read p (Memory.writeList p m a bs) k = Memory.read p m k := by
  induction bs generalizing m a with
  | nil => rfl
  | cons b rest ih =>
    simp only [List.length_cons] at h
    unfold Memory.writeList
    rw [ih (by omega), Memory.read_write_other b (by omega)]

/-- Every address of the stored bytes reads as the byte stored there. -/
theorem Memory.read_writeList_inside {p : Params} {m : Memory} {a k : Nat} (bs : List Byte) (h : Memory.wf p m)
    (ha : a + bs.length ≤ Config.memSize) (hk : k < bs.length) :
    Memory.read p (Memory.writeList p m a bs) (a + k) = bs.getD k 0 := by
  induction bs generalizing m a k with
  | nil => simp at hk
  | cons b rest ih =>
    simp only [List.length_cons] at ha hk
    unfold Memory.writeList
    cases k with
    | zero =>
      rw [Memory.read_writeList_outside rest (by omega)]
      simpa using Memory.read_write_same a b h.1
    | succ j =>
      have := ih (m := Memory.write p m a b) (a := a + 1) (k := j) (Memory.write_wf b h (by omega)) (by omega)
        (by omega)
      rw [show a + (j + 1) = a + 1 + j by omega, this]
      simp

/-- The empty memory is in canonical form. -/
theorem Memory.wf_nil {p : Params} : Memory.wf p [] := by simp [Memory.wf]

/-- What a load leaves in memory is in canonical form (R56). -/
theorem loadedMemory_wf {p : Params} (program : List Byte) (hp : p.Legal)
    (h : program.length ≤ programCapacity p) : Memory.wf p (loadedMemory p program) := by
  have := hp.2
  refine Memory.writeList_wf _ _ Memory.wf_nil ?_
  unfold programCapacity at h
  omega

/-- A memory of free values is in canonical form (R57). -/
theorem unspecifiedMemory_wf (p : Params) (n : Nat) : Memory.wf p (unspecifiedMemory p n) := by
  refine Memory.writeList_wf _ _ Memory.wf_nil ?_
  simp

end Sys2Proof.Machine
end

