-- ==== Sys2Proof/Laws/Ops.lean ====
section
/-! SUPPORT. For each shared operation, once, what it can do: which parts of the state it may change, and what it
leaves in them. Later proofs cite these and do not unfold the operations. -/

namespace Sys2Proof.Machine

/-! Frames compose -/

theorem samePart_refl (p : Part) (s : State) : samePart p s s := by
  cases p <;> simp [samePart]

theorem samePart_trans {p : Part} {s t u : State} (h : samePart p s t) (k : samePart p t u) : samePart p s u := by
  cases p <;> simp_all [samePart]

theorem keepsAllBut_refl (ps : List Part) (s : State) : keepsAllBut ps s s := fun p _ => samePart_refl p s

theorem keepsAllBut_trans {ps : List Part} {s t u : State} (h : keepsAllBut ps s t) (k : keepsAllBut ps t u) :
    keepsAllBut ps s u := fun p hp => samePart_trans (h p hp) (k p hp)

/-- A frame may be weakened to a longer list of written parts. -/
theorem keepsAllBut_mono {ps qs : List Part} {s t : State} (h : keepsAllBut ps s t)
    (hsub : ∀ p ∈ ps, p ∈ qs) : keepsAllBut qs s t := fun p hp => h p fun hq => hp (hsub p hq)

/-- Two frames one after the other, for concrete lists of parts. -/
theorem keepsAllBut_seq {ps qs rs : List Part} {s t u : State} (h : keepsAllBut ps s t) (k : keepsAllBut qs t u)
    (hp : ∀ p ∈ ps, p ∈ rs := by decide) (hq : ∀ p ∈ qs, p ∈ rs := by decide) : keepsAllBut rs s u :=
  keepsAllBut_trans (keepsAllBut_mono h hp) (keepsAllBut_mono k hq)

/-! The base updates -/

theorem setPc_keeps (a : Addr) (s : State) : keepsAllBut [.pc] s (setPc a s) := by
  intro p hp
  cases p <;> simp_all [samePart, getV, readByte]

theorem advance_keeps (s : State) : keepsAllBut [.pc] s (advance s) := setPc_keeps _ s

theorem skipNextIf_keeps (c : Bool) (s : State) : keepsAllBut [.pc] s (skipNextIf c s) := by
  rw [skipNextIf_eq]
  exact setPc_keeps _ s

theorem setV_keeps (x : Reg) (b : Byte) (s : State) : keepsAllBut [.regs] s (setV x b s) := by
  intro p hp
  cases p <;> simp_all [samePart, readByte]

theorem setIndex_keeps (a : Addr) (s : State) : keepsAllBut [.index] s (setIndex a s) := by
  intro p hp
  cases p <;> simp_all [samePart, getV, readByte]

theorem bumpIndex_keeps (x : Reg) (s : State) : keepsAllBut [.index] s (bumpIndex x s) := by
  rw [bumpIndex_eq]
  exact setIndex_keeps _ s

theorem storeBytes_keeps (a : Nat) (bs : List Byte) (s : State) : keepsAllBut [.memory] s (storeBytes a bs s) := by
  intro p hp
  cases p <;> simp_all [samePart, getV]

theorem pushReturn_keeps (a : Addr) (s : State) (h : s.sp.toNat < 16) :
    keepsAllBut [.stackSlots, .sp] s (pushReturn a s h) := by
  intro p hp
  cases p <;> simp_all [samePart, getV, readByte]

theorem dropReturn_keeps (s : State) : keepsAllBut [.sp] s (dropReturn s) := by
  intro p hp
  cases p <;> simp_all [samePart, getV, readByte]

theorem note_keeps (e : HostEvent) (s : State) : keepsAllBut [.trace] s (note e s) := by
  intro p hp
  cases p <;> simp_all [samePart, getV, readByte]

theorem useFresh_keeps (used : Bool) (s : State) : keepsAllBut [.fresh] s (useFresh used s) := by
  intro p hp
  cases p <;> simp_all [samePart, getV, readByte]

/-- Entering a fault (R236): only `running` and the trace change. -/
theorem raise_keeps (f : HwFault) (s : State) : keepsAllBut [.running, .trace] s (raise f s) := by
  intro p hp
  cases p <;> simp_all [samePart, getV, readByte]

theorem takeOp_keeps (s : State) : keepsAllBut [.ops] s (takeOp s) := by
  intro p hp
  cases p <;> simp_all [samePart, getV, readByte]

/-! Flags and results -/

theorem logicFlag_keeps (s : State) : keepsAllBut [.regs] s (logicFlag s) := by
  unfold logicFlag
  split
  · exact setV_keeps _ _ s
  · exact keepsAllBut_refl _ s

theorem setResultAndFlag_keeps (x : Reg) (r : Byte) (f : Bool) (s : State) :
    keepsAllBut [.regs] s (setResultAndFlag x r f s) :=
  keepsAllBut_trans (setV_keeps x r s) (setV_keeps 15 _ (setV x r s))

/-- The registers after a result and its flag: the flag is last, so it is what `VF` holds (R159). -/
theorem getV_setResultAndFlag (x q : Reg) (r : Byte) (f : Bool) (s : State) :
    getV (setResultAndFlag x r f s) q = if q = 15 then (if f then 1 else 0) else if q = x then r else getV s q := by
  simp [setResultAndFlag, getV_setV]

/-- The registers after the logic operations' flag rule. -/
theorem getV_logicFlag (q : Reg) (s : State) :
    getV (logicFlag s) q = if q = 15 ∧ s.quirks.vfReset = true then 0 else getV s q := by
  unfold logicFlag
  split
  · rename_i h
    simp [getV_setV, h]
  · rename_i h
    simp [h]

/-! The host's answers -/

/-- A reading of the clock is one of `CLOCK_BITS` bits (R205). -/
theorem nowAnswer_lt (s : State) : nowAnswer s < 2 ^ s.params.clockBits := Nat.mod_lt _ (Nat.two_pow_pos _)

theorem afterNow_keeps (s : State) : keepsAllBut [.hostTime, .clock, .fresh, .trace] s (afterNow s) := by
  intro p hp
  cases p <;> simp_all [samePart, getV, readByte, afterNow]

theorem afterRand_keeps (s : State) : keepsAllBut [.rands, .fresh, .trace] s (afterRand s) := by
  intro p hp
  cases p <;> simp_all [samePart, getV, readByte, afterRand]

theorem afterPoll_keeps (s : State) : keepsAllBut [.polls, .fresh, .trace] s (afterPoll s) := by
  intro p hp
  cases p <;> simp_all [samePart, getV, readByte, afterPoll]

theorem afterDrawPixel_keeps (c : Addr × Addr) (s : State) :
    keepsAllBut [.collisions, .fresh, .trace] s (afterDrawPixel c s) := by
  intro p hp
  cases p <;> simp_all [samePart, getV, readByte, afterDrawPixel]

@[simp] theorem afterNow_trace (s : State) : (afterNow s).trace = s.trace ++ [.now (nowAnswer s)] := rfl

@[simp] theorem afterRand_trace (s : State) : (afterRand s).trace = s.trace ++ [.rand (randAnswer s)] := rfl

@[simp] theorem afterPoll_trace (s : State) :
    (afterPoll s).trace = s.trace ++ [.poll s.callbacks.poll s.paused (pollAnswer s)] := rfl

@[simp] theorem afterDrawPixel_trace (c : Addr × Addr) (s : State) :
    (afterDrawPixel c s).trace =
      s.trace ++ [.drawPixel s.callbacks.drawPixel c.1 c.2 (collidedAnswer c s)] := rfl

/-- The lowest key of a bitmap with a key down is down. -/
theorem lowestKey_down {keys : BitVec 16} (h : keys ≠ 0) : keys.getLsbD (lowestKey keys).val = true := by
  unfold lowestKey
  cases hf : (List.finRange 16).find? (fun k => keys.getLsbD k.val) with
  | some k => simpa using List.find?_some hf
  | none =>
    exfalso
    apply h
    apply BitVec.eq_of_getLsbD_eq
    intro i hi
    have := List.find?_eq_none.mp hf ⟨i, hi⟩ (List.mem_finRange _)
    simpa using this

/-- The key a key-wait takes is down (R186). -/
theorem pickKey_down {s : State} (h : s.keys ≠ 0) : s.keys.getLsbD (pickKey s).val = true := by
  unfold pickKey
  split
  · assumption
  · exact lowestKey_down h

/-! Fetching -/

/-- A fetch answers the big-endian word at `pc` exactly where both bytes are in memory (R72, R74). -/
theorem fetchWord_eq_some {s : State} {op : Opcode} :
    fetchWord s = some op ↔
      s.pc.toNat + 1 ≤ 4095 ∧ op = wordOfBytes (readByte s s.pc.toNat) (readByte s (s.pc.toNat + 1)) := by
  have e := memSize_eq
  unfold fetchWord
  split
  · rename_i h
    have : s.pc.toNat + 1 ≤ 4095 := by rcases h with h | h <;> omega
    simp [this, eq_comm]
  · rename_i h
    have : ¬ s.pc.toNat + 1 ≤ 4095 := fun hc => h (.inr (by omega))
    simp [this]

/-- A fetch reads the parameters, `pc` and memory alone. -/
theorem fetchWord_congr {s t : State} (hp : t.params = s.params) (hpc : t.pc = s.pc) (hmem : t.mem = s.mem) :
    fetchWord t = fetchWord s := by
  simp [fetchWord, hpc, readByte, hp, hmem]

end Sys2Proof.Machine
end

