-- ==== Sys2Proof/Laws/Draw.lean ====
section
/-! SUPPORT. What plotting a list of cells does, and which cell a pixel plots (spec/45_draw.md). -/

namespace Sys2Proof.Machine

/-- A pixel's cell (R172): both coordinates wrapped, or the cell of a pixel inside the display. -/
theorem plotTarget_eq_some {wrap : Bool} {px py : Nat} {p : Addr × Addr} :
    plotTarget wrap px py = some p ↔
      if wrap = true then p.1.toNat = px % 64 ∧ p.2.toNat = py % 32
      else px < 64 ∧ py < 32 ∧ p.1.toNat = px ∧ p.2.toNat = py := by
  obtain ⟨a, b⟩ := p
  have e1 : Config.dispW = 64 := rfl
  have e2 : Config.dispH = 32 := rfl
  cases wrap
  · simp only [plotTarget, Bool.false_eq_true, if_false]
    by_cases h : px < Config.dispW ∧ py < Config.dispH
    · rw [if_pos h]
      rw [e1, e2] at h
      have h1 : px < 65536 := by omega
      have h2 : py < 65536 := by omega
      simp [h, BitVec.toNat_eq, eq_comm, BitVec.toNat_ofNat, Nat.mod_eq_of_lt h1, Nat.mod_eq_of_lt h2]
    · rw [if_neg h]
      simp only [reduceCtorEq, false_iff]
      exact fun hc => h ⟨hc.1, hc.2.1⟩
  · simp only [plotTarget, e1, e2, if_true]
    have : px % 64 < 65536 := by omega
    have : py % 32 < 65536 := by omega
    simp [BitVec.toNat_eq, BitVec.toNat_ofNat, Nat.mod_eq_of_lt, *, eq_comm]

/-- Plotting changes the host's part alone. -/
theorem plotAll_keeps (ps : List (Addr × Addr)) (s : State) :
    keepsAllBut [.collisions, .fresh, .trace] s (plotAll ps s).2 := by
  induction ps generalizing s with
  | nil => exact keepsAllBut_refl _ s
  | cons p ps ih => exact keepsAllBut_trans (afterDrawPixel_keeps p s) (ih _)

@[simp] theorem plotAll_v (ps : List (Addr × Addr)) (s : State) : (plotAll ps s).2.v = s.v := by
  induction ps generalizing s with
  | nil => rfl
  | cons p ps ih => exact (ih _).trans rfl

@[simp] theorem plotAll_mem (ps : List (Addr × Addr)) (s : State) : (plotAll ps s).2.mem = s.mem := by
  induction ps generalizing s with
  | nil => rfl
  | cons p ps ih => exact (ih _).trans rfl

/-- Plotting calls `DrawPixel` once for each cell, in order (R171); the result says whether some answer was a collision,
and the answers begin with the ones the state lists. -/
theorem plotAll_spec (ps : List (Addr × Addr)) (s : State) :
    ∃ answers : List Bool, answers.length = ps.length ∧ (plotAll ps s).1 = answers.any id ∧
      (plotAll ps s).2.trace = s.trace ++
        List.zipWith (fun p c => HostEvent.drawPixel s.callbacks.drawPixel p.1 p.2 c) ps answers ∧
      ∀ k, k < s.collisions.length → k < answers.length →
        answers.getD k false = s.collisions.getD k false := by
  induction ps generalizing s with
  | nil => exact ⟨[], rfl, rfl, by simp [plotAll], by simp⟩
  | cons p ps ih =>
    obtain ⟨as, h1, h2, h3, h4⟩ := ih (afterDrawPixel p s)
    refine ⟨collidedAnswer p s :: as, by simp [h1], by simp [plotAll, h2], ?_, ?_⟩
    · simp only [plotAll]
      rw [h3]
      simp [afterDrawPixel, note, useFresh, collidedAnswer]
    · intro k hk hk'
      cases k with
      | zero =>
        cases hc : s.collisions with
        | nil => simp [hc] at hk
        | cons c cs => simp [collidedAnswer, hc]
      | succ k =>
        have := h4 k (by simp [afterDrawPixel, note, useFresh]; omega) (by simpa using hk')
        simp only [List.getD_cons_succ]
        rw [this]
        simp [afterDrawPixel, note, useFresh, List.getD_eq_getElem?_getD, List.getElem?_tail]

end Sys2Proof.Machine
end

