-- ==== Sys2Proof/Laws/PerInstr.lean ====
section
/-! SUPPORT. A statement about every instruction as syntax, one lemma a constructor: its word belongs to a row of the opcode
table (spec/30_encoding.md R97, R100). -/

namespace Sys2Proof.Laws.EncodesInRow

/-- The instruction's word matches a row of the opcode table. -/
def Statement (i : Instr) : Prop := ∃ r ∈ opcodeRows, rowMatches r (encode i) = true

/-- The row is found by its number in the table, from 0. -/
theorem of_row {i : Instr} (k : Nat) {r : OpcodeRow} (hk : opcodeRows[k]? = some r)
    (hm : rowMatches r (encode i) = true) : Statement i := ⟨r, List.mem_of_getElem? hk, hm⟩

theorem cls : Statement .cls := of_row 0 rfl (by decide)

theorem ret : Statement .ret := of_row 1 rfl (by decide)

theorem jp (nnn : BitVec 12) : Statement (.jp nnn) :=
  of_row 2 rfl (match_F (fieldF_encNNN _ _))

theorem call (nnn : BitVec 12) : Statement (.call nnn) :=
  of_row 3 rfl (match_F (fieldF_encNNN _ _))

theorem seImm (x : Reg) (nn : Byte) : Statement (.seImm x nn) :=
  of_row 4 rfl (match_F (fieldF_encXNN _ _ _))

theorem sneImm (x : Reg) (nn : Byte) : Statement (.sneImm x nn) :=
  of_row 5 rfl (match_F (fieldF_encXNN _ _ _))

theorem seReg (x y : Reg) : Statement (.seReg x y) :=
  of_row 6 rfl (match_FN (fieldF_encXYN _ _ _ _) (fieldN_encXYN _ _ _ _))

theorem ldImm (x : Reg) (nn : Byte) : Statement (.ldImm x nn) :=
  of_row 7 rfl (match_F (fieldF_encXNN _ _ _))

theorem addImm (x : Reg) (nn : Byte) : Statement (.addImm x nn) :=
  of_row 8 rfl (match_F (fieldF_encXNN _ _ _))

theorem ldReg (x y : Reg) : Statement (.ldReg x y) :=
  of_row 9 rfl (match_FN (fieldF_encXYN _ _ _ _) (fieldN_encXYN _ _ _ _))

theorem orReg (x y : Reg) : Statement (.orReg x y) :=
  of_row 10 rfl (match_FN (fieldF_encXYN _ _ _ _) (fieldN_encXYN _ _ _ _))

theorem andReg (x y : Reg) : Statement (.andReg x y) :=
  of_row 11 rfl (match_FN (fieldF_encXYN _ _ _ _) (fieldN_encXYN _ _ _ _))

theorem xorReg (x y : Reg) : Statement (.xorReg x y) :=
  of_row 12 rfl (match_FN (fieldF_encXYN _ _ _ _) (fieldN_encXYN _ _ _ _))

theorem addReg (x y : Reg) : Statement (.addReg x y) :=
  of_row 13 rfl (match_FN (fieldF_encXYN _ _ _ _) (fieldN_encXYN _ _ _ _))

theorem subReg (x y : Reg) : Statement (.subReg x y) :=
  of_row 14 rfl (match_FN (fieldF_encXYN _ _ _ _) (fieldN_encXYN _ _ _ _))

theorem shr (x y : Reg) : Statement (.shr x y) :=
  of_row 15 rfl (match_FN (fieldF_encXYN _ _ _ _) (fieldN_encXYN _ _ _ _))

theorem subn (x y : Reg) : Statement (.subn x y) :=
  of_row 16 rfl (match_FN (fieldF_encXYN _ _ _ _) (fieldN_encXYN _ _ _ _))

theorem shl (x y : Reg) : Statement (.shl x y) :=
  of_row 17 rfl (match_FN (fieldF_encXYN _ _ _ _) (fieldN_encXYN _ _ _ _))

theorem sneReg (x y : Reg) : Statement (.sneReg x y) :=
  of_row 18 rfl (match_FN (fieldF_encXYN _ _ _ _) (fieldN_encXYN _ _ _ _))

theorem ldIndex (nnn : BitVec 12) : Statement (.ldIndex nnn) :=
  of_row 19 rfl (match_F (fieldF_encNNN _ _))

theorem jpV0 (nnn : BitVec 12) : Statement (.jpV0 nnn) :=
  of_row 20 rfl (match_F (fieldF_encNNN _ _))

theorem rnd (x : Reg) (nn : Byte) : Statement (.rnd x nn) :=
  of_row 21 rfl (match_F (fieldF_encXNN _ _ _))

theorem drw (x y : Reg) (n : BitVec 4) : Statement (.drw x y n) :=
  of_row 22 rfl (match_F (fieldF_encXYN _ _ _ _))

theorem skp (x : Reg) : Statement (.skp x) :=
  of_row 23 rfl (match_FNN (fieldF_encXNN _ _ _) (fieldNN_encXNN _ _ _))

theorem sknp (x : Reg) : Statement (.sknp x) :=
  of_row 24 rfl (match_FNN (fieldF_encXNN _ _ _) (fieldNN_encXNN _ _ _))

theorem ldVxDt (x : Reg) : Statement (.ldVxDt x) :=
  of_row 25 rfl (match_FNN (fieldF_encXNN _ _ _) (fieldNN_encXNN _ _ _))

theorem ldVxKey (x : Reg) : Statement (.ldVxKey x) :=
  of_row 26 rfl (match_FNN (fieldF_encXNN _ _ _) (fieldNN_encXNN _ _ _))

theorem ldDtVx (x : Reg) : Statement (.ldDtVx x) :=
  of_row 27 rfl (match_FNN (fieldF_encXNN _ _ _) (fieldNN_encXNN _ _ _))

theorem ldStVx (x : Reg) : Statement (.ldStVx x) :=
  of_row 28 rfl (match_FNN (fieldF_encXNN _ _ _) (fieldNN_encXNN _ _ _))

theorem addIndex (x : Reg) : Statement (.addIndex x) :=
  of_row 29 rfl (match_FNN (fieldF_encXNN _ _ _) (fieldNN_encXNN _ _ _))

theorem ldFont (x : Reg) : Statement (.ldFont x) :=
  of_row 30 rfl (match_FNN (fieldF_encXNN _ _ _) (fieldNN_encXNN _ _ _))

theorem ldBcd (x : Reg) : Statement (.ldBcd x) :=
  of_row 31 rfl (match_FNN (fieldF_encXNN _ _ _) (fieldNN_encXNN _ _ _))

theorem storeRegs (x : Reg) : Statement (.storeRegs x) :=
  of_row 32 rfl (match_FNN (fieldF_encXNN _ _ _) (fieldNN_encXNN _ _ _))

theorem loadRegs (x : Reg) : Statement (.loadRegs x) :=
  of_row 33 rfl (match_FNN (fieldF_encXNN _ _ _) (fieldNN_encXNN _ _ _))

end Sys2Proof.Laws.EncodesInRow
end

