-- ==== Sys2Proof/Laws/Scheduler.lean ====
section
/-! SUPPORT. What each activity of the scheduler may change, and everything a CPU step, a tick and a step can do, once
(spec/49_scheduler.md). -/

namespace Sys2Proof.Machine

/-! The activities -/

theorem stampIn_keeps (now : Time) (s : State) : keepsAllBut [.lastIn] s (stampIn now s) := by
  intro p hp
  cases p <;> simp_all [samePart, getV, readByte]

theorem stampTmr_keeps (now : Time) (s : State) : keepsAllBut [.lastTmr] s (stampTmr now s) := by
  intro p hp
  cases p <;> simp_all [samePart, getV, readByte]

theorem stampCpu_keeps (now : Time) (s : State) : keepsAllBut [.lastCpu] s (stampCpu now s) := by
  intro p hp
  cases p <;> simp_all [samePart, getV, readByte]

/-- The input poll (R210 to R214). -/
theorem inputPoll_keeps (s : State) :
    keepsAllBut [.keys, .paused, .running, .polls, .fresh, .trace] s (inputPoll s) := by
  unfold inputPoll
  split
  · exact keepsAllBut_seq (afterPoll_keeps s) (raise_keeps _ _)
  · intro p hp
    cases p <;> simp_all [samePart, getV, readByte, applyReport, afterPoll]

/-- The timer and display step (R206 to R208). -/
theorem timerStep_keeps (s : State) :
    keepsAllBut [.delay, .sound, .soundActive, .clearPending, .trace] s (timerStep s) := by
  unfold timerStep deliverClear
  split <;> intro p hp <;> cases p <;> simp_all [samePart, getV, readByte, callScreen]

/-- The input poll's turn of a tick. -/
theorem inputTurn_keeps (now : Time) (s : State) :
    keepsAllBut [.lastIn, .keys, .paused, .running, .polls, .fresh, .trace] s (inputTurn now s) := by
  unfold inputTurn
  split
  · exact keepsAllBut_seq (stampIn_keeps now s) (inputPoll_keeps _)
  · exact keepsAllBut_refl _ s

/-- The timer and display step's turn of a tick. -/
theorem timerTurn_keeps (now : Time) (s : State) :
    keepsAllBut [.lastTmr, .delay, .sound, .soundActive, .clearPending, .trace] s (timerTurn now s) := by
  unfold timerTurn
  split
  · exact keepsAllBut_seq (stampTmr_keeps now s) (timerStep_keeps _)
  · exact keepsAllBut_refl _ s

/-- Everything a tick does before the CPU step's turn: registers, `I`, `pc`, the stack, memory, the quirks, the callbacks,
`last_cpu` and the parameters are as before. -/
theorem beforeCpu_keeps (s : State) :
    keepsAllBut [.delay, .sound, .keys, .running, .paused, .clearPending, .soundActive, .lastIn, .lastTmr, .hostTime, .clock,
      .polls, .fresh, .trace] s (beforeCpu s) :=
  keepsAllBut_seq
    (keepsAllBut_seq (rs := [.keys, .running, .paused, .lastIn, .hostTime, .clock, .polls, .fresh, .trace])
      (afterNow_keeps s) (inputTurn_keeps (nowAnswer s) _))
    (timerTurn_keeps (nowAnswer s) _)

@[simp] theorem afterNow_mem (s : State) : (afterNow s).mem = s.mem := rfl

@[simp] theorem afterNow_params (s : State) : (afterNow s).params = s.params := rfl

@[simp] theorem afterNow_v (s : State) : (afterNow s).v = s.v := rfl

@[simp] theorem inputTurn_mem (now : Time) (s : State) : (inputTurn now s).mem = s.mem := by
  unfold inputTurn inputPoll
  split <;> [split; skip] <;> rfl

@[simp] theorem inputTurn_params (now : Time) (s : State) : (inputTurn now s).params = s.params := by
  unfold inputTurn inputPoll
  split <;> [split; skip] <;> rfl

@[simp] theorem inputTurn_v (now : Time) (s : State) : (inputTurn now s).v = s.v := by
  unfold inputTurn inputPoll
  split <;> [split; skip] <;> rfl

@[simp] theorem timerTurn_mem (now : Time) (s : State) : (timerTurn now s).mem = s.mem := by
  unfold timerTurn timerStep deliverClear
  split <;> [split; skip] <;> rfl

@[simp] theorem timerTurn_params (now : Time) (s : State) : (timerTurn now s).params = s.params := by
  unfold timerTurn timerStep deliverClear
  split <;> [split; skip] <;> rfl

@[simp] theorem timerTurn_v (now : Time) (s : State) : (timerTurn now s).v = s.v := by
  unfold timerTurn timerStep deliverClear
  split <;> [split; skip] <;> rfl

@[simp] theorem beforeCpu_mem (s : State) : (beforeCpu s).mem = s.mem := by
  simp [beforeCpu]

@[simp] theorem beforeCpu_params (s : State) : (beforeCpu s).params = s.params := by
  simp [beforeCpu]

@[simp] theorem beforeCpu_v (s : State) : (beforeCpu s).v = s.v := by
  simp [beforeCpu]

/-- No activity starts a run. -/
theorem inputTurn_running {now : Time} {s : State} (h : (inputTurn now s).running = true) : s.running = true := by
  unfold inputTurn at h
  split at h
  · rename_i hc
    simp_all
  · exact h

@[simp] theorem timerTurn_running (now : Time) (s : State) : (timerTurn now s).running = s.running :=
  timerTurn_keeps now s .running (by decide)

theorem beforeCpu_running {s : State} (h : (beforeCpu s).running = true) : s.running = true := by
  simp only [beforeCpu, timerTurn_running] at h
  exact show (afterNow s).running = true from inputTurn_running h

/-! The clock -/

/-- No time has passed since the reading itself (R205). -/
theorem clockDelta_self (bits now : Nat) : clockDelta bits now now = 0 := by
  unfold clockDelta
  have hM := Nat.two_pow_pos bits
  generalize 2 ^ bits = M at *
  have h1 := Nat.div_add_mod now M
  have h2 := Nat.mod_lt now hM
  rw [show now + M - now % M = M * (now / M) + M by omega, Nat.add_mod_right, Nat.mul_mod_right]

/-- So an activity with a period is not due at the reading that stamped it. -/
theorem due_self {bits now period : Nat} (h : 0 < period) : due bits now now period = false := by
  simp only [due, clockDelta_self, decide_eq_false_iff_not]
  omega

@[simp] theorem afterNow_hostTime (s : State) : (afterNow s).hostTime = s.hostTime + elapsedAnswer s := rfl

/-! The states after a load -/

theorem unspecify_mem (s : State) : (unspecify s).mem = unspecifiedMemory s.params s.fresh := by
  simp only [unspecify]

theorem unspecify_running (s : State) : (unspecify s).running = s.running := by
  simp only [unspecify, useFresh_running]

theorem unspecify_trace (s : State) : (unspecify s).trace = s.trace := by
  simp only [unspecify, useFresh_trace]

theorem loaded_mem (r : LoadRequest) (now : Time) (s : State) :
    (loaded r now s).mem = loadedMemory s.params (r.program.take r.length) := rfl

/-! The steps' cases -/

/-- Everything a CPU step can do when it answers a next state (R215, R234). -/
theorem executeOne_cases {s t : State} (h : executeOne s = .next t) :
    (∃ op, fetchWord s = some op ∧ decodeWordWith s.params.has8xy7 op = none ∧ t = raise (.unknownOpcode op s.pc) s) ∨
    ∃ op i, fetchWord s = some op ∧ decodeWordWith s.params.has8xy7 op = some i ∧ exec i s = .next t := by
  unfold executeOne at h
  split at h
  · cases h
  · rename_i op hf
    split at h
    · rename_i hd
      simp only [Host.Outcome.next.injEq] at h
      exact .inl ⟨op, hf, hd, h.symm⟩
    · rename_i i hd
      exact .inr ⟨op, i, hf, hd, h⟩

/-- Everything a tick can do when it answers a next state (R200, R201). -/
theorem tick_cases {s t : State} (h : tick s = .next t) :
    (s.running = false ∧ t = s) ∨
    (s.running = true ∧ cpuFires (nowAnswer s) (beforeCpu s) = false ∧ t = beforeCpu s) ∨
    (s.running = true ∧ cpuFires (nowAnswer s) (beforeCpu s) = true ∧
      executeOne (stampCpu (nowAnswer s) (beforeCpu s)) = .next t) := by
  unfold tick at h
  split at h
  · rename_i hr
    unfold cpuTurn at h
    split at h
    · rename_i hf
      exact .inr (.inr ⟨hr, hf, h⟩)
    · rename_i hf
      simp only [Host.Outcome.next.injEq] at h
      exact .inr (.inl ⟨hr, by simpa using hf, h.symm⟩)
  · rename_i hr
    simp only [Host.Outcome.next.injEq] at h
    exact .inl ⟨by simpa using hr, h.symm⟩

/-- Everything a load can do when it answers a next state (R231, R270). -/
theorem loadAndRun_cases {r : LoadRequest} {s t : State} (h : loadAndRun r s = .next t) :
    (r.length > programCapacity s.params ∧ t = unspecify (raise (.romTooLarge r.length) s)) ∨
    (r.length ≤ programCapacity s.params ∧ r.length ≤ r.program.length ∧ t = loaded r (nowAnswer s) (afterNow s)) := by
  unfold loadAndRun at h
  split at h
  · rename_i hl
    simp only [Host.Outcome.next.injEq] at h
    exact .inl ⟨hl, h.symm⟩
  · rename_i hl
    split at h
    · cases h
    · rename_i hb
      simp only [Host.Outcome.next.injEq] at h
      exact .inr ⟨by omega, by omega, h.symm⟩

/-- Everything a step can do when it answers a next state: one operation of the host (R19). -/
theorem step_cases {s t : State} (h : step s = .next t) :
    (∃ r, nextOp s = .load r ∧ loadAndRun r (takeOp s) = .next t) ∨
    (nextOp s = .tick ∧ tick (takeOp s) = .next t) ∨
    (nextOp s = .isRunning ∧ t = note (.runningIs s.running) (takeOp s)) ∨
    (nextOp s = .readSoundActive ∧ t = note (.soundActiveIs s.soundActive) (takeOp s)) := by
  unfold step perform at h
  split at h
  · rename_i r hn
    exact .inl ⟨r, hn, h⟩
  · rename_i hn
    exact .inr (.inl ⟨hn, h⟩)
  · rename_i hn
    simp only [Host.Outcome.next.injEq] at h
    exact .inr (.inr (.inl ⟨hn, h.symm⟩))
  · rename_i hn
    simp only [Host.Outcome.next.injEq] at h
    exact .inr (.inr (.inr ⟨hn, h.symm⟩))

end Sys2Proof.Machine
end

