-- ==== Sys2Proof/Tests/Slice0.lean ====
section
/-! SUPPORT. The model's own tests: the well-formedness check refuses, each row of the opcode table decodes from a word
written out bit by bit from spec/opcode_table.json, single steps against the vectors of spec/95_test_vectors.md (named by their
numbers), and a witness for each statement that has hypotheses, with its clauses at their boundary values. -/

open Sys2Proof Sys2Proof.Machine

namespace Sys2Proof.Tests

/-! ### Helpers -/

/-- What a test looks at in the next state, if there is one. -/
def seen {A : Type} (f : State → A) : Host.Outcome State Fault Refusal → Option A
  | .next t => some (f t)
  | _ => none

/-- The fault the model stopped with, if it did. -/
def stop : Host.Outcome State Fault Refusal → Option Fault
  | .fault r => some r
  | _ => none

/-- The reset state with some registers written. -/
def regs (l : List (Reg × Byte)) : State := l.foldl (fun s p => setV p.1 p.2 s) State.reset

/-- One step that fetches and runs a word. -/
def run (w : Nat) (s : State) : Host.Outcome State Fault Refusal := step (s.withFetchWord 16 w)

/-- The state the step of a word runs its instruction on is the placed one with the tick's reading noted. -/
def calls (t : State) : List HostEvent := t.trace.drop 1

/-- A `DrawPixel` event through callback 0. -/
def px (x y : Addr) (c : Bool) : HostEvent := .drawPixel 0 x y c

/-- A load of a buffer. -/
def loadOf (program : List Byte) (length : Nat) : LoadRequest :=
  ⟨program, length, ⟨1, 2, 3⟩, #v[true, false, true, false]⟩

/-! ### Well-formedness -/

/-- The one check: without `8XY7` the set has no `SUBN` (R10, R157). -/
theorem test_wellFormed_refuses_subn : Instr.wellFormedWith false (.subn 1 2) = false := by decide

theorem test_wellFormed_accepts_subn : Instr.wellFormedWith true (.subn 1 2) = true := by decide

/-! ### Decoding, each row of the table -/

theorem test_decode_cls : decodeWord 0b0000000011100000 = some .cls := by decide

theorem test_decode_ret : decodeWord 0b0000000011101110 = some .ret := by decide

theorem test_decode_jp : decodeWord 0b0001011111110001 = some (.jp 0x7F1) := by decide

theorem test_decode_call : decodeWord 0b0010111000001101 = some (.call 0xE0D) := by decide

theorem test_decode_seImm : decodeWord 0b0011101001000010 = some (.seImm 0xA 0x42) := by decide

theorem test_decode_sneImm : decodeWord 0b0100000110110111 = some (.sneImm 0x1 0xB7) := by decide

theorem test_decode_seReg : decodeWord 0b0101111100100000 = some (.seReg 0xF 0x2) := by decide

theorem test_decode_ldImm : decodeWord 0b0110001111101000 = some (.ldImm 0x3 0xE8) := by decide

theorem test_decode_addImm : decodeWord 0b0111101001000010 = some (.addImm 0xA 0x42) := by decide

theorem test_decode_ldReg : decodeWord 0b1000000111100000 = some (.ldReg 0x1 0xE) := by decide

theorem test_decode_orReg : decodeWord 0b1000111100100001 = some (.orReg 0xF 0x2) := by decide

theorem test_decode_andReg : decodeWord 0b1000001111000010 = some (.andReg 0x3 0xC) := by decide

theorem test_decode_xorReg : decodeWord 0b1000101001010011 = some (.xorReg 0xA 0x5) := by decide

theorem test_decode_addReg : decodeWord 0b1000000111100100 = some (.addReg 0x1 0xE) := by decide

theorem test_decode_subReg : decodeWord 0b1000111100100101 = some (.subReg 0xF 0x2) := by decide

theorem test_decode_shr : decodeWord 0b1000001111000110 = some (.shr 0x3 0xC) := by decide

theorem test_decode_subn : decodeWord 0b1000101001010111 = some (.subn 0xA 0x5) := by decide

theorem test_decode_shl : decodeWord 0b1000000111101110 = some (.shl 0x1 0xE) := by decide

theorem test_decode_sneReg : decodeWord 0b1001111100100000 = some (.sneReg 0xF 0x2) := by decide

theorem test_decode_ldIndex : decodeWord 0b1010111000001101 = some (.ldIndex 0xE0D) := by decide

theorem test_decode_jpV0 : decodeWord 0b1011101010111100 = some (.jpV0 0xABC) := by decide

theorem test_decode_rnd : decodeWord 0b1100000110110111 = some (.rnd 0x1 0xB7) := by decide

theorem test_decode_drw : decodeWord 0b1101111100101100 = some (.drw 0xF 0x2 0xC) := by decide

theorem test_decode_skp : decodeWord 0b1110001110011110 = some (.skp 0x3) := by decide

theorem test_decode_sknp : decodeWord 0b1110101010100001 = some (.sknp 0xA) := by decide

theorem test_decode_ldVxDt : decodeWord 0b1111000100000111 = some (.ldVxDt 0x1) := by decide

theorem test_decode_ldVxKey : decodeWord 0b1111111100001010 = some (.ldVxKey 0xF) := by decide

theorem test_decode_ldDtVx : decodeWord 0b1111001100010101 = some (.ldDtVx 0x3) := by decide

theorem test_decode_ldStVx : decodeWord 0b1111101000011000 = some (.ldStVx 0xA) := by decide

theorem test_decode_addIndex : decodeWord 0b1111000100011110 = some (.addIndex 0x1) := by decide

theorem test_decode_ldFont : decodeWord 0b1111111100101001 = some (.ldFont 0xF) := by decide

theorem test_decode_ldBcd : decodeWord 0b1111001100110011 = some (.ldBcd 0x3) := by decide

theorem test_decode_storeRegs : decodeWord 0b1111101001010101 = some (.storeRegs 0xA) := by decide

theorem test_decode_loadRegs : decodeWord 0b1111000101100101 = some (.loadRegs 0x1) := by decide

/-! ### Words that decode to nothing (E-7) -/

theorem test_undecoded_family_0 :
    [0x0000, 0x0123, 0x00E1, 0x01E0, 0x0EE0, 0x00FD].all (fun op => (decodeWord op).isNone) = true := by
  decide

theorem test_undecoded_other_families :
    [0x5121, 0x912F, 0x8128, 0x812F, 0xE29F, 0xE000, 0xF000, 0xF130, 0xF275].all
      (fun op => (decodeWord op).isNone) = true := by
  decide

theorem test_decodeTableWord_rejects :
    decodeTableWord 16 0x00E1 = none := by
  decide

theorem test_decodeTableWord_reads_high_byte_first :
    decodeTableWord 16 0x6A42 = some (.ldImm 0xA 0x42) := by
  decide

/-! ### Load (L-1 to L-4) and the power-on state -/

theorem test_load_L1 :
    seen (fun t => (t.pc, t.running, readByte t 0x200, readByte t 0x201, readByte t 0x202, t.lastCpu))
      (loadAndRun (loadOf [0x6A, 0x42] 2) { State.reset with clock := [1000] }) =
    some (0x200, true, 0x6A, 0x42, 0, 1000) := by
  decide

theorem test_load_quirks_L1 :
    seen (fun t => t.quirks) (loadAndRun (loadOf [0x6A, 0x42] 2) State.reset) =
    some ⟨true, false, true, false⟩ := by
  decide

theorem test_load_L4 :
    seen (fun t => (t.pc, t.running)) (loadAndRun (loadOf [] 0) State.reset) = some (0x200, true) := by
  decide

/-- L-3: nothing but the halt and the report may be read. -/
theorem test_load_L3 :
    seen (fun t => (t.running, t.trace)) (loadAndRun (loadOf [] 3585) State.reset) =
      some (false, [.report (.romTooLarge 3585)]) := rfl

theorem test_powerOn_halted : powerOn.running = false := rfl

theorem test_load_short_buffer :
    stop (loadAndRun (loadOf [0x6A] 2) State.reset) = some .hostContract := by
  decide

/-! ### Family 0, jump, call (F-1 to F-11) -/

theorem test_cls_F1 :
    seen (fun t => (t.clearPending, t.pc, calls t)) (run 0x00E0 State.reset) = some (true, 0x202, []) := by
  decide

theorem test_ret_F3 :
    seen (fun t => (t.sp, t.pc, t.stack[0]))
      (run 0x00EE { State.reset with sp := 1, stack := State.reset.stack.set 0 0x206 }) = some (0, 0x206, 0x206) := by
  decide

theorem test_ret_F5 :
    seen (fun t => (t.sp, t.pc, t.running, calls t)) (run 0x00EE State.reset) =
    some (0, 0x200, false, [.report (.stackUnderflow 0x200)]) := by
  decide

theorem test_jp_F6 :
    seen (fun t => t.pc) (run 0x120C { State.reset with pc := 0x20A }) = some 0x20C := by
  decide

theorem test_call_F10 :
    seen (fun t => (t.sp, t.pc, t.stack[15])) (run 0x2ABC { State.reset with pc := 0x300, sp := 15 }) =
    some (16, 0xABC, 0x302) := by
  decide

theorem test_call_F11 :
    seen (fun t => (t.sp, t.pc, t.running, calls t)) (run 0x2ABC { State.reset with pc := 0x300, sp := 16 }) =
    some (16, 0x300, false, [.report (.stackOverflow 0x300)]) := by
  decide

/-! ### Skips (J-1 to J-13) -/

theorem test_seImm_J1_J2 :
    (seen (fun t => t.pc) (run 0x3A42 (regs [(0xA, 0x42)])), seen (fun t => t.pc) (run 0x3A42 (regs [(0xA, 0x41)]))) =
    (some 0x204, some 0x202) := by
  decide

theorem test_seImm_J13 :
    seen (fun t => t.pc) (run 0x3000 { State.reset with pc := 0xFFC }) = some 0x1000 := by
  decide

theorem test_sneImm_J3_J4 :
    (seen (fun t => t.pc) (run 0x4A42 (regs [(0xA, 0x42)])), seen (fun t => t.pc) (run 0x4A42 (regs [(0xA, 0x41)]))) =
    (some 0x202, some 0x204) := by
  decide

theorem test_seReg_J5_J6 :
    (seen (fun t => t.pc) (run 0x5120 (regs [(1, 7), (2, 7)])), seen (fun t => t.pc) (run 0x5120 (regs [(1, 7), (2, 8)]))) =
    (some 0x204, some 0x202) := by
  decide

theorem test_sneReg_J8_J9 :
    (seen (fun t => t.pc) (run 0x9120 (regs [(1, 7), (2, 8)])), seen (fun t => t.pc) (run 0x9120 (regs [(1, 7), (2, 7)]))) =
    (some 0x204, some 0x202) := by
  decide

/-! ### Immediates (I-1 to I-6) -/

theorem test_ldImm_I1 :
    seen (fun t => (getV t 0xA, t.pc)) (run 0x6A42 State.reset) = some (0x42, 0x202) := by
  decide

theorem test_addImm_I3 :
    seen (fun t => (getV t 1, getV t 15)) (run 0x7101 (regs [(1, 0xFF)])) = some (0, 0) := by
  decide

theorem test_addImm_I6 :
    seen (fun t => getV t 15) (run 0x7F02 (regs [(15, 0xFF)])) = some 0x01 := by
  decide

/-! ### ALU (A-1 to A-27) -/

theorem test_ldReg_A1 :
    seen (fun t => (getV t 1, getV t 15)) (run 0x8120 (regs [(2, 0x9C), (15, 5)])) = some (0x9C, 5) := by
  decide

theorem test_orReg_A2_A3 :
    (seen (fun t => (getV t 1, getV t 15)) (run 0x8121 { regs [(1, 0xF0), (2, 0x0F), (15, 1)] with quirks := ⟨true, false, false, false⟩ }),
      seen (fun t => (getV t 1, getV t 15)) (run 0x8121 (regs [(1, 0xF0), (2, 0x0F), (15, 1)]))) = (some (0xFF, 0), some (0xFF, 1)) := by
  decide

theorem test_orReg_A6 :
    (seen (fun t => getV t 15) (run 0x8F11 { regs [(15, 0xF0), (1, 0x0F)] with quirks := ⟨true, false, false, false⟩ }), seen (fun t => getV t 15) (run 0x8F11 (regs [(15, 0xF0), (1, 0x0F)]))) =
    (some 0, some 0xFF) := by
  decide

theorem test_andReg_A4 :
    (seen (fun t => (getV t 1, getV t 15)) (run 0x8122 { regs [(1, 0xF3), (2, 0x3C), (15, 1)] with quirks := ⟨true, false, false, false⟩ }),
      seen (fun t => (getV t 1, getV t 15)) (run 0x8122 (regs [(1, 0xF3), (2, 0x3C), (15, 1)]))) = (some (0x30, 0), some (0x30, 1)) := by
  decide

theorem test_xorReg_A5 :
    (seen (fun t => (getV t 1, getV t 15)) (run 0x8123 { regs [(1, 0xFF), (2, 0x0F), (15, 1)] with quirks := ⟨true, false, false, false⟩ }),
      seen (fun t => (getV t 1, getV t 15)) (run 0x8123 (regs [(1, 0xFF), (2, 0x0F), (15, 1)]))) = (some (0xF0, 0), some (0xF0, 1)) := by
  decide

theorem test_addReg_A7 :
    seen (fun t => (getV t 0, getV t 15)) (run 0x8014 (regs [(0, 0xFF), (1, 1)])) = some (0, 1) := by
  decide

theorem test_addReg_A11b :
    seen (fun t => getV t 15) (run 0x8F14 (regs [(15, 5), (1, 3)])) = some 0 := by
  decide

theorem test_subReg_A13_A15 :
    (seen (fun t => (getV t 0, getV t 15)) (run 0x8015 (regs [(0, 1), (1, 2)])),
      seen (fun t => (getV t 0, getV t 15)) (run 0x8015 (regs [(0, 5), (1, 5)]))) = (some (0xFF, 0), some (0, 1)) := by
  decide

theorem test_subReg_A17 :
    seen (fun t => getV t 15) (run 0x8F15 (regs [(15, 5), (1, 3)])) = some 1 := by
  decide

theorem test_shr_A20_A21 :
    (seen (fun t => (getV t 1, getV t 15, getV t 2)) (run 0x8126 { regs [(1, 4), (2, 7)] with quirks := ⟨false, true, false, false⟩ }),
      seen (fun t => (getV t 1, getV t 15, getV t 2)) (run 0x8126 (regs [(1, 4), (2, 7)]))) = (some (2, 0, 7), some (3, 1, 7)) := by
  decide

theorem test_shr_A23 :
    seen (fun t => getV t 15) (run 0x8F26 { regs [(15, 3)] with quirks := ⟨false, true, false, false⟩ }) = some 1 := by
  decide

theorem test_subn_A18_A19 :
    (seen (fun t => (getV t 0, getV t 15)) (run 0x8017 (regs [(0, 1), (1, 3)])),
      seen (fun t => (getV t 0, getV t 15)) (run 0x8017 (regs [(0, 2), (1, 1)]))) = (some (2, 1), some (0xFF, 0)) := by
  decide

theorem test_subn_A19b :
    seen (fun t => (getV t 0, getV t 15)) (run 0x8017 (regs [(0, 7), (1, 7)])) = some (0, 1) := by
  decide

theorem test_shl_A24_A25 :
    (seen (fun t => (getV t 1, getV t 15)) (run 0x812E { regs [(1, 0x81), (2, 0x40)] with quirks := ⟨false, true, false, false⟩ }),
      seen (fun t => (getV t 1, getV t 15)) (run 0x812E (regs [(1, 0x81), (2, 0x40)]))) = (some (0x02, 1), some (0x80, 0)) := by
  decide

/-! ### Load index, indexed jump, random (X-1 to X-10) -/

theorem test_ldIndex_X1 :
    seen (fun t => (t.index, t.pc)) (run 0xA300 State.reset) = some (0x300, 0x202) := by
  decide

theorem test_jpV0_X4 :
    seen (fun t => t.pc) (run 0xB2F0 (regs [(2, 0x10)])) = some 0x2F0 := by
  decide

theorem test_jpV0_X5 :
    seen (fun t => t.pc) (run 0xBFFF (regs [(0, 0xFF)])) = some 0x10FE := by
  decide

theorem test_rnd_X6 :
    seen (fun t => (getV t 1, calls t)) (run 0xC10F { State.reset with rands := [0xB7] }) =
    some (0x07, [.rand 0xB7]) := by
  decide

/-- X-7: with no draw listed the step runs on a free value. -/
theorem test_rnd_X7 :
    seen (fun t => t.pc) (run 0xC100 State.reset) = some 0x202 := by
  decide

/-! ### Draw (D-1 to D-14) -/

theorem test_drw_D1 :
    seen (fun t => (calls t, getV t 15))
      (run 0xD121 (storeBytes 0x210 [0xC0] { regs [(1, 10), (2, 5)] with index := 0x210, collisions := [false, false] })) =
    some ([px 10 5 false, px 11 5 false, .screen 0 false true], 0) := by
  decide

theorem test_drw_D13 :
    seen (fun t => (calls t, getV t 15))
      (run 0xDF21 (storeBytes 0x210 [0x80] { regs [(15, 5)] with index := 0x210, collisions := [false] })) =
    some ([px 5 0 false, .screen 0 false true], 0) := by
  decide

theorem test_drw_targets_D3 :
    drawTargets 1 2 5 (storeBytes 0x210 [0xF0, 0x80, 0xF0, 0x10, 0xF0] { regs [(1, 62), (2, 30)] with index := 0x210 }) = [(62, 30), (63, 30), (62, 31)] := by
  decide

theorem test_drw_targets_D4 :
    drawTargets 1 2 5 { storeBytes 0x210 [0xF0, 0x80, 0xF0, 0x10, 0xF0] { regs [(1, 62), (2, 30)] with index := 0x210 } with quirks := ⟨false, false, true, false⟩ } =
    [(62, 30), (63, 30), (0, 30), (1, 30), (62, 31), (62, 0), (63, 0), (0, 0), (1, 0), (1, 1), (62, 2), (63, 2), (0, 2),
      (1, 2)] := by
  decide

/-! ### Keys (Y-1 to Y-8) -/

theorem test_skp_Y1_Y6 :
    (seen (fun t => t.pc) (run 0xE29E { regs [(2, 5)] with pc := 0x220, keys := 0x0020 }), seen (fun t => t.pc) (run 0xE29E { regs [(2, 5)] with pc := 0x220, keys := 0xFFDF })) =
    (some 0x224, some 0x222) := by
  decide

theorem test_skp_Y8 :
    seen (fun t => (t.pc, t.running, calls t)) (run 0xE29E { regs [(2, 0x15)] with pc := 0x220, keys := 0x0020 }) =
    some (0x220, false, [.report (.invalidKeyIndex 0x15 (some 0x220))]) := by
  decide

theorem test_sknp_Y3_Y4 :
    (seen (fun t => t.pc) (run 0xE2A1 { regs [(2, 5)] with pc := 0x220, keys := 0x0000 }), seen (fun t => t.pc) (run 0xE2A1 { regs [(2, 5)] with pc := 0x220, keys := 0x0020 })) =
    (some 0x224, some 0x222) := by
  decide

theorem test_sknp_Y7 :
    seen (fun t => (t.pc, t.running, calls t)) (run 0xE2A1 { regs [(2, 0x10)] with pc := 0x220 }) =
    some (0x220, false, [.report (.invalidKeyIndex 0x10 (some 0x220))]) := by
  decide

/-! ### Family F (M-1 to M-27) -/

theorem test_ldVxDt_M1 :
    seen (fun t => (getV t 3, t.delay)) (run 0xF307 { State.reset with delay := 0x2A }) = some (0x2A, 0x2A) := by
  decide

theorem test_ldVxKey_M2 :
    seen (fun t => (t.pc, getV t 5)) (run 0xF50A { regs [(5, 0xEE)] with pc := 0x230 }) = some (0x230, 0xEE) := by
  decide

/-- M-3: with one key down whichever choice gives that key. -/
theorem test_ldVxKey_M3 :
    seen (fun t => (t.pc, t.keys)) (run 0xF50A { State.reset with pc := 0x230, keys := 0x0080 }) =
      some (0x232, 0x0080) := rfl

theorem test_ldDtVx_M6 :
    seen (fun t => t.delay) (run 0xF315 (regs [(3, 0x3C)])) = some 0x3C := by
  decide

theorem test_ldStVx_M7 :
    seen (fun t => (t.sound, t.soundActive)) (run 0xF318 (regs [(3, 5)])) = some (5, false) := by
  decide

theorem test_addIndex_M8_M12 :
    (seen (fun t => (t.index, getV t 15)) (run 0xF11E { regs [(1, 3)] with index := 0xFFE }),
      seen (fun t => (t.index, getV t 15)) (run 0xF11E { regs [(1, 0)] with index := 0x1000 })) = (some (1, 1), some (0, 1)) := by
  decide

theorem test_addIndex_M13 :
    seen (fun t => (t.index, getV t 15)) (run 0xFF1E { regs [(15, 1)] with index := 0x100 }) = some (0x101, 0) := by
  decide

/-- M-15: the last glyph, wherever the font stands. -/
theorem test_ldFont_M15 :
    seen (fun t => t.index) (run 0xF029 (regs [(0, 0x0F)])) = some (BitVec.ofNat 16 (Config.params.fontBase + 75)) := rfl

theorem test_ldFont_M16 :
    stop (run 0xF029 (regs [(0, 0x10)])) = some .fontIndexRange := by
  decide

theorem test_ldBcd_M17 :
    seen (fun t => (readByte t 0x300, readByte t 0x301, readByte t 0x302))
      (run 0xF033 { regs [(0, 0xFE)] with index := 0x300 }) = some (2, 5, 4) := by
  decide

theorem test_ldBcd_M20 :
    stop (run 0xF033 { State.reset with index := 0xFFE }) = some .memOutOfRange := by
  decide

theorem test_storeRegs_M22 :
    seen (fun t => (readByte t 0x400, readByte t 0x401, readByte t 0x402, readByte t 0x403, t.index))
      (run 0xF255 { regs [(0, 0x11), (1, 0x22), (2, 0x33)] with index := 0x400, quirks := ⟨false, false, false, true⟩ }) =
    some (0x11, 0x22, 0x33, 0, 0x403) := by
  decide

theorem test_storeRegs_M24_M25 :
    (seen (fun t => (readByte t 0xFFF, t.index))
        (run 0xFF55 { regs [(15, 9)] with index := 0xFF0, quirks := ⟨false, false, false, true⟩ }),
      stop (run 0xFF55 { State.reset with index := 0xFF1 })) = (some (9, 0x1000), some .memOutOfRange) := by
  decide

theorem test_loadRegs_M26 :
    seen (fun t => (getV t 0, getV t 1, getV t 2, getV t 3, t.index))
      (run 0xF265 (storeBytes 0x300 [2, 5, 4] { regs [(3, 0x77)] with index := 0x300 })) =
    some (2, 5, 4, 0x77, 0x300) := by
  decide

theorem test_loadRegs_M25 :
    stop (run 0xFF65 { State.reset with index := 0xFF1 }) = some .memOutOfRange := by
  decide

/-! ### Fetch (E-3 to E-6) -/

theorem test_fetch_E3 :
    seen (fun t => (getV t 0, t.pc)) (run 0x6007 { State.reset with pc := 0x201 }) = some (7, 0x203) := by
  decide

theorem test_fetch_E4_E5 :
    (seen (fun t => t.pc) (run 0x1200 { State.reset with pc := 0xFFE }),
      stop (executeOne { State.reset with pc := 0xFFF }), stop (executeOne { State.reset with pc := 0x1000 })) =
    (some 0x200, some .memOutOfRange, some .memOutOfRange) := by
  decide

theorem test_unknown_F7 :
    seen (fun t => (t.pc, t.running, calls t)) (run 0x0000 State.reset) =
    some (0x200, false, [.report (.unknownOpcode 0 0x200)]) := by
  decide

/-! ### Timer step (T-1 to T-6) -/

theorem test_timer_T1 :
    (fun t : State => (t.delay, t.sound, t.soundActive, t.trace))
      (timerStep { State.reset with delay := 3, sound := 1, soundActive := true }) = (2, 0, false, []) := by
  decide

theorem test_timer_T5_T6 :
    (fun t : State => (t.clearPending, t.trace, t.soundActive))
      (timerStep { State.reset with clearPending := true, soundActive := true }) =
    (false, [.screen 0 true false], false) := by
  decide

/-! ### Input poll (P-1 to P-9) -/

theorem test_poll_P1 :
    (fun t : State => (t.keys, t.paused, t.running))
      (inputPoll { State.reset with keys := 0, polls := [⟨3, true, false, false⟩] }) = (0x0008, false, true) := by
  decide

theorem test_poll_P2 :
    (fun t : State => (t.keys, t.paused, t.running))
      (inputPoll { State.reset with keys := 8, polls := [⟨3, false, false, false⟩] }) = (0, false, true) := by
  decide

theorem test_poll_P4 :
    (fun t : State => (t.keys, t.paused, t.running))
      (inputPoll { State.reset with keys := 8, polls := [⟨255, true, true, false⟩] }) = (8, true, true) := by
  decide

theorem test_poll_P7 :
    (fun t : State => (t.keys, t.paused, t.running))
      (inputPoll { State.reset with keys := 0, polls := [⟨7, true, true, true⟩] }) = (0x0080, true, false) := by
  decide

theorem test_poll_P8 :
    (fun t : State => (t.keys, t.paused, t.running))
      (inputPoll { State.reset with keys := 1, polls := [⟨16, true, true, false⟩] }) = (1, false, false) := by
  decide

/-! ### Scheduler (K-2 to K-11) -/

/-- A running block at `JP 0x200` with all timestamps 1000, the next reading and report given. -/
def idle (now : Time) (report : PollReport) : State :=
  { State.reset with
    lastIn := 1000, lastTmr := 1000, lastCpu := 1000, mem := [(0x200, 0x12)], hostTime := 1000, clock := [now - 1000],
    polls := [report] }

theorem test_tick_K2_K3 :
    (seen (fun t => (t.lastIn, t.lastTmr, t.lastCpu)) (tick (idle 1001 ⟨255, false, false, false⟩)), seen (fun t => (t.lastIn, t.lastTmr, t.lastCpu)) (tick (idle 1002 ⟨255, false, false, false⟩))) =
    (some (1000, 1000, 1000), some (1002, 1000, 1002)) := by
  decide

theorem test_tick_K4 :
    seen (fun t => (t.lastIn, t.lastTmr, t.lastCpu)) (tick (idle 1017 ⟨255, false, false, false⟩)) = some (1017, 1017, 1017) := by
  decide

theorem test_tick_K5 :
    seen (fun t => (t.lastIn, t.lastTmr, t.lastCpu)) (tick { idle 1017 ⟨255, false, true, false⟩ with paused := true }) =
    some (1017, 1017, 1000) := by
  decide

theorem test_tick_K6 :
    seen (fun t => (t.lastIn, t.lastTmr, t.lastCpu)) (tick { idle 1017 ⟨255, false, false, false⟩ with paused := true }) = some (1017, 1017, 1017) := by
  decide

theorem test_tick_K7 :
    seen (fun t => (t.running, t.lastIn, t.lastTmr, t.lastCpu)) (tick (idle 1017 ⟨255, false, false, true⟩)) =
    some (false, 1017, 1000, 1000) := by
  decide

theorem test_tick_K8 :
    clockDelta 32 0x00000003 0xFFFFFFFE = 5 ∧ due 32 0x00000003 0xFFFFFFFE Config.params.pCpu = true := by
  decide

theorem test_tick_K10 :
    seen (fun t => (t.running, t.delay, t.lastTmr)) (tick { idle 1017 ⟨255, false, false, false⟩ with mem := [], delay := 9 }) =
    some (false, 8, 1017) := by
  decide

theorem test_tick_K11 :
    seen (fun t => (t.running, t.trace.drop 2, t.lastTmr)) (tick (idle 1017 ⟨99, true, false, false⟩)) =
    some (false, [.report (.invalidKeyIndex 99 none)], 1000) := by
  decide

/-- R205: the clock wraps to 0 after `2^32 - 1`, and the CPU step, 2 ms after the last, is due across the wrap. -/
theorem test_clock_wraps :
    seen (fun t => (t.lastCpu, t.hostTime)) (tick { idle 1002 ⟨255, false, false, false⟩ with
      hostTime := 0xFFFFFFFF, lastIn := 0xFFFFFFFF, lastTmr := 0xFFFFFFFF, lastCpu := 0xFFFFFFFF }) =
    some (1, 0x100000001) := by
  decide

/-! ### Other instantiations (R10) -/

/-- The reset state with other parameters. -/
def withParams (p : Params) : State := { State.reset with params := p }

/-- Without HAS_8XY7 the word `8127` is undecoded (R10, R157). -/
theorem test_params_has8xy7 :
    seen (fun t => (t.running, calls t)) (run 0x8127 (withParams { Config.params with has8xy7 := false })) =
      some (false, [.report (.unknownOpcode 0x8127 0x200)]) := by
  decide

/-- `PROGRAM_OFFSET` and `FONT_BASE` (R10, R56): where a load puts `pc`, the program and the font. -/
theorem test_params_offsets :
    seen (fun t => (t.pc, readByte t 0x600, readByte t 0x200, readByte t 0x100))
      (loadAndRun (loadOf [0x6A, 0x42] 2)
        (withParams { Config.params with programOffset := 0x600, fontBase := 0x100 })) =
      some (0x600, 0x6A, 0, 0xF0) := by
  decide

/-- `CLEAR_ALSO_UPDATES` (R10, R208). -/
theorem test_params_clearAlsoUpdates :
    (timerStep { withParams { Config.params with clearAlsoUpdates := true } with clearPending := true }).trace =
      [.screen 0 true true] := by
  decide

/-- `P_TMR` 16, the other plausible value of R209: the timer step is due 16 ms after the last. -/
theorem test_params_period :
    (seen (fun t => t.lastTmr) (tick { idle 1016 ⟨255, false, false, false⟩ with
        params := { Config.params with pTmr := 16 } }),
      seen (fun t => t.lastTmr) (tick (idle 1016 ⟨255, false, false, false⟩))) = (some 1016, some 1000) := by
  decide

/-! ### The host -/

theorem test_step_load :
    seen (fun t => (t.running, t.ops, readByte t 0x200))
      (step { State.reset with running := false, ops := [.load (loadOf [0x6A, 0x42] 2), .isRunning] }) =
    some (true, [.isRunning], 0x6A) := by
  decide

theorem test_step_query :
    seen (fun t => (t.trace, t.ops)) (step { State.reset with ops := [.readSoundActive] }) =
    some ([.soundActiveIs false], []) := by
  decide

/-! ### Witnesses: states and operands that meet the hypotheses of each statement, each clause at its boundary -/

/-- The reset state with `I` set. -/
def atI (a : Addr) : State := { State.reset with index := a }

/-- The reset state with `pc` set. -/
def atPc (a : Addr) : State := { State.reset with pc := a }

/-- The reset state with `SP` set. -/
def atSp (n : BitVec 8) : State := { State.reset with sp := n }

/-- Both sides of the capacity: 3584 bytes and 3585. -/
theorem witness_LoadSucceedsIffProgramFits :
    (loadOf (List.replicate 3584 0) 3584).length ≤ (loadOf (List.replicate 3584 0) 3584).program.length ∧
    (loadOf [] 3585).length > Config.memSize - Config.params.programOffset :=
  ⟨(List.length_replicate (n := 3584) (a := (0 : Byte))).ge, by decide⟩

theorem witness_LoadSetsEveryElement :
    Config.params.Legal ∧ (loadOf [0x6A, 0x42] 2).length ≤ programCapacity Config.params ∧
    (loadOf [0x6A, 0x42] 2).length ≤ (loadOf [0x6A, 0x42] 2).program.length :=
  ⟨params_legal, by decide, by decide⟩

/-- The default parameters, and the extreme ones of the constraint of R10: the font and the program at the ends. -/
theorem witness_params_Legal :
    { Config.params with fontBase := 0, programOffset := 80 }.Legal ∧
    { Config.params with fontBase := 4016, programOffset := 4096 }.Legal := by decide

theorem witness_ResetIsEmptyLoad : State.reset.params = Config.params := rfl

/-- A register load, and the call that fills the stack. -/
theorem witness_StepKeepsInvariant :
    (RunInv (State.reset.withFetchWord 16 0x6A42) ∧ ∃ t, step (State.reset.withFetchWord 16 0x6A42) = .next t) ∧
    (RunInv ((atSp 15).withFetchWord 16 0x2ABC) ∧ ∃ t, step ((atSp 15).withFetchWord 16 0x2ABC) = .next t) :=
  ⟨⟨⟨params_legal, by decide⟩, _, rfl⟩, ⟨⟨params_legal, by decide⟩, _, rfl⟩⟩

/-- The first byte of the first glyph and the last of the last, after the longest load and after reset. -/
theorem witness_FontGlyphsAfterReset :
    Config.params.Legal ∧ (loadOf (List.replicate 3584 0) 3584).length ≤ programCapacity Config.params ∧
      (loadOf (List.replicate 3584 0) 3584).length ≤ (loadOf (List.replicate 3584 0) 3584).program.length ∧
      (0 < 16 ∧ 0 < 5) ∧ (15 < 16 ∧ 4 < 5) :=
  ⟨params_legal, by decide, (List.length_replicate (n := 3584) (a := (0 : Byte))).ge, by decide⟩

/-- The first and the last address, and the last word. -/
theorem witness_MemoryReadsAndWrites :
    Memory.wf Config.params State.reset.mem ∧ 0 < Config.memSize ∧ 4095 < Config.memSize ∧ (atPc 0xFFE).pc.toNat + 1 ≤ 4095 := by
  decide

theorem witness_FetchStopsOutsideMemory : (atPc 0xFFF).pc.toNat ≥ 0xFFF ∧ (atPc 0xFFE).pc.toNat < 0xFFF := by decide

/-- In the middle of memory, and where the stored word is the last one. -/
theorem witness_FetchSeesStoredRegisters :
    (Memory.wf (atI 0x202).params (atI 0x202).mem ∧ 1 ≤ (1 : Reg).val ∧ (atI 0x202).index = (atI 0x202).pc + 2 ∧
      (atI 0x202).pc.toNat + 3 ≤ 4095 ∧ ∃ t, exec (.storeRegs 1) (atI 0x202) = .next t) ∧
    ({ atI 0xFFE with pc := 0xFFC }.pc.toNat + 3 ≤ 4095 ∧
      ∃ t, exec (.storeRegs 1) { atI 0xFFE with pc := 0xFFC } = .next t) :=
  ⟨⟨by decide, by decide, by decide, by decide, _, rfl⟩, by decide, _, rfl⟩

theorem witness_DecodeOfEncode :
    (Instr.ldImm 0xA 0x42).wellFormedWith false = true ∧ (Instr.subn 1 2).wellFormedWith true = true := by decide

theorem witness_EncodeOfDecode :
    decodeWordWith false 0x6A42 = some (.ldImm 0xA 0x42) ∧ decodeWordWith true 0x8127 = some (.subn 1 2) := by decide

theorem witness_OpcodeRowsDoNotOverlap :
    ∃ p q, opcodeRows[0]? = some p ∧ opcodeRows[0]? = some q ∧ rowMatches p 0x00E0 = true ∧
      rowMatches q 0x00E0 = true := ⟨_, _, rfl, rfl, by decide, by decide⟩

theorem witness_InstructionsWriteOnlyTheirParts :
    (∃ t, exec (.ldImm 1 2) State.reset = .next t) ∧ ∃ t, exec .ret State.reset = .next t := ⟨⟨_, rfl⟩, _, rfl⟩

theorem witness_InstructionsKeepOtherRegisters :
    (∃ t, exec (.ldImm 1 2) State.reset = .next t) ∧ ¬ mayWriteReg (.ldImm 1 2) State.reset 2 :=
  ⟨⟨_, rfl⟩, by simp [mayWriteReg]⟩

/-- The address just below the stored bytes and the one just above. -/
theorem witness_InstructionsKeepOtherMemory :
    (∃ t, exec (.ldBcd 0) (atI 0x300) = .next t) ∧ 0x2FF < baseAddr (atI 0x300) ∧
      baseAddr (atI 0x300) + storedBytes (.ldBcd 0) ≤ 0x303 := ⟨⟨_, rfl⟩, by decide, by decide⟩

/-- All four instructions that can end a run. -/
theorem witness_FaultingInstructionChangesNothingElse :
    State.reset.running = true ∧ (∃ t, exec .ret State.reset = .next t ∧ t.running = false) ∧
    (∃ t, exec (.call 0x200) (atSp 16) = .next t ∧ t.running = false) ∧
    (∃ t, exec (.skp 2) (regs [(2, 0x10)]) = .next t ∧ t.running = false) ∧
    ∃ t, exec (.sknp 2) (regs [(2, 0x10)]) = .next t ∧ t.running = false :=
  ⟨rfl, ⟨_, rfl, rfl⟩, ⟨_, rfl, rfl⟩, ⟨_, rfl, rfl⟩, _, rfl, rfl⟩

/-- One return address, sixteen, and none. -/
theorem witness_RetPopsTheReturnAddress :
    (atSp 1).sp.toNat = (0 : Fin 16).val + 1 ∧ (atSp 16).sp.toNat = (15 : Fin 16).val + 1 ∧ (atSp 0).sp = 0 := by decide

theorem witness_JumpSetsPc : fieldF 0x1200 = 0x1 ∧ AtSelfJump (placeWord 0x1200 State.reset) :=
  ⟨by decide, 0x1200, 0x200, by decide, by decide, by decide⟩

/-- An empty stack, the last free slot, and a full stack. -/
theorem witness_CallPushesTheReturnAddress :
    fieldF 0x2ABC = 0x2 ∧ (atSp 0).sp.toNat = (0 : Fin 16).val ∧ (atSp 15).sp.toNat = (15 : Fin 16).val ∧
      (atSp 16).sp = 16 := by decide

theorem witness_ReturnUndoesCall :
    (atSp 0).sp.toNat = (0 : Fin 16).val ∧ (atSp 15).sp.toNat = (15 : Fin 16).val := by decide

/-- Words of each family, with the low digit 0 and not 0 where the digit decides. -/
theorem witness_SkipsCompare :
    fieldF 0x3A42 = 0x3 ∧ fieldF 0x4A42 = 0x4 ∧ fieldF 0x5120 = 0x5 ∧ fieldN 0x5120 = 0 ∧ fieldF 0x5121 = 0x5 ∧
      fieldN 0x5121 ≠ 0 ∧ fieldF 0x9120 = 0x9 ∧ fieldN 0x9120 = 0 ∧ fieldF 0x912F = 0x9 ∧ fieldN 0x912F ≠ 0 := by decide

theorem witness_LoadsAndAddImmediate :
    fieldF 0x6A42 = 0x6 ∧ fieldF 0x7101 = 0x7 ∧ fieldF 0x8120 = 0x8 ∧ fieldN 0x8120 = 0 := by decide

/-- Vectors A-2, A-4 and A-5 on `F3` and `3C`: the three results, bit by bit. -/
theorem witness_LogicOperations :
    (fieldF 0x8121 = 0x8 ∧ fieldN 0x8121 = 1 ∧ fieldN 0x8122 = 2 ∧ fieldN 0x8123 = 3) ∧
    ∀ k, k < 8 →
      (0xFF : Byte).getLsbD k =
        ((getV (regs [(1, 0xF3), (2, 0x3C)]) 1).getLsbD k || (getV (regs [(1, 0xF3), (2, 0x3C)]) 2).getLsbD k) ∧
      (0x30 : Byte).getLsbD k =
        ((getV (regs [(1, 0xF3), (2, 0x3C)]) 1).getLsbD k && (getV (regs [(1, 0xF3), (2, 0x3C)]) 2).getLsbD k) ∧
      (0xCF : Byte).getLsbD k =
        ((getV (regs [(1, 0xF3), (2, 0x3C)]) 1).getLsbD k != (getV (regs [(1, 0xF3), (2, 0x3C)]) 2).getLsbD k) := by
  decide

theorem witness_AddSetsCarry : fieldF 0x8014 = 0x8 ∧ fieldN 0x8014 = 4 := by decide

theorem witness_SubtractionsSetNotBorrow :
    fieldF 0x8015 = 0x8 ∧ fieldN 0x8015 = 5 ∧ fieldF 0x8017 = 0x8 ∧ fieldN 0x8017 = 7 := by decide

/-- Both settings of the quirk. -/
theorem witness_ShiftsSetTheDroppedBit :
    fieldF 0x8126 = 0x8 ∧ fieldN 0x8126 = 6 ∧ fieldF 0x812E = 0x8 ∧ fieldN 0x812E = 0xE ∧
    (7 : Byte) = (if (regs [(1, 4), (2, 7)]).quirks.shiftVx = true then getV (regs [(1, 4), (2, 7)]) 1
      else getV (regs [(1, 4), (2, 7)]) 2) ∧
    (4 : Byte) = (if { regs [(1, 4)] with quirks := ⟨false, true, false, false⟩ }.quirks.shiftVx = true then
      getV (regs [(1, 4)]) 1 else 0) := by decide

theorem witness_LdIndexAndIndexedJump : fieldF 0xA300 = 0xA ∧ fieldF 0xB300 = 0xB := by decide

theorem witness_RandomIsMasked :
    fieldF 0xC10F = 0xC ∧ { State.reset with rands := [0xB7] }.rands = 0xB7 :: [] := by decide

/-- The last byte a sprite may read, and no byte at all from outside memory. -/
theorem witness_DrawCallsTheHost :
    fieldF 0xD123 = 0xD ∧ SpanInside (baseAddr (atI 0xFFD)) (3 : BitVec 4).toNat ∧
      SpanInside (baseAddr (atI 0xFFFF)) (0 : BitVec 4).toNat := by
  decide

/-- One byte too far, and just inside. -/
theorem witness_DrawReadsInsideMemory :
    1 ≤ (3 : BitVec 4).toNat ∧ (atI 0xFFE).index.toNat + (3 : BitVec 4).toNat - 1 > 4095 ∧
      (atI 0xFFD).index.toNat + (3 : BitVec 4).toNat - 1 ≤ 4095 := by decide

/-- Vector D-1 on a blank display, and the second draw of D-2 on the lit one. -/
theorem witness_DrawOnReferenceDisplay :
    (∃ t, exec (.drw 1 2 1) (storeBytes 0x210 [0xC0] { regs [(1, 10), (2, 5)] with
        index := 0x210, collisions := [false, false] }) = .next t ∧
      t.trace = [px 10 5 false, px 11 5 false, .screen 0 false true] ∧
      KeepsDisplay (fun _ => false) [px 10 5 false, px 11 5 false, .screen 0 false true]) ∧
    ∃ t, exec (.drw 1 2 1) (storeBytes 0x210 [0xC0] { regs [(1, 10), (2, 5)] with
        index := 0x210, collisions := [true, true] }) = .next t ∧
      t.trace = [px 10 5 true, px 11 5 true, .screen 0 false true] ∧
      KeepsDisplay (fun p => p == (10, 5) || p == (11, 5)) [px 10 5 true, px 11 5 true, .screen 0 false true] :=
  ⟨⟨_, rfl, by decide, by simp [KeepsDisplay, displayStep, px]⟩, _, rfl, by decide,
    by simp [KeepsDisplay, displayStep, px]⟩

/-- The last key and the first index that is none. -/
theorem witness_KeySkips :
    fieldF 0xE29E = 0xE ∧ fieldNN 0xE29E = 0x9E ∧ fieldF 0xE2A1 = 0xE ∧ fieldNN 0xE2A1 = 0xA1 ∧
      (getV (regs [(2, 15)]) 2).toNat = (15 : Fin 16).val ∧ (getV (regs [(2, 16)]) 2).toNat ≥ 16 := by decide

theorem witness_KeyWait :
    fieldF 0xF50A = 0xF ∧ fieldNN 0xF50A = 0x0A ∧ State.reset.keys = 0 ∧ { State.reset with keys := 0x8000 }.keys ≠ 0 := by
  decide

theorem witness_TimerRegisters :
    fieldF 0xF307 = 0xF ∧ fieldNN 0xF307 = 0x07 ∧ fieldNN 0xF315 = 0x15 ∧ fieldNN 0xF318 = 0x18 ∧
      getV (regs [(3, 1)]) 3 = 1 := by decide

theorem witness_AddIndexMasksAndFlags : fieldF 0xF11E = 0xF ∧ fieldNN 0xF11E = 0x1E := by decide

theorem witness_LdFontPointsAtGlyph :
    fieldF 0xF029 = 0xF ∧ fieldNN 0xF029 = 0x29 ∧ (getV (regs [(0, 15)]) 0).toNat ≤ 15 ∧
      (getV (regs [(0, 16)]) 0).toNat > 15 ∧ (regs [(0, 15)]).params.Legal :=
  ⟨by decide, by decide, by decide, by decide, params_legal⟩

theorem witness_BcdStoresDigits :
    fieldF 0xF033 = 0xF ∧ fieldNN 0xF033 = 0x33 ∧ Memory.wf (atI 0xFFD).params (atI 0xFFD).mem ∧ (atI 0xFFD).index.toNat + 2 ≤ 4095 ∧
      (atI 0xFFE).index.toNat + 2 > 4095 := by decide

theorem witness_StoreRegsStoresTheBlock :
    fieldF 0xFF55 = 0xF ∧ fieldNN 0xFF55 = 0x55 ∧ Memory.wf (atI 0xFF0).params (atI 0xFF0).mem ∧
      (atI 0xFF0).index.toNat + (15 : Reg).val ≤ 4095 ∧ (atI 0xFF1).index.toNat + (15 : Reg).val > 4095 := by decide

theorem witness_LoadRegsLoadsTheBlock :
    fieldF 0xFF65 = 0xF ∧ fieldNN 0xFF65 = 0x65 ∧
      (atI 0xFF0).index.toNat + (15 : Reg).val ≤ 4095 ∧ (atI 0xFF1).index.toNat + (15 : Reg).val > 4095 := by decide

theorem witness_LoadUndoesStore :
    Memory.wf (atI 0xFF0).params (atI 0xFF0).mem ∧ ∃ t w, exec (.storeRegs 15) (atI 0xFF0) = .next t ∧
      t.index = (atI 0xFF0).index ∧ exec (.loadRegs 15) t = .next w := ⟨by decide, _, _, rfl, rfl, rfl⟩

theorem witness_HaltedTickDoesNothing :
    { State.reset with running := false }.running = false ∧ nextOp { State.reset with running := false } = .tick ∧
      ∀ r, nextOp { State.reset with running := false, ops := [.isRunning] } ≠ .load r :=
  ⟨rfl, rfl, fun _ h => (nomatch h)⟩

theorem witness_StepRunsDecodedInstruction :
    nextOp (idle 1002 ⟨255, false, false, false⟩) = .tick ∧ (idle 1002 ⟨255, false, false, false⟩).running = true ∧
      cpuFires (nowAnswer (idle 1002 ⟨255, false, false, false⟩))
        (beforeCpu (takeOp (idle 1002 ⟨255, false, false, false⟩))) = true ∧
      fetchWord (beforeCpu (takeOp (idle 1002 ⟨255, false, false, false⟩))) = some 0x1200 ∧
      decodeWordWith (idle 1002 ⟨255, false, false, false⟩).params.has8xy7 0x1200 = some (.jp 0x200) := by decide

/-- At reset, and where the word is the last one in memory. -/
theorem witness_PlacedWordRuns :
    Memory.wf State.reset.params State.reset.mem ∧ State.reset.pc.toNat < 0xFFF ∧ (atPc 0xFFE).pc.toNat < 0xFFF ∧
      0 < State.reset.params.pIn ∧ 0 < State.reset.params.pTmr ∧
      State.reset.params.pCpu < 2 ^ State.reset.params.clockBits ∧
      decodeTableWord 16 0x6A42 = some (.ldImm 0xA 0x42) ∧
      (Instr.ldImm 0xA 0x42).wellFormedWith State.reset.params.has8xy7 = true := by decide

/-- The running block of the scheduler tests, its poll reporting no event. -/
def quiet (now : Time) : State := idle now ⟨255, false, false, false⟩

/-- Each activity due and not due, and a poll that stops the block. -/
theorem witness_DueActivitiesRun :
    (quiet 1017).running = true ∧
    (due 32 (nowAnswer (quiet 1017)) (quiet 1017).lastIn (quiet 1017).params.pIn = true ∧
      due 32 (nowAnswer (quiet 1001)) (quiet 1001).lastIn (quiet 1001).params.pIn = false) ∧
    ((inputTurn 1017 (afterNow (quiet 1017))).running = true ∧
      due 32 (nowAnswer (quiet 1017)) (quiet 1017).lastTmr (quiet 1017).params.pTmr = true ∧
      due 32 (nowAnswer (quiet 1016)) (quiet 1016).lastTmr (quiet 1016).params.pTmr = false) ∧
    (inputTurn 1017 (afterNow (idle 1017 ⟨255, false, false, true⟩))).running = false ∧
    ((beforeCpu (quiet 1002)).running = true ∧ (beforeCpu (quiet 1002)).paused = false ∧
      due 32 (nowAnswer (quiet 1002)) (quiet 1002).lastCpu (quiet 1002).params.pCpu = true) ∧
    (beforeCpu (idle 1017 ⟨255, false, true, false⟩)).paused = true ∧
    due 32 (nowAnswer (quiet 1001)) (quiet 1001).lastCpu (quiet 1001).params.pCpu = false ∧
    nextOp (quiet 1017) = .tick := by decide

/-- A stop and a pause in the poll, and a tick too early for the CPU step. -/
theorem witness_StopAndPauseGateTheTick :
    (idle 1017 ⟨255, false, false, true⟩).running = true ∧
      (inputTurn (nowAnswer (idle 1017 ⟨255, false, false, true⟩)) (afterNow (idle 1017 ⟨255, false, false, true⟩))).running
        = false ∧
      (inputTurn (nowAnswer (idle 1017 ⟨255, false, true, false⟩)) (afterNow (idle 1017 ⟨255, false, true, false⟩))).paused
        = true ∧
      cpuFires (nowAnswer (quiet 1001)) (beforeCpu (quiet 1001)) = false := by decide

theorem witness_TickWorkIsBounded : ∃ t, tick (idle 1017 ⟨255, false, false, false⟩) = .next t := ⟨_, rfl⟩

theorem witness_ClockDifferenceSurvivesWrap :
    0 < 2 ^ 32 ∧ 4294967295 < 2 ^ 32 ∧ ∃ t, step (quiet 1017) = .next t ∧ t.hostTime = 1017 :=
  ⟨by decide, by decide, _, rfl, rfl⟩

theorem witness_TimerStepEffect : ∃ t, t = timerStep { State.reset with delay := 1, sound := 0 } := ⟨_, rfl⟩

/-- A tick whose timer step counts down, and one whose instruction writes the timer. -/
theorem witness_TimersOnlyCountDown :
    nextOp { idle 1017 ⟨255, false, false, false⟩ with delay := 9 } = .tick ∧
      (∃ t, step { idle 1017 ⟨255, false, false, false⟩ with delay := 9 } = .next t ∧ t.delay = 8) ∧
      ∃ t, step ((regs [(3, 0x3C)]).withFetchWord 16 0xF315) = .next t ∧ t.delay = 0x3C :=
  ⟨rfl, ⟨_, rfl, rfl⟩, _, rfl, rfl⟩

/-- All three fire, none does, and the poll's stop keeps the other two from firing. -/
theorem witness_TimestampsMoveOnlyWhenFired :
    (∃ t, tick (quiet 1017) = .next t ∧ (t.lastIn, t.lastTmr, t.lastCpu) = (1017, 1017, 1017)) ∧
    (∃ t, tick (quiet 1001) = .next t ∧ (t.lastIn, t.lastTmr, t.lastCpu) = (1000, 1000, 1000)) ∧
    ∃ t, tick (idle 1017 ⟨255, false, false, true⟩) = .next t ∧ (t.lastIn, t.lastTmr, t.lastCpu) = (1017, 1000, 1000) :=
  ⟨⟨_, rfl, rfl⟩, ⟨_, rfl, rfl⟩, _, rfl, rfl⟩

/-- No event, the last key, the first key number that is none and the last one. -/
theorem witness_InputPollAppliesTheReport :
    (pollAnswer (idle 1017 ⟨255, false, false, false⟩)).key = 255 ∧
      (pollAnswer (idle 1017 ⟨15, true, false, false⟩)).key.toNat < 16 ∧
      16 ≤ (pollAnswer (idle 1017 ⟨16, true, false, false⟩)).key.toNat ∧
      (pollAnswer (idle 1017 ⟨254, true, false, false⟩)).key.toNat ≤ 254 := by decide

theorem witness_UnknownOpcodeHalts :
    fetchWord State.reset = some 0x0000 ∧ decodeWordWith State.reset.params.has8xy7 0x0000 = none := by decide

theorem witness_QuirksChangeOnlyByLoad :
    (∀ r, nextOp (State.reset.withFetchWord 16 0x6A42) ≠ .load r) ∧ ∃ t, step (State.reset.withFetchWord 16 0x6A42) = .next t :=
  ⟨fun _ h => (nomatch h), _, rfl⟩

theorem witness_OnlyALoadStartsARun :
    ∃ t, step { State.reset with running := false, ops := [.load (loadOf [0x6A, 0x42] 2)] } = .next t ∧
      t.running = true := ⟨_, rfl, rfl⟩

/-- A `00E0` that runs, a timer step that delivers the clear and one that changes `sound_active`, a poll that stops the
block and an instruction that faults. -/
theorem witness_StatusBitsChangeOnlyByTheirWriters :
    (nextOp (State.reset.withFetchWord 16 0x00E0) = .tick ∧ (State.reset.withFetchWord 16 0x00E0).clearPending = false ∧
      ∃ t, step (State.reset.withFetchWord 16 0x00E0) = .next t ∧ t.clearPending = true) ∧
    (∃ t, step { quiet 1017 with clearPending := true } = .next t ∧ t.clearPending = false) ∧
    (∃ t, step { quiet 1017 with sound := 5 } = .next t ∧ t.soundActive = true) ∧
    (∃ t, step (idle 1017 ⟨255, false, false, true⟩) = .next t ∧ t.running = false) ∧
    ∃ t, step (State.reset.withFetchWord 16 0x00EE) = .next t ∧ t.running = false :=
  ⟨⟨rfl, rfl, _, rfl, rfl⟩, ⟨_, rfl, rfl⟩, ⟨_, rfl, rfl⟩, ⟨_, rfl, rfl⟩, _, rfl, rfl⟩

theorem witness_QueriesChangeNothing :
    nextOp { State.reset with ops := [.isRunning] } = .isRunning ∧
      nextOp { State.reset with ops := [.readSoundActive] } = .readSoundActive := ⟨rfl, rfl⟩

end Sys2Proof.Tests
end

