-- ==== Sys2Proof/Proofs/Scope.lean ====
section
/-! PROOFS. The scope of the model (spec/00_scope.md): what a load answers on each side of the program capacity. -/

namespace Sys2Proof.Machine

/-- R231: a program longer than the capacity is refused before the buffer is looked at. -/
theorem loadAndRun_of_tooLarge {r : LoadRequest} {s : State} (hlong : programCapacity s.params < r.length) :
    loadAndRun r s = .next (unspecify (raise (.romTooLarge r.length) s)) := by
  rw [loadAndRun, if_pos hlong]

/-- R270: a program that fits, in a buffer that holds it, is loaded at the reading of the clock. -/
theorem loadAndRun_of_fits {r : LoadRequest} {s : State} (hfit : r.length ≤ programCapacity s.params)
    (hbuf : r.length ≤ r.program.length) :
    loadAndRun r s = .next (loaded r (nowAnswer s) (afterNow s)) := by
  rw [loadAndRun, if_neg hfit.not_gt, if_neg hbuf.not_gt]

@[simp] theorem loaded_running (r : LoadRequest) (now : Time) (s : State) : (loaded r now s).running = true := rfl

@[simp] theorem unspecify_raise_running (f : HwFault) (s : State) : (unspecify (raise f s)).running = false := by
  rw [unspecify_running, raise_running]

@[simp] theorem unspecify_raise_trace (f : HwFault) (s : State) :
    (unspecify (raise f s)).trace = s.trace ++ [.report f] := by
  rw [unspecify_trace, raise_trace]

/-- R11: when the buffer holds the program, the state a load answers runs exactly when the program fits. -/
theorem loadAndRun_running_iff {r : LoadRequest} {s : State} (hbuf : r.length ≤ r.program.length) :
    ∃ t, loadAndRun r s = .next t ∧ (t.running = true ↔ r.length ≤ programCapacity s.params) := by
  by_cases hfit : r.length ≤ programCapacity s.params
  · exact ⟨_, loadAndRun_of_fits hfit hbuf, by simp [hfit]⟩
  · exact ⟨_, loadAndRun_of_tooLarge (not_le.mp hfit), by simp [hfit]⟩

/-- Settles O1: the capacity splits the loads in two, and each side has its equation, `loadAndRun_of_fits` and
`loadAndRun_of_tooLarge`. -/
theorem loadSucceedsIffProgramFits : Obligations.LoadSucceedsIffProgramFits := by
  refine ⟨programCapacity_default, fun r s => ⟨rfl, loadAndRun_running_iff, fun hlong => ?_⟩⟩
  exact ⟨_, loadAndRun_of_tooLarge hlong, unspecify_raise_running _ s, unspecify_raise_trace _ s⟩

end Sys2Proof.Machine
end

