-- ==== Sys2Proof/Proofs/SystemFlow.lean ====
section
/-! PROOFS. Family 0 and the jump (spec/40_system_flow.md): which words they are, the state each of them answers, and what
the timer step makes of a pending clear. -/

namespace Sys2Proof

/-- Only the first two rows of R100, CLS and RET, build an instruction without operands. -/
theorem build_ne_of_mem_drop : ∀ r ∈ opcodeRows.drop 2, ∀ op, r.build op ≠ .cls ∧ r.build op ≠ .ret := by
  simp [opcodeRows, opcodeRows1, opcodeRows2, opcodeRows3, opcodeRows4]

/-- A row that builds CLS or RET fixes all sixteen bits of its word. -/
theorem fixed_of_build {r : OpcodeRow} (hr : r ∈ opcodeRows) {op : Opcode}
    (hb : r.build op = .cls ∨ r.build op = .ret) : r.mask = BitVec.allOnes 16 ∧ r.value = encode (r.build op) := by
  rcases List.mem_cons.mp hr with rfl | hr
  · exact ⟨rfl, rfl⟩
  rcases List.mem_cons.mp hr with rfl | hr
  · exact ⟨rfl, rfl⟩
  · exact absurd hb (not_or.mpr (build_ne_of_mem_drop r hr op))

/-- R120, R121: no word but its own decodes to CLS or to RET. -/
theorem eq_encode_of_decodeWord {has : Bool} {op : Opcode} {i : Instr} (hi : i = .cls ∨ i = .ret)
    (h : decodeWordWith has op = some i) : op = encode i := by
  obtain ⟨r, hr, hm, rfl, -⟩ := row_of_decodeWord h
  obtain ⟨hmask, hvalue⟩ := fixed_of_build hr hi
  rwa [rowMatches, hmask, hvalue, BitVec.and_allOnes, beq_iff_eq] at hm

theorem decodeWord_eq_cls_iff (has : Bool) (op : Opcode) : decodeWordWith has op = some .cls ↔ op = 0x00E0 := by
  refine ⟨eq_encode_of_decodeWord (.inl rfl), ?_⟩
  rintro rfl
  exact decodeWord_at 0 rfl (by decide)

theorem decodeWord_eq_ret_iff (has : Bool) (op : Opcode) : decodeWordWith has op = some .ret ↔ op = 0x00EE := by
  refine ⟨eq_encode_of_decodeWord (.inr rfl), ?_⟩
  rintro rfl
  exact decodeWord_at 1 rfl (by decide)

theorem decodeWord_jp (has : Bool) {op : Opcode} (hf : fieldF op = 0x1) :
    decodeWordWith has op = some (.jp (fieldNNN op)) :=
  decodeWord_at 2 rfl (match_F hf)

end Sys2Proof

namespace Sys2Proof.Machine

/-! What the instructions answer -/

theorem exec_cls (s : State) : exec .cls s = .next (setPc (s.pc + 2) { s with clearPending := true }) := rfl

theorem exec_jp (nnn : BitVec 12) (s : State) : exec (.jp nnn) s = .next (setPc (zextNNN nnn) s) := rfl

/-- R121: with a return address on the stack, RET goes to the top one and drops it. -/
theorem exec_ret_of_pop {s : State} {k : Fin 16} (hsp : s.sp.toNat = k.val + 1) :
    exec .ret s = .next (setPc s.stack[k] (dropReturn s)) := by
  have hne : s.sp ≠ 0 := by
    intro h
    simp [h] at hsp
  have hk : s.sp.toNat - 1 = k.val := by omega
  have hlt : s.sp.toNat - 1 < 16 := hk ▸ k.isLt
  change execRet s = _
  rw [execRet, if_neg hne, dif_pos hlt]
  simp [topReturn, hk]

/-- R121: on an empty stack, RET is the StackUnderflow fault. -/
theorem exec_ret_of_empty {s : State} (hsp : s.sp = 0) : exec .ret s = .next (raise (.stackUnderflow s.pc) s) :=
  if_pos hsp

/-- R215: the CPU step performs the instruction it fetches and decodes. -/
theorem executeOne_of_decoded {s : State} {op : Opcode} {i : Instr} (hf : fetchWord s = some op)
    (hd : decodeWordWith s.params.has8xy7 op = some i) : executeOne s = exec i s := by
  simp only [executeOne, hf, hd]

/-! What the updates leave -/

theorem setClearPending_keeps (b : Bool) (s : State) : keepsAllBut [.clearPending] s { s with clearPending := b } := by
  intro p hp
  cases p <;> simp_all [samePart, getV, readByte]

theorem setPc_self (s : State) : setPc s.pc s = s := rfl

@[simp] theorem zextNNN_toNat (nnn : BitVec 12) : (zextNNN nnn).toNat = nnn.toNat :=
  BitVec.toNat_setWidth_of_le (by decide)

/-- Dropping one of `k + 1` return addresses leaves `k`. -/
theorem dropReturn_sp_toNat {s : State} {k : Nat} (hsp : s.sp.toNat = k + 1) : (dropReturn s).sp.toNat = k := by
  rw [dropReturn_sp]
  bv_omega

/-- R208: the timer step sends a pending clear to the host, and makes no other call. -/
theorem timerStep_trace_of_pending {s : State} (h : s.clearPending = true) :
    (timerStep s).trace = s.trace ++ [.screen s.callbacks.screen true s.params.clearAlsoUpdates] := by
  rw [timerStep, deliverClear, if_pos h]
  rfl

/-- Settles O19: the next state is the old one with the clear pending and `pc` advanced, and the timer step delivers
what is pending. -/
theorem clsDefersTheClear : Obligations.ClsDefersTheClear := by
  refine ⟨decodeWord_eq_cls_iff, fun s => ⟨_, exec_cls s, rfl, rfl, ?_, _, timerStep_trace_of_pending rfl⟩⟩
  exact keepsAllBut_seq (setClearPending_keeps true s) (setPc_keeps _ _)

/-- Settles O20: the stack pointer decides between the pop and the fault, `exec_ret_of_pop` and `exec_ret_of_empty`. -/
theorem retPopsTheReturnAddress : Obligations.RetPopsTheReturnAddress := by
  refine ⟨decodeWord_eq_ret_iff, fun s k hsp => ?pop, fun s hsp => ?fault⟩
  case pop =>
    refine ⟨_, exec_ret_of_pop hsp, dropReturn_sp_toNat hsp, rfl, ?_⟩
    exact keepsAllBut_seq (dropReturn_keeps s) (setPc_keeps _ _)
  case fault =>
    exact ⟨_, exec_ret_of_empty hsp, raise_running _ s, raise_trace _ s, raise_keeps _ s⟩

/-- R122: a jump to its own address is a fixed point of the CPU step. -/
theorem executeOne_of_atSelfJump {s : State} (h : AtSelfJump s) : executeOne s = .next s := by
  obtain ⟨op, nnn, hf, hd, hself⟩ := h
  rw [executeOne_of_decoded hf hd, exec_jp, hself, setPc_self]

/-- Settles O21: a jump is one `setPc`, which at the jump's own address changes nothing. -/
theorem jumpSetsPc : Obligations.JumpSetsPc :=
  ⟨fun has _ hf => decodeWord_jp has hf,
    fun nnn s => ⟨_, exec_jp nnn s, zextNNN_toNat nnn, setPc_keeps _ s⟩,
    fun _ => executeOne_of_atSelfJump⟩

end Sys2Proof.Machine
end

