-- ==== Sys2Proof/Proofs/Skips.lean ====
section
/-! PROOFS. The skips on registers and immediates (spec/41_skips.md): which words they are, which words of families 5 and
9 are none, and the state each skip answers. -/

namespace Sys2Proof

/-! What a matched row says of the word's fields -/

theorem fieldF_and (a b : Opcode) : fieldF (a &&& b) = fieldF a &&& fieldF b := BitVec.extractLsb'_and

theorem fieldN_and (a b : Opcode) : fieldN (a &&& b) = fieldN a &&& fieldN b := BitVec.extractLsb'_and

/-- Every row of R100 fixes the family. -/
theorem fieldF_mask_of_mem : ∀ r ∈ opcodeRows, fieldF r.mask = BitVec.allOnes 4 := by decide

/-- The rows of families 5 and 9 fix the low digit, at 0. -/
theorem fieldN_of_mem_family_5_9 :
    ∀ r ∈ opcodeRows, fieldF r.value = 0x5 ∨ fieldF r.value = 0x9 →
      fieldN r.mask = BitVec.allOnes 4 ∧ fieldN r.value = 0 := by decide

/-- A word is of the family of the row it matches. -/
theorem fieldF_of_rowMatches {r : OpcodeRow} (hr : r ∈ opcodeRows) {op : Opcode} (hm : rowMatches r op = true) :
    fieldF op = fieldF r.value := by
  rw [rowMatches, beq_iff_eq] at hm
  rw [← hm, fieldF_and, fieldF_mask_of_mem r hr, BitVec.and_allOnes]

/-- R104: a word of family 5 or 9 that decodes has the low digit 0. -/
theorem fieldN_of_decodeWord {has : Bool} {op : Opcode} {i : Instr} (hf : fieldF op = 0x5 ∨ fieldF op = 0x9)
    (h : decodeWordWith has op = some i) : fieldN op = 0 := by
  obtain ⟨r, hr, hm, -, -⟩ := row_of_decodeWord h
  rw [fieldF_of_rowMatches hr hm] at hf
  obtain ⟨hmask, hvalue⟩ := fieldN_of_mem_family_5_9 r hr hf
  rw [rowMatches, beq_iff_eq] at hm
  rw [← hvalue, ← hm, fieldN_and, hmask, BitVec.and_allOnes]

theorem decodeWord_eq_none_of_fieldN {has : Bool} {op : Opcode} (hf : fieldF op = 0x5 ∨ fieldF op = 0x9)
    (hn : fieldN op ≠ 0) : decodeWordWith has op = none :=
  Option.eq_none_iff_forall_ne_some.mpr fun _ h => hn (fieldN_of_decodeWord hf h)

/-! The words of the four skips -/

theorem decodeWord_seImm (has : Bool) {op : Opcode} (hf : fieldF op = 0x3) :
    decodeWordWith has op = some (.seImm (fieldX op) (fieldNN op)) :=
  decodeWord_at 4 rfl (match_F hf)

theorem decodeWord_sneImm (has : Bool) {op : Opcode} (hf : fieldF op = 0x4) :
    decodeWordWith has op = some (.sneImm (fieldX op) (fieldNN op)) :=
  decodeWord_at 5 rfl (match_F hf)

theorem decodeWord_family_5 (has : Bool) {op : Opcode} (hf : fieldF op = 0x5) :
    decodeWordWith has op = if fieldN op = 0 then some (.seReg (fieldX op) (fieldY op)) else none := by
  split
  · exact decodeWord_at 6 rfl (match_FN hf ‹_›)
  · exact decodeWord_eq_none_of_fieldN (.inl hf) ‹_›

theorem decodeWord_family_9 (has : Bool) {op : Opcode} (hf : fieldF op = 0x9) :
    decodeWordWith has op = if fieldN op = 0 then some (.sneReg (fieldX op) (fieldY op)) else none := by
  split
  · exact decodeWord_at 18 rfl (match_FN hf ‹_›)
  · exact decodeWord_eq_none_of_fieldN (.inr hf) ‹_›

end Sys2Proof

namespace Sys2Proof.Machine

theorem exec_seImm (x : Reg) (nn : Byte) (s : State) :
    exec (.seImm x nn) s = .next (skipNextIf (getV s x == nn) s) := rfl

theorem exec_sneImm (x : Reg) (nn : Byte) (s : State) :
    exec (.sneImm x nn) s = .next (skipNextIf (getV s x != nn) s) := rfl

theorem exec_seReg (x y : Reg) (s : State) :
    exec (.seReg x y) s = .next (skipNextIf (getV s x == getV s y) s) := rfl

theorem exec_sneReg (x y : Reg) (s : State) :
    exec (.sneReg x y) s = .next (skipNextIf (getV s x != getV s y) s) := rfl

/-- R134: what every skip does, whatever it compares. -/
theorem completes_of_exec_eq_skipNextIf {i : Instr} {s : State} {c : Bool} {P : Prop} [Decidable P]
    (hexec : exec i s = .next (skipNextIf c s)) (hc : c = true ↔ P) :
    completes i s fun t => t.pc = (if P then s.pc + 4 else s.pc + 2) ∧ keepsAllBut [.pc] s t := by
  refine ⟨_, hexec, ?_, skipNextIf_keeps c s⟩
  simp [skipNextIf_eq, hc]

/-- Settles O24: the decoder's four clauses, then each skip by R134 with the comparison it makes. -/
theorem skipsCompare : Obligations.SkipsCompare := by
  refine ⟨fun has _ => decodeWord_seImm has, fun has _ => decodeWord_sneImm has,
    fun has _ => decodeWord_family_5 has, fun has _ => decodeWord_family_9 has, fun x y nn s => ⟨?_, ?_, ?_, ?_⟩⟩
  · exact completes_of_exec_eq_skipNextIf (exec_seImm x nn s) beq_iff_eq
  · exact completes_of_exec_eq_skipNextIf (exec_sneImm x nn s) bne_iff_ne
  · exact completes_of_exec_eq_skipNextIf (exec_seReg x y s) beq_iff_eq
  · exact completes_of_exec_eq_skipNextIf (exec_sneReg x y s) bne_iff_ne

end Sys2Proof.Machine
end

