-- ==== Sys2Proof/Proofs/Immediate.lean ====
section
/-! PROOFS. The loads and add immediate (spec/42_immediate.md, and 8XY0 of spec/43_alu.md): which words they are, and the
one register each of them writes. -/

namespace Sys2Proof

theorem decodeWord_ldImm (has : Bool) {op : Opcode} (hf : fieldF op = 0x6) :
    decodeWordWith has op = some (.ldImm (fieldX op) (fieldNN op)) :=
  decodeWord_at 7 rfl (match_F hf)

theorem decodeWord_addImm (has : Bool) {op : Opcode} (hf : fieldF op = 0x7) :
    decodeWordWith has op = some (.addImm (fieldX op) (fieldNN op)) :=
  decodeWord_at 8 rfl (match_F hf)

theorem decodeWord_ldReg (has : Bool) {op : Opcode} (hf : fieldF op = 0x8) (hn : fieldN op = 0) :
    decodeWordWith has op = some (.ldReg (fieldX op) (fieldY op)) :=
  decodeWord_at 9 rfl (match_FN hf hn)

end Sys2Proof

namespace Sys2Proof.Machine

theorem exec_ldImm (x : Reg) (nn : Byte) (s : State) : exec (.ldImm x nn) s = .next (advance (setV x nn s)) := rfl

theorem exec_addImm (x : Reg) (nn : Byte) (s : State) :
    exec (.addImm x nn) s = .next (advance (setV x (getV s x + nn) s)) := rfl

theorem exec_ldReg (x y : Reg) (s : State) : exec (.ldReg x y) s = .next (advance (setV x (getV s y) s)) := rfl

/-- The sum of two bytes is their sum as numbers, modulo 256. -/
theorem byte_add_eq_ofNat (a b : Byte) : a + b = BitVec.ofNat 8 ((a.toNat + b.toNat) % 256) := by
  apply BitVec.eq_of_toNat_eq
  rw [BitVec.toNat_add, BitVec.toNat_ofNat]
  exact (Nat.mod_mod _ _).symm

theorem onlyReg_advance_setV (x : Reg) (b : Byte) (s : State) : onlyReg x b s (advance (setV x b s)) :=
  ⟨getV_setV_same x b s, fun _ hr => getV_setV_other hr b s⟩

/-- What an instruction does that writes one register and goes on, whatever it writes. -/
theorem completes_of_exec_eq_advance_setV {i : Instr} {x : Reg} {b : Byte} {s : State}
    (hexec : exec i s = .next (advance (setV x b s))) :
    completes i s fun t => onlyReg x b s t ∧ t.pc = s.pc + 2 ∧ keepsAllBut [.pc, .regs] s t :=
  ⟨_, hexec, onlyReg_advance_setV x b s, rfl, keepsAllBut_seq (setV_keeps x b s) (advance_keeps _)⟩

/-- Settles O25: the decoder's three clauses, then each instruction as one register write and an advance, with the byte
it writes. -/
theorem loadsAndAddImmediate : Obligations.LoadsAndAddImmediate := by
  refine ⟨fun has _ => decodeWord_ldImm has, fun has _ => decodeWord_addImm has, fun has _ => decodeWord_ldReg has,
    fun x y nn s => ⟨?load, ?add, ?assign⟩⟩
  case load => exact completes_of_exec_eq_advance_setV (exec_ldImm x nn s)
  case add =>
    rw [← byte_add_eq_ofNat]
    exact completes_of_exec_eq_advance_setV (exec_addImm x nn s)
  case assign => exact completes_of_exec_eq_advance_setV (exec_ldReg x y s)

end Sys2Proof.Machine
end

