-- ==== Sys2Proof/Proofs/Alu.lean ====
section
/-! PROOFS. The logic operations and the addition of family 8 (spec/43_alu.md): which words they are, and the result and
the flag each of them writes. -/

namespace Sys2Proof

theorem decodeWord_orReg (has : Bool) {op : Opcode} (hf : fieldF op = 0x8) (hn : fieldN op = 1) :
    decodeWordWith has op = some (.orReg (fieldX op) (fieldY op)) :=
  decodeWord_at 10 rfl (match_FN hf hn)

theorem decodeWord_andReg (has : Bool) {op : Opcode} (hf : fieldF op = 0x8) (hn : fieldN op = 2) :
    decodeWordWith has op = some (.andReg (fieldX op) (fieldY op)) :=
  decodeWord_at 11 rfl (match_FN hf hn)

theorem decodeWord_xorReg (has : Bool) {op : Opcode} (hf : fieldF op = 0x8) (hn : fieldN op = 3) :
    decodeWordWith has op = some (.xorReg (fieldX op) (fieldY op)) :=
  decodeWord_at 12 rfl (match_FN hf hn)

theorem decodeWord_addReg (has : Bool) {op : Opcode} (hf : fieldF op = 0x8) (hn : fieldN op = 4) :
    decodeWordWith has op = some (.addReg (fieldX op) (fieldY op)) :=
  decodeWord_at 13 rfl (match_FN hf hn)

end Sys2Proof

namespace Sys2Proof.Machine

/-! What the instructions answer -/

theorem exec_orReg (x y : Reg) (s : State) :
    exec (.orReg x y) s = .next (advance (logicFlag (setV x (getV s x ||| getV s y) s))) := rfl

theorem exec_andReg (x y : Reg) (s : State) :
    exec (.andReg x y) s = .next (advance (logicFlag (setV x (getV s x &&& getV s y) s))) := rfl

theorem exec_xorReg (x y : Reg) (s : State) :
    exec (.xorReg x y) s = .next (advance (logicFlag (setV x (getV s x ^^^ getV s y) s))) := rfl

theorem exec_addReg (x y : Reg) (s : State) : exec (.addReg x y) s =
    .next (advance (setResultAndFlag x (getV s x + getV s y) (carryOut (getV s x) (getV s y)) s)) := rfl

/-! The quirk on and off -/

/-- With the quirk, a logic operation writes its result and then the flag 0. -/
theorem logicFlag_setV_of_vfReset {s : State} (hq : s.quirks.vfReset = true) (x : Reg) (b : Byte) :
    logicFlag (setV x b s) = setResultAndFlag x b false s := if_pos hq

theorem logicFlag_of_not_vfReset {s : State} (hq : ¬ s.quirks.vfReset = true) : logicFlag s = s := if_neg hq

/-! The registers after a result and its flag -/

/-- R159: the flag is last, so it is all that is left where the destination is `VF`. -/
theorem resultAndFlag_advance_setResultAndFlag {f : Bool} {flag : Prop} [Decidable flag] (hf : f = true ↔ flag)
    (x : Reg) (b : Byte) (s : State) : resultAndFlag x b flag s (advance (setResultAndFlag x b f s)) := by
  refine ⟨?vf, fun hx => ?result, fun r hrx hr => ?others⟩ <;> rw [advance, getV_setPc, getV_setResultAndFlag]
  case vf => simp only [if_true, hf]
  case result => rw [if_neg hx, if_pos rfl]
  case others => rw [if_neg hr, if_neg hrx]

theorem logicResult_advance_logicFlag_setV (x : Reg) (b : Byte) (s : State) :
    logicResult x b s (advance (logicFlag (setV x b s))) := by
  rw [logicResult]
  split
  next hq =>
    rw [logicFlag_setV_of_vfReset hq]
    exact resultAndFlag_advance_setResultAndFlag (by decide) x b s
  next hq =>
    rw [logicFlag_of_not_vfReset (s := setV x b s) hq]
    exact onlyReg_advance_setV x b s

/-! What the family does, whatever the result -/

/-- Going on after a change of registers alone. -/
theorem advance_of_keepsAllBut_regs {s u : State} (h : keepsAllBut [.regs] s u) :
    (advance u).pc = s.pc + 2 ∧ keepsAllBut [.pc, .regs] s (advance u) := by
  have hpc : u.pc = s.pc := h .pc (by decide)
  exact ⟨congrArg (· + 2) hpc, keepsAllBut_seq h (advance_keeps u)⟩

/-- R151 to R153: what every logic operation does, whatever its result. -/
theorem completes_of_exec_eq_logicFlag {i : Instr} {x : Reg} {b : Byte} {s : State}
    (hexec : exec i s = .next (advance (logicFlag (setV x b s)))) :
    completes i s fun t => logicResult x b s t ∧ t.pc = s.pc + 2 ∧ keepsAllBut [.pc, .regs] s t :=
  ⟨_, hexec, logicResult_advance_logicFlag_setV x b s,
    advance_of_keepsAllBut_regs (keepsAllBut_trans (setV_keeps x b s) (logicFlag_keeps _))⟩

/-- R159: what every instruction does that writes a result and a flag, whatever they are. -/
theorem completes_of_exec_eq_setResultAndFlag {i : Instr} {x : Reg} {b : Byte} {f : Bool} {flag : Prop}
    [Decidable flag] {s : State} (hexec : exec i s = .next (advance (setResultAndFlag x b f s)))
    (hf : f = true ↔ flag) :
    completes i s fun t => resultAndFlag x b flag s t ∧ t.pc = s.pc + 2 ∧ keepsAllBut [.pc, .regs] s t :=
  ⟨_, hexec, resultAndFlag_advance_setResultAndFlag hf x b s,
    advance_of_keepsAllBut_regs (setResultAndFlag_keeps x b f s)⟩

/-- The flag of R154 is set where the exact sum leaves the byte. -/
theorem carryOut_eq_true_iff (a b : Byte) : carryOut a b = true ↔ a.toNat + b.toNat > 255 := decide_eq_true_iff

/-- Settles O26: the decoder's three clauses, then each operation as one result and the flag rule, the result being the
byte with the bits the statement lists. -/
theorem logicOperations : Obligations.LogicOperations := by
  refine ⟨fun has _ => decodeWord_orReg has, fun has _ => decodeWord_andReg has, fun has _ => decodeWord_xorReg has,
    fun x y s o a e hbits => ?_⟩
  obtain ⟨ho, hae⟩ := forall₂_and.mp hbits
  obtain ⟨ha, he⟩ := forall₂_and.mp hae
  obtain rfl : o = getV s x ||| getV s y :=
    BitVec.eq_of_getLsbD_eq fun k hk => (ho k hk).trans BitVec.getLsbD_or.symm
  obtain rfl : a = getV s x &&& getV s y :=
    BitVec.eq_of_getLsbD_eq fun k hk => (ha k hk).trans BitVec.getLsbD_and.symm
  obtain rfl : e = getV s x ^^^ getV s y :=
    BitVec.eq_of_getLsbD_eq fun k hk => (he k hk).trans BitVec.getLsbD_xor.symm
  refine ⟨?or, ?and, ?xor⟩
  case or => exact completes_of_exec_eq_logicFlag (exec_orReg x y s)
  case and => exact completes_of_exec_eq_logicFlag (exec_andReg x y s)
  case xor => exact completes_of_exec_eq_logicFlag (exec_xorReg x y s)

/-- Settles O27: the decoder's clause, then the addition as a result and a flag, both from the exact sum. -/
theorem addSetsCarry : Obligations.AddSetsCarry := by
  refine ⟨fun has _ => decodeWord_addReg has, fun x y s => ?_⟩
  rw [← byte_add_eq_ofNat]
  exact completes_of_exec_eq_setResultAndFlag (exec_addReg x y s) (carryOut_eq_true_iff _ _)

end Sys2Proof.Machine
end

