-- ==== Sys2Proof/Proofs/IndexJump.lean ====
section
/-! PROOFS. Load index and the indexed jump (spec/44_index_jump_random.md): which words they are, and the address each of
them writes. -/

namespace Sys2Proof

theorem decodeWord_ldIndex (has : Bool) {op : Opcode} (hf : fieldF op = 0xA) :
    decodeWordWith has op = some (.ldIndex (fieldNNN op)) :=
  decodeWord_at 19 rfl (match_F hf)

theorem decodeWord_jpV0 (has : Bool) {op : Opcode} (hf : fieldF op = 0xB) :
    decodeWordWith has op = some (.jpV0 (fieldNNN op)) :=
  decodeWord_at 20 rfl (match_F hf)

end Sys2Proof

namespace Sys2Proof.Machine

theorem exec_ldIndex (nnn : BitVec 12) (s : State) :
    exec (.ldIndex nnn) s = .next (advance (setIndex (zextNNN nnn) s)) := rfl

theorem exec_jpV0 (nnn : BitVec 12) (s : State) : exec (.jpV0 nnn) s = .next (setPc (indexedTarget nnn s) s) := rfl

/-- R166: twelve bits and a byte never carry out of an address, so the target is the exact sum, not masked. -/
theorem indexedTarget_toNat (nnn : BitVec 12) (s : State) :
    (indexedTarget nnn s).toNat = nnn.toNat + (getV s 0).toNat := by
  have hv : ((getV s 0).setWidth 16).toNat = (getV s 0).toNat := BitVec.toNat_setWidth_of_le (by decide)
  have hlt : (zextNNN nnn).toNat + ((getV s 0).setWidth 16).toNat < 2 ^ 16 := by
    rw [zextNNN_toNat, hv]
    omega
  rw [indexedTarget, BitVec.toNat_add_of_lt hlt, zextNNN_toNat, hv]

/-- Settles O30: the decoder's two clauses, then ANNN as one write of `I` and an advance, and BNNN as one `setPc` to the
exact sum. -/
theorem ldIndexAndIndexedJump : Obligations.LdIndexAndIndexedJump := by
  refine ⟨fun has _ => decodeWord_ldIndex has, fun has _ => decodeWord_jpV0 has, fun nnn s => ⟨?load, ?jump⟩⟩
  case load =>
    exact ⟨_, exec_ldIndex nnn s, zextNNN_toNat nnn, rfl, keepsAllBut_seq (setIndex_keeps _ s) (advance_keeps _)⟩
  case jump => exact ⟨_, exec_jpV0 nnn s, indexedTarget_toNat nnn s, setPc_keeps _ s⟩

end Sys2Proof.Machine
end

