-- ==== Sys2Proof/Proofs/DrawDisplay.lean ====
section
/-! PROOFS. The sprite draw over a reference display (spec/45_draw.md R173): no cell is plotted twice, so a conforming host
answers each call of one `DXYN` from the display as it stood before the instruction. -/

namespace Sys2Proof.Machine

/-! A sprite plots no cell twice: its columns differ modulo 64, its rows modulo 32 -/

/-- R172: wrapped or clipped, a plotted cell's coordinates are the pixel's, modulo the display's size. -/
theorem plotTarget_coords {wrap : Bool} {px py : Nat} {p : Addr × Addr} (h : plotTarget wrap px py = some p) :
    p.1.toNat = px % 64 ∧ p.2.toNat = py % 32 := by
  rw [plotTarget_eq_some] at h
  split at h
  next => exact h
  next =>
    obtain ⟨hx, hy, h1, h2⟩ := h
    exact ⟨h1.trans (Nat.mod_eq_of_lt hx).symm, h2.trans (Nat.mod_eq_of_lt hy).symm⟩

theorem rowPixels_row {wrap : Bool} {x0 py : Nat} {byte : Byte} {p : Addr × Addr}
    (h : p ∈ rowPixels wrap x0 py byte) : p.2.toNat = py % 32 := by
  obtain ⟨col, -, hcol⟩ := List.mem_filterMap.mp h
  exact (plotTarget_coords (Option.ite_none_right_eq_some.mp hcol).2).2

theorem rowPixels_nodup (wrap : Bool) (x0 py : Nat) (byte : Byte) : (rowPixels wrap x0 py byte).Nodup := by
  refine List.pairwise_filterMap.mpr (List.nodup_range.imp_of_mem ?_)
  intro col col' hcol hcol' hne p hp p' hp' hpp
  obtain ⟨-, ht⟩ := Option.ite_none_right_eq_some.mp hp
  obtain ⟨-, ht'⟩ := Option.ite_none_right_eq_some.mp hp'
  have hx := (plotTarget_coords ht).1
  have hx' := (plotTarget_coords ht').1
  rw [List.mem_range] at hcol hcol'
  rw [hpp] at hx
  omega

theorem spritePixels_row {wrap : Bool} {x0 y0 : Nat} {bytes : List Byte} {p : Addr × Addr}
    (h : p ∈ spritePixels wrap x0 y0 bytes) : ∃ row < bytes.length, p.2.toNat = (y0 + row) % 32 := by
  induction bytes generalizing y0 with
  | nil => exact absurd h List.not_mem_nil
  | cons byte rest ih =>
    rcases List.mem_append.mp h with hfirst | hrest
    · exact ⟨0, Nat.zero_lt_succ _, rowPixels_row hfirst⟩
    · obtain ⟨row, hrow, hp⟩ := ih hrest
      exact ⟨row + 1, Nat.succ_lt_succ hrow, by rw [hp, Nat.add_right_comm, Nat.add_assoc]⟩

theorem spritePixels_nodup (wrap : Bool) (x0 y0 : Nat) {bytes : List Byte} (hlen : bytes.length ≤ 32) :
    (spritePixels wrap x0 y0 bytes).Nodup := by
  induction bytes generalizing y0 with
  | nil => exact List.nodup_nil
  | cons byte rest ih =>
    rw [List.length_cons] at hlen
    refine List.nodup_append.mpr ⟨rowPixels_nodup .., ih _ (by omega), fun p hp q hq hpq => ?_⟩
    obtain ⟨row, hrow, hrest⟩ := spritePixels_row hq
    have hfirst := rowPixels_row hp
    rw [hpq] at hfirst
    omega

theorem spriteBytes_length (n : BitVec 4) (s : State) : (spriteBytes n s).length = n.toNat := by
  rw [spriteBytes, Memory.readList, List.length_map, List.length_range]

theorem drawTargets_nodup (x y : Reg) (n : BitVec 4) (s : State) : (drawTargets x y n s).Nodup :=
  spritePixels_nodup _ _ _ (by rw [spriteBytes_length]; omega)

/-! What `DXYN` answers -/

/-- The `DrawPixel` calls for the cells `ps`, answered in order by `answers`. -/
def drawCalls (callback : Nat) (ps : List (Addr × Addr)) (answers : List Bool) : List HostEvent :=
  List.zipWith (fun p c => HostEvent.drawPixel callback p.1 p.2 c) ps answers

@[simp] theorem drawCalls_nil (callback : Nat) (answers : List Bool) : drawCalls callback [] answers = [] := rfl

@[simp] theorem drawCalls_cons (callback : Nat) (p : Addr × Addr) (ps : List (Addr × Addr)) (c : Bool)
    (answers : List Bool) :
    drawCalls callback (p :: ps) (c :: answers) = .drawPixel callback p.1 p.2 c :: drawCalls callback ps answers := rfl

/-- R170: inside memory, `DXYN` clears `VF`, plots, sets `VF` on a collision and presents. -/
theorem exec_drw_of_inside {x y : Reg} {n : BitVec 4} {s : State} (h : SpanInside (baseAddr s) n.toNat) :
    exec (.drw x y n) s = .next (advance (callScreen false true
      (if (plotAll (drawTargets x y n s) (setFlag false s)).1 then
        setFlag true (plotAll (drawTargets x y n s) (setFlag false s)).2
      else (plotAll (drawTargets x y n s) (setFlag false s)).2))) := if_pos h

theorem exec_drw_of_outside {x y : Reg} {n : BitVec 4} {s : State} (h : ¬ SpanInside (baseAddr s) n.toNat) :
    exec (.drw x y n) s = .fault .memOutOfRange := if_neg h

/-- R170, R173: a `DXYN` that completes has called `DrawPixel` for each plotted cell, then `Screen`; `VF` says whether some
answer was a collision. -/
theorem exec_drw_next {x y : Reg} {n : BitVec 4} {s t : State} (h : exec (.drw x y n) s = .next t) :
    ∃ answers : List Bool, answers.length = (drawTargets x y n s).length ∧
      t.trace = s.trace ++ (drawCalls s.callbacks.drawPixel (drawTargets x y n s) answers ++
        [.screen s.callbacks.screen false true]) ∧
      getV t 15 = if answers.any id then 1 else 0 := by
  obtain ⟨answers, hlen, hhit, htrace, -⟩ := plotAll_spec (drawTargets x y n s) (setFlag false s)
  have hvf : getV (plotAll (drawTargets x y n s) (setFlag false s)).2 15 = 0 :=
    (getV_congr (plotAll_v _ _) 15).trans (getV_setV_same _ _ _)
  have hcallbacks : (plotAll (drawTargets x y n s) (setFlag false s)).2.callbacks = s.callbacks :=
    plotAll_keeps _ _ .callbacks (by decide)
  by_cases hspan : SpanInside (baseAddr s) n.toNat
  · obtain rfl := Host.Outcome.next.inj ((exec_drw_of_inside hspan).symm.trans h)
    generalize plotAll (drawTargets x y n s) (setFlag false s) = r at *
    refine ⟨answers, hlen, ?trace, ?flag⟩
    case trace => cases r.1 <;> simp [drawCalls, htrace, hcallbacks]
    case flag => rw [← hhit]; cases r.1 <;> simp [hvf]
  · cases (exec_drw_of_outside hspan).symm.trans h

/-! The calls of one draw over a reference display -/

theorem displayAfter_append (d : Display) (es fs : List HostEvent) :
    displayAfter d (es ++ fs) = displayAfter (displayAfter d es) fs := List.foldl_append

theorem keepsDisplay_of_append {d : Display} {es fs : List HostEvent} (h : KeepsDisplay d (es ++ fs)) :
    KeepsDisplay d es := by
  induction es generalizing d with
  | nil => trivial
  | cons e es ih => exact ⟨h.1, ih h.2⟩

/-- R250: a `DrawPixel` call leaves every other cell as it was. -/
theorem displayStep_drawPixel_of_ne {p q : Addr × Addr} (h : q ≠ p) (d : Display) (callback : Nat) (c : Bool) :
    displayStep d (.drawPixel callback p.1 p.2 c) q = d q := if_neg h

theorem displayStep_drawPixel_same (p : Addr × Addr) (d : Display) (callback : Nat) (c : Bool) :
    displayStep d (.drawPixel callback p.1 p.2 c) p = !d p := if_pos rfl

/-- R173: where no cell is plotted twice, a conforming host answers every call from the display before the first. -/
theorem answers_of_keepsDisplay {callback : Nat} {ps : List (Addr × Addr)} {answers : List Bool} {d : Display}
    (hnd : ps.Nodup) (hlen : answers.length = ps.length) (h : KeepsDisplay d (drawCalls callback ps answers)) :
    answers = ps.map d := by
  induction ps generalizing answers d with
  | nil => exact List.length_eq_zero_iff.mp hlen
  | cons p ps ih =>
    obtain ⟨hp, hnd⟩ := List.nodup_cons.mp hnd
    cases answers with
    | nil => cases hlen
    | cons c answers =>
      obtain ⟨hc, hrest⟩ := h
      rw [List.map_cons, ih hnd (Nat.succ.inj hlen) hrest]
      refine congrArg₂ _ hc (List.map_congr_left fun q hq => displayStep_drawPixel_of_ne ?_ ..)
      exact fun e => hp (e ▸ hq)

/-- R250: where no cell is plotted twice, the calls flip exactly the plotted cells. -/
theorem displayAfter_drawCalls (callback : Nat) {ps : List (Addr × Addr)} {answers : List Bool}
    (hnd : ps.Nodup) (hlen : answers.length = ps.length) (d : Display) (q : Addr × Addr) :
    displayAfter d (drawCalls callback ps answers) q = (d q != decide (q ∈ ps)) := by
  induction ps generalizing answers d with
  | nil => simp [displayAfter]
  | cons p ps ih =>
    obtain ⟨hp, hnd⟩ := List.nodup_cons.mp hnd
    cases answers with
    | nil => cases hlen
    | cons c answers =>
      rw [drawCalls_cons]
      refine (ih hnd (Nat.succ.inj hlen) _).trans ?_
      by_cases hq : q = p
      · subst hq
        simp [displayStep_drawPixel_same, hp]
      · simp [displayStep_drawPixel_of_ne hq, hq]

/-- Settles O35: no cell is plotted twice, so the host's answers are the cells' values in `d`, and the calls flip each
plotted cell once; the final `Screen` asks for no clear. -/
theorem drawOnReferenceDisplay : Obligations.DrawOnReferenceDisplay := by
  intro x y n s t d es hexec htrace hkeeps
  have hnd := drawTargets_nodup x y n s
  obtain ⟨answers, hlen, htrace', hvf⟩ := exec_drw_next hexec
  obtain rfl := List.append_cancel_left (htrace.symm.trans htrace')
  obtain rfl := answers_of_keepsDisplay hnd hlen (keepsDisplay_of_append hkeeps)
  rw [hvf, List.any_map]
  refine ⟨hnd, ?bit, ?collision, fun p => ?display⟩
  case bit => split <;> simp
  case collision => simp
  case display =>
    rw [displayAfter_append]
    exact displayAfter_drawCalls _ hnd hlen d p

end Sys2Proof.Machine
end

