-- ==== Sys2Proof/Proofs/Misc.lean ====
section
/-! PROOFS. The timer registers, the decimal digits and the block transfers of family F (spec/47_fx_misc.md): which words
they are, the states they answer on each side of the end of memory, and what those states hold. -/

namespace Sys2Proof

theorem decodeWord_ldVxDt (has : Bool) {op : Opcode} (hf : fieldF op = 0xF) (hn : fieldNN op = 0x07) :
    decodeWordWith has op = some (.ldVxDt (fieldX op)) :=
  decodeWord_at 25 rfl (match_FNN hf hn)

theorem decodeWord_ldDtVx (has : Bool) {op : Opcode} (hf : fieldF op = 0xF) (hn : fieldNN op = 0x15) :
    decodeWordWith has op = some (.ldDtVx (fieldX op)) :=
  decodeWord_at 27 rfl (match_FNN hf hn)

theorem decodeWord_ldStVx (has : Bool) {op : Opcode} (hf : fieldF op = 0xF) (hn : fieldNN op = 0x18) :
    decodeWordWith has op = some (.ldStVx (fieldX op)) :=
  decodeWord_at 28 rfl (match_FNN hf hn)

theorem decodeWord_ldBcd (has : Bool) {op : Opcode} (hf : fieldF op = 0xF) (hn : fieldNN op = 0x33) :
    decodeWordWith has op = some (.ldBcd (fieldX op)) :=
  decodeWord_at 31 rfl (match_FNN hf hn)

theorem decodeWord_storeRegs (has : Bool) {op : Opcode} (hf : fieldF op = 0xF) (hn : fieldNN op = 0x55) :
    decodeWordWith has op = some (.storeRegs (fieldX op)) :=
  decodeWord_at 32 rfl (match_FNN hf hn)

theorem decodeWord_loadRegs (has : Bool) {op : Opcode} (hf : fieldF op = 0xF) (hn : fieldNN op = 0x65) :
    decodeWordWith has op = some (.loadRegs (fieldX op)) :=
  decodeWord_at 33 rfl (match_FNN hf hn)

end Sys2Proof

namespace Sys2Proof.Machine

/-! The timers -/

theorem exec_ldVxDt (x : Reg) (s : State) : exec (.ldVxDt x) s = .next (advance (setV x s.delay s)) := rfl

theorem exec_ldDtVx (x : Reg) (s : State) : exec (.ldDtVx x) s = .next (advance { s with delay := getV s x }) := rfl

theorem exec_ldStVx (x : Reg) (s : State) : exec (.ldStVx x) s = .next (advance { s with sound := getV s x }) := rfl

theorem setDelay_keeps (b : Byte) (s : State) : keepsAllBut [.delay] s { s with delay := b } := by
  intro p hp
  cases p <;> simp_all [samePart, getV, readByte]

theorem setSound_keeps (b : Byte) (s : State) : keepsAllBut [.sound] s { s with sound := b } := by
  intro p hp
  cases p <;> simp_all [samePart, getV, readByte]

/-- R206: the timer step counts `SOUND` down, pending clear or not. -/
theorem timerStep_sound (s : State) : (timerStep s).sound = countDown s.sound := by
  unfold timerStep deliverClear
  split <;> rfl

/-- R206: after the timer step `sound_active` says whether the new `SOUND` is nonzero. -/
theorem timerStep_soundActive (s : State) : (timerStep s).soundActive = (countDown s.sound != 0) := by
  unfold timerStep deliverClear
  split <;> rfl

/-- R188: a `SOUND` of 1 is over at the next timer step. -/
theorem timerStep_of_sound_eq_one {s : State} (h : s.sound = 1) :
    (timerStep s).sound = 0 ∧ (timerStep s).soundActive = false := by
  rw [timerStep_sound, timerStep_soundActive, h]
  decide

/-- Settles O38: the decoder's three clauses, then each instruction as one write and an advance; a sound time of 1 ends at
the next timer step by `timerStep_of_sound_eq_one`. -/
theorem timerRegisters : Obligations.TimerRegisters := by
  refine ⟨fun has _ => decodeWord_ldVxDt has, fun has _ => decodeWord_ldDtVx has, fun has _ => decodeWord_ldStVx has,
    fun x s => ⟨?readDelay, ?writeDelay, ?writeSound⟩⟩
  case readDelay => exact completes_of_exec_eq_advance_setV (exec_ldVxDt x s)
  case writeDelay =>
    exact ⟨_, exec_ldDtVx x s, rfl, rfl, keepsAllBut_seq (setDelay_keeps _ s) (advance_keeps _)⟩
  case writeSound =>
    exact ⟨_, exec_ldStVx x s, rfl, rfl, keepsAllBut_seq (setSound_keeps _ s) (advance_keeps _),
      fun hone => timerStep_of_sound_eq_one hone⟩

/-! The range check, and bytes read after a store -/

/-- R73: `n + 1` bytes lie inside memory exactly where the last one does. -/
theorem spanInside_succ_iff {a n : Nat} : SpanInside a (n + 1) ↔ a + n ≤ 4095 := by
  have := memSize_eq
  simp only [SpanInside]
  omega

theorem readByte_storeBytes_inside {a k : Nat} {bs : List Byte} {s : State} (hwf : Memory.wf s.params s.mem)
    (ha : a + bs.length ≤ Config.memSize) (hk : k < bs.length) :
    readByte (storeBytes a bs s) (a + k) = bs.getD k 0 :=
  Memory.read_writeList_inside bs hwf ha hk

theorem readByte_storeBytes_outside {a k : Nat} {bs : List Byte} (h : k < a ∨ a + bs.length ≤ k) (s : State) :
    readByte (storeBytes a bs s) k = readByte s k :=
  Memory.read_writeList_outside bs h

/-! The decimal digits -/

theorem exec_ldBcd_of_inside {x : Reg} {s : State} (h : s.index.toNat + 2 ≤ 4095) :
    exec (.ldBcd x) s = .next (advance (storeBytes (baseAddr s) (bcdDigits (getV s x)) s)) :=
  if_pos (spanInside_succ_iff.mpr h)

theorem exec_ldBcd_of_outside {x : Reg} {s : State} (h : s.index.toNat + 2 > 4095) :
    exec (.ldBcd x) s = .fault .memOutOfRange :=
  if_neg (spanInside_succ_iff.not.mpr h.not_ge)

@[simp] theorem bcdDigits_length (b : Byte) : (bcdDigits b).length = 3 := rfl

/-- R191: no digit loses a bit in its byte. -/
theorem bcdDigits_map_toNat (b : Byte) :
    (bcdDigits b).map BitVec.toNat = [b.toNat / 100, b.toNat / 10 % 10, b.toNat % 10] := by
  have := b.isLt
  simp only [bcdDigits, List.map_cons, List.map_nil, BitVec.toNat_ofNat, List.cons.injEq, and_true]
  omega

theorem bcdDigits_getD_toNat (b : Byte) (k : Nat) :
    ((bcdDigits b).getD k 0).toNat = [b.toNat / 100, b.toNat / 10 % 10, b.toNat % 10].getD k 0 := by
  rw [← bcdDigits_map_toNat]
  exact (List.getD_map _ 0 BitVec.toNat).symm

/-- R191: the byte `k` places after `I` is digit `k` of `V[X]`, hundreds first. -/
theorem readByte_storeBytes_bcdDigits {s : State} (hwf : Memory.wf s.params s.mem) (hin : s.index.toNat + 2 ≤ 4095)
    (b : Byte) {k : Nat} (hk : k < 3) :
    (readByte (storeBytes (baseAddr s) (bcdDigits b) s) (s.index.toNat + k)).toNat =
      [b.toNat / 100, b.toNat / 10 % 10, b.toNat % 10].getD k 0 := by
  rw [← bcdDigits_getD_toNat]
  have hlen : baseAddr s + (bcdDigits b).length ≤ Config.memSize := Nat.succ_le_succ hin
  exact congrArg BitVec.toNat (readByte_storeBytes_inside hwf hlen hk)

/-- Settles O41: the decoder's clause, then the digits by division on the one side of the range check, and the stop on the
other. -/
theorem bcdStoresDigits : Obligations.BcdStoresDigits := by
  refine ⟨fun has _ => decodeWord_ldBcd has, fun x s => ⟨fun hwf hin => ?_, exec_ldBcd_of_outside⟩⟩
  have hdigit := fun k => readByte_storeBytes_bcdDigits hwf hin (getV s x) (k := k)
  refine ⟨_, exec_ldBcd_of_inside hin, (getV s x).toNat / 100, (getV s x).toNat / 10 % 10, (getV s x).toNat % 10,
    by omega, by omega, by omega, by omega, hdigit 0 (by decide), hdigit 1 (by decide), hdigit 2 (by decide),
    fun a ha => readByte_storeBytes_outside ha s, rfl, keepsAllBut_seq (storeBytes_keeps _ _ s) (advance_keeps _)⟩

/-! `I` after a block transfer, and what the transfer leaves when it moves `I` -/

@[simp] theorem bumpIndex_pc (x : Reg) (s : State) : (bumpIndex x s).pc = s.pc := bumpIndex_keeps x s .pc (by decide)

@[simp] theorem getV_bumpIndex (x : Reg) (s : State) (r : Reg) : getV (bumpIndex x s) r = getV s r :=
  bumpIndex_keeps x s .regs (by decide) r

@[simp] theorem readByte_bumpIndex (x : Reg) (s : State) (a : Nat) : readByte (bumpIndex x s) a = readByte s a :=
  bumpIndex_keeps x s .memory (by decide) a

/-- R195: a block that ends inside memory cannot carry `I` past 16 bits. -/
theorem indexAfterBlock_bumpIndex {x : Reg} {s : State} (hin : s.index.toNat + x.val ≤ 4095) :
    indexAfterBlock x s (bumpIndex x s) := by
  rw [indexAfterBlock, bumpIndex_eq, setIndex_index]
  split
  · rw [BitVec.toNat_ofNat, Nat.mod_eq_of_lt (by omega)]
  · rfl

/-- R195: what a block transfer does last, once it has written a part `p` of the state that neither `I` nor `pc` nor the
quirks belong to. -/
theorem advance_bumpIndex_of_keepsAllBut {p : Part} {x : Reg} {s u : State} (h : keepsAllBut [p] s u)
    (hp : p ≠ .index ∧ p ≠ .pc ∧ p ≠ .quirks) (hin : s.index.toNat + x.val ≤ 4095) :
    indexAfterBlock x s (advance (bumpIndex x u)) ∧ (advance (bumpIndex x u)).pc = s.pc + 2 ∧
      keepsAllBut [.pc, p, .index] s (advance (bumpIndex x u)) := by
  obtain ⟨hindex, hpc, hquirks⟩ := hp
  have hi : u.index = s.index := h .index (by simpa using hindex.symm)
  have hc : u.pc = s.pc := h .pc (by simpa using hpc.symm)
  have hq : u.quirks = s.quirks := h .quirks (by simpa using hquirks.symm)
  refine ⟨?index, ?pc, ?frame⟩
  case index =>
    have := indexAfterBlock_bumpIndex (x := x) (s := u) (hi ▸ hin)
    rwa [indexAfterBlock, hi, hq] at this
  case pc => rw [advance_eq, setPc_pc, bumpIndex_pc, hc]
  case frame =>
    have hbump : keepsAllBut [p, .index] s (bumpIndex x u) :=
      keepsAllBut_seq h (bumpIndex_keeps x u) (by simp) (by simp)
    exact keepsAllBut_seq hbump (advance_keeps _) (by simp) (by simp)

/-! Storing a block -/

theorem exec_storeRegs_of_inside {x : Reg} {s : State} (h : s.index.toNat + x.val ≤ 4095) :
    exec (.storeRegs x) s = .next (advance (bumpIndex x (storeBytes (baseAddr s) (regsUpTo x s) s))) :=
  if_pos (spanInside_succ_iff.mpr h)

theorem exec_storeRegs_of_outside {x : Reg} {s : State} (h : s.index.toNat + x.val > 4095) :
    exec (.storeRegs x) s = .fault .memOutOfRange :=
  if_neg (spanInside_succ_iff.not.mpr h.not_ge)

@[simp] theorem regsUpTo_length (x : Reg) (s : State) : (regsUpTo x s).length = x.val + 1 := by
  rw [regsUpTo, List.length_take, Vector.length_toList, Nat.min_eq_left x.isLt]

theorem regsUpTo_getD {x r : Reg} (hr : r ≤ x) (s : State) : (regsUpTo x s).getD r.val 0 = getV s r := by
  have hlt : r.val < x.val + 1 := Nat.lt_succ_of_le hr
  simp [regsUpTo, getV, List.getD_eq_getElem?_getD, hlt]

/-- R193: the byte `r` places after `I` is `V[r]`. -/
theorem readByte_storeBytes_regsUpTo {x r : Reg} {s : State} (hwf : Memory.wf s.params s.mem)
    (hin : s.index.toNat + x.val ≤ 4095) (hr : r ≤ x) :
    readByte (storeBytes (baseAddr s) (regsUpTo x s) s) (s.index.toNat + r.val) = getV s r := by
  have hlen : baseAddr s + (regsUpTo x s).length ≤ Config.memSize := by
    rw [regsUpTo_length]
    exact Nat.succ_le_succ hin
  have hlt : r.val < (regsUpTo x s).length := by
    rw [regsUpTo_length]
    exact Nat.lt_succ_of_le hr
  rw [← regsUpTo_getD hr s]
  exact readByte_storeBytes_inside hwf hlen hlt

theorem readByte_storeBytes_regsUpTo_outside {x : Reg} {s : State} {a : Nat}
    (ha : a < baseAddr s ∨ baseAddr s + (x.val + 1) ≤ a) :
    readByte (storeBytes (baseAddr s) (regsUpTo x s) s) a = readByte s a :=
  readByte_storeBytes_outside (by rwa [regsUpTo_length]) s

/-- Settles O42: the decoder's clause, then the stored block byte by byte and `I` by
`advance_bumpIndex_of_keepsAllBut`, and the stop on the other side of the range check. -/
theorem storeRegsStoresTheBlock : Obligations.StoreRegsStoresTheBlock := by
  refine ⟨fun has _ => decodeWord_storeRegs has, fun x s => ⟨fun hwf hin => ?_, exec_storeRegs_of_outside⟩⟩
  refine ⟨_, exec_storeRegs_of_inside hin, fun r hr => ?inside, fun a ha => ?outside,
    advance_bumpIndex_of_keepsAllBut (storeBytes_keeps _ _ s) (by decide) hin⟩ <;>
    rw [advance_eq, readByte_setPc, readByte_bumpIndex]
  case inside => exact readByte_storeBytes_regsUpTo hwf hin hr
  case outside => exact readByte_storeBytes_regsUpTo_outside ha

/-! Loading a block -/

theorem exec_loadRegs_of_inside {x : Reg} {s : State} (h : s.index.toNat + x.val ≤ 4095) :
    exec (.loadRegs x) s = .next (advance (bumpIndex x { s with v := regsLoaded x s })) :=
  if_pos (spanInside_succ_iff.mpr h)

theorem exec_loadRegs_of_outside {x : Reg} {s : State} (h : s.index.toNat + x.val > 4095) :
    exec (.loadRegs x) s = .fault .memOutOfRange :=
  if_neg (spanInside_succ_iff.not.mpr h.not_ge)

theorem setRegs_keeps (v : Vector Byte 16) (s : State) : keepsAllBut [.regs] s { s with v := v } := by
  intro p hp
  cases p <;> simp_all [samePart, readByte]

/-- R194: register by register, a loaded byte up to `X` and the old value above. -/
theorem getV_regsLoaded (x r : Reg) (s : State) :
    getV { s with v := regsLoaded x s } r = if r ≤ x then readByte s (s.index.toNat + r.val) else getV s r :=
  Vector.getElem_ofFn r.isLt

/-- Settles O43: the decoder's clause, then the loaded registers one by one and `I` by
`advance_bumpIndex_of_keepsAllBut`, and the stop on the other side of the range check. -/
theorem loadRegsLoadsTheBlock : Obligations.LoadRegsLoadsTheBlock := by
  refine ⟨fun has _ => decodeWord_loadRegs has, fun x s => ⟨fun hin => ?_, exec_loadRegs_of_outside⟩⟩
  refine ⟨_, exec_loadRegs_of_inside hin, fun r => ?registers,
    advance_bumpIndex_of_keepsAllBut (setRegs_keeps _ s) (by decide) hin⟩
  rw [advance_eq, getV_setPc, getV_bumpIndex]
  exact getV_regsLoaded x r s

end Sys2Proof.Machine
end

