-- ==== Sys2Proof/Proofs/Decoding.lean ====
section
/-! PROOFS. The decoder and the encoder (spec/30_encoding.md): the words of the instructions that no file before this one
names, the two round trips, the disjoint rows of the table, and the words that are no instruction. -/

namespace Sys2Proof

/-! The words not named before -/

theorem decodeWord_call (has : Bool) {op : Opcode} (hf : fieldF op = 0x2) :
    decodeWordWith has op = some (.call (fieldNNN op)) :=
  decodeWord_at 3 rfl (match_F hf)

theorem decodeWord_subReg (has : Bool) {op : Opcode} (hf : fieldF op = 0x8) (hn : fieldN op = 5) :
    decodeWordWith has op = some (.subReg (fieldX op) (fieldY op)) :=
  decodeWord_at 14 rfl (match_FN hf hn)

theorem decodeWord_shr (has : Bool) {op : Opcode} (hf : fieldF op = 0x8) (hn : fieldN op = 6) :
    decodeWordWith has op = some (.shr (fieldX op) (fieldY op)) :=
  decodeWord_at 15 rfl (match_FN hf hn)

/-- R157: `8XY7` is the reverse subtraction of a machine that has it, and no instruction of one that has not. -/
theorem decodeWord_8XY7 (has : Bool) {op : Opcode} (hf : fieldF op = 0x8) (hn : fieldN op = 7) :
    decodeWordWith has op = if has = true then some (.subn (fieldX op) (fieldY op)) else none := by
  have hrow : opcodeRows[16]? = some ⟨0xF00F, 0x8007, fun op => .subn (fieldX op) (fieldY op)⟩ := rfl
  rw [decodeWordWith, find_of_matches opcodeRows_disjoint (List.mem_of_getElem? hrow) (match_FN hf hn)]
  exact Option.filter_some

theorem decodeWord_shl (has : Bool) {op : Opcode} (hf : fieldF op = 0x8) (hn : fieldN op = 0xE) :
    decodeWordWith has op = some (.shl (fieldX op) (fieldY op)) :=
  decodeWord_at 17 rfl (match_FN hf hn)

theorem decodeWord_rnd (has : Bool) {op : Opcode} (hf : fieldF op = 0xC) :
    decodeWordWith has op = some (.rnd (fieldX op) (fieldNN op)) :=
  decodeWord_at 21 rfl (match_F hf)

theorem decodeWord_drw (has : Bool) {op : Opcode} (hf : fieldF op = 0xD) :
    decodeWordWith has op = some (.drw (fieldX op) (fieldY op) (fieldN op)) :=
  decodeWord_at 22 rfl (match_F hf)

theorem decodeWord_skp (has : Bool) {op : Opcode} (hf : fieldF op = 0xE) (hn : fieldNN op = 0x9E) :
    decodeWordWith has op = some (.skp (fieldX op)) :=
  decodeWord_at 23 rfl (match_FNN hf hn)

theorem decodeWord_sknp (has : Bool) {op : Opcode} (hf : fieldF op = 0xE) (hn : fieldNN op = 0xA1) :
    decodeWordWith has op = some (.sknp (fieldX op)) :=
  decodeWord_at 24 rfl (match_FNN hf hn)

theorem decodeWord_ldVxKey (has : Bool) {op : Opcode} (hf : fieldF op = 0xF) (hn : fieldNN op = 0x0A) :
    decodeWordWith has op = some (.ldVxKey (fieldX op)) :=
  decodeWord_at 26 rfl (match_FNN hf hn)

theorem decodeWord_addIndex (has : Bool) {op : Opcode} (hf : fieldF op = 0xF) (hn : fieldNN op = 0x1E) :
    decodeWordWith has op = some (.addIndex (fieldX op)) :=
  decodeWord_at 29 rfl (match_FNN hf hn)

theorem decodeWord_ldFont (has : Bool) {op : Opcode} (hf : fieldF op = 0xF) (hn : fieldNN op = 0x29) :
    decodeWordWith has op = some (.ldFont (fieldX op)) :=
  decodeWord_at 30 rfl (match_FNN hf hn)

/-! Decoding what was encoded -/

/-- R110: the word of an instruction of the set decodes to it; its fields are the ones its format puts there. -/
theorem decodeWord_encode {has : Bool} {i : Instr} (hw : i.wellFormedWith has = true) :
    decodeWordWith has (encode i) = some i := by
  cases i with
  | cls => exact (decodeWord_eq_cls_iff has _).mpr rfl
  | ret => exact (decodeWord_eq_ret_iff has _).mpr rfl
  | jp nnn => simpa [encode] using decodeWord_jp has (fieldF_encNNN 0x1 nnn)
  | call nnn => simpa [encode] using decodeWord_call has (fieldF_encNNN 0x2 nnn)
  | seImm x nn => simpa [encode] using decodeWord_seImm has (fieldF_encXNN 0x3 x nn)
  | sneImm x nn => simpa [encode] using decodeWord_sneImm has (fieldF_encXNN 0x4 x nn)
  | seReg x y => simpa [encode] using decodeWord_family_5 has (fieldF_encXYN 0x5 x y 0x0)
  | ldImm x nn => simpa [encode] using decodeWord_ldImm has (fieldF_encXNN 0x6 x nn)
  | addImm x nn => simpa [encode] using decodeWord_addImm has (fieldF_encXNN 0x7 x nn)
  | ldReg x y => simpa [encode] using decodeWord_ldReg has (fieldF_encXYN 0x8 x y 0x0) (fieldN_encXYN ..)
  | orReg x y => simpa [encode] using decodeWord_orReg has (fieldF_encXYN 0x8 x y 0x1) (fieldN_encXYN ..)
  | andReg x y => simpa [encode] using decodeWord_andReg has (fieldF_encXYN 0x8 x y 0x2) (fieldN_encXYN ..)
  | xorReg x y => simpa [encode] using decodeWord_xorReg has (fieldF_encXYN 0x8 x y 0x3) (fieldN_encXYN ..)
  | addReg x y => simpa [encode] using decodeWord_addReg has (fieldF_encXYN 0x8 x y 0x4) (fieldN_encXYN ..)
  | subReg x y => simpa [encode] using decodeWord_subReg has (fieldF_encXYN 0x8 x y 0x5) (fieldN_encXYN ..)
  | shr x y => simpa [encode] using decodeWord_shr has (fieldF_encXYN 0x8 x y 0x6) (fieldN_encXYN ..)
  | subn x y =>
    rw [show has = true from hw]
    simpa [encode] using decodeWord_8XY7 true (fieldF_encXYN 0x8 x y 0x7) (fieldN_encXYN ..)
  | shl x y => simpa [encode] using decodeWord_shl has (fieldF_encXYN 0x8 x y 0xE) (fieldN_encXYN ..)
  | sneReg x y => simpa [encode] using decodeWord_family_9 has (fieldF_encXYN 0x9 x y 0x0)
  | ldIndex nnn => simpa [encode] using decodeWord_ldIndex has (fieldF_encNNN 0xA nnn)
  | jpV0 nnn => simpa [encode] using decodeWord_jpV0 has (fieldF_encNNN 0xB nnn)
  | rnd x nn => simpa [encode] using decodeWord_rnd has (fieldF_encXNN 0xC x nn)
  | drw x y n => simpa [encode] using decodeWord_drw has (fieldF_encXYN 0xD x y n)
  | skp x => simpa [encode] using decodeWord_skp has (fieldF_encXNN 0xE x 0x9E) (fieldNN_encXNN ..)
  | sknp x => simpa [encode] using decodeWord_sknp has (fieldF_encXNN 0xE x 0xA1) (fieldNN_encXNN ..)
  | ldVxDt x => simpa [encode] using decodeWord_ldVxDt has (fieldF_encXNN 0xF x 0x07) (fieldNN_encXNN ..)
  | ldVxKey x => simpa [encode] using decodeWord_ldVxKey has (fieldF_encXNN 0xF x 0x0A) (fieldNN_encXNN ..)
  | ldDtVx x => simpa [encode] using decodeWord_ldDtVx has (fieldF_encXNN 0xF x 0x15) (fieldNN_encXNN ..)
  | ldStVx x => simpa [encode] using decodeWord_ldStVx has (fieldF_encXNN 0xF x 0x18) (fieldNN_encXNN ..)
  | addIndex x => simpa [encode] using decodeWord_addIndex has (fieldF_encXNN 0xF x 0x1E) (fieldNN_encXNN ..)
  | ldFont x => simpa [encode] using decodeWord_ldFont has (fieldF_encXNN 0xF x 0x29) (fieldNN_encXNN ..)
  | ldBcd x => simpa [encode] using decodeWord_ldBcd has (fieldF_encXNN 0xF x 0x33) (fieldNN_encXNN ..)
  | storeRegs x => simpa [encode] using decodeWord_storeRegs has (fieldF_encXNN 0xF x 0x55) (fieldNN_encXNN ..)
  | loadRegs x => simpa [encode] using decodeWord_loadRegs has (fieldF_encXNN 0xF x 0x65) (fieldNN_encXNN ..)

/-- R95, R107: two bytes of a word that decodes are taken from the list, and no more. -/
theorem decodeWith_bytesOfWord {has : Bool} {op : Opcode} {i : Instr} (h : decodeWordWith has op = some i)
    (rest : List Byte) : decodeWith has (bytesOfWord op ++ rest) = .ok (i, rest) := by
  simp [bytesOfWord, decodeWith, h]

/-- Settles O10: the fields of an instruction's word are its operands, instruction by instruction in `decodeWord_encode`,
and the two bytes of the word put together are the word. -/
theorem decodeOfEncode : Obligations.DecodeOfEncode :=
  fun _ _ hw => ⟨decodeWord_encode hw, decodeWith_bytesOfWord (decodeWord_encode hw)⟩

/-! Encoding what was decoded -/

/-- Is every word that matches the row the word of the instruction the row builds from it? -/
def EncodesBack (r : OpcodeRow) : Prop := ∀ op, rowMatches r op = true → encode (r.build op) = op

theorem encodesBack_fixed {v : Opcode} {i : Instr} (hv : encode i = v := by rfl) :
    EncodesBack ⟨0xFFFF, v, fun _ => i⟩ := by
  intro op hm
  rw [rowMatches, beq_iff_eq] at hm
  exact hv.trans (hm.symm.trans BitVec.and_allOnes)

theorem encodesBack_NNN {v : Opcode} {b : Opcode → Instr}
    (hb : ∀ op, encode (b op) = encNNN (fieldF v) (fieldNNN op) := by intro; rfl) : EncodesBack ⟨0xF000, v, b⟩ := by
  intro op hm
  rw [hb, ← fields_of_F000 hm, op_of_NNN]

theorem encodesBack_XNN {v : Opcode} {b : Opcode → Instr}
    (hb : ∀ op, encode (b op) = encXNN (fieldF v) (fieldX op) (fieldNN op) := by intro; rfl) :
    EncodesBack ⟨0xF000, v, b⟩ := by
  intro op hm
  rw [hb, ← fields_of_F000 hm, op_of_XNN]

theorem encodesBack_XYN {v : Opcode} {b : Opcode → Instr}
    (hb : ∀ op, encode (b op) = encXYN (fieldF v) (fieldX op) (fieldY op) (fieldN op) := by intro; rfl) :
    EncodesBack ⟨0xF000, v, b⟩ := by
  intro op hm
  rw [hb, ← fields_of_F000 hm, op_of_XYN]

theorem encodesBack_XY {v : Opcode} {b : Opcode → Instr}
    (hb : ∀ op, encode (b op) = encXYN (fieldF v) (fieldX op) (fieldY op) (fieldN v) := by intro; rfl) :
    EncodesBack ⟨0xF00F, v, b⟩ := by
  intro op hm
  obtain ⟨hf, hn⟩ := fields_of_F00F hm
  rw [hb, ← hf, ← hn, op_of_XYN]

theorem encodesBack_X {v : Opcode} {b : Opcode → Instr}
    (hb : ∀ op, encode (b op) = encXNN (fieldF v) (fieldX op) (fieldNN v) := by intro; rfl) :
    EncodesBack ⟨0xF0FF, v, b⟩ := by
  intro op hm
  obtain ⟨hf, hn⟩ := fields_of_F0FF hm
  rw [hb, ← hf, ← hn, op_of_XNN]

theorem opcodeRows1_encodeBack : ∀ r ∈ opcodeRows1, EncodesBack r := by
  simp only [opcodeRows1, List.forall_mem_cons, List.not_mem_nil, IsEmpty.forall_iff, implies_true, and_true]
  exact ⟨encodesBack_fixed, encodesBack_fixed, encodesBack_NNN, encodesBack_NNN, encodesBack_XNN, encodesBack_XNN,
    encodesBack_XY, encodesBack_XNN, encodesBack_XNN⟩

theorem opcodeRows2_encodeBack : ∀ r ∈ opcodeRows2, EncodesBack r := by
  simp only [opcodeRows2, List.forall_mem_cons, List.not_mem_nil, IsEmpty.forall_iff, implies_true, and_true]
  exact ⟨encodesBack_XY, encodesBack_XY, encodesBack_XY, encodesBack_XY, encodesBack_XY, encodesBack_XY,
    encodesBack_XY, encodesBack_XY, encodesBack_XY, encodesBack_XY⟩

theorem opcodeRows3_encodeBack : ∀ r ∈ opcodeRows3, EncodesBack r := by
  simp only [opcodeRows3, List.forall_mem_cons, List.not_mem_nil, IsEmpty.forall_iff, implies_true, and_true]
  exact ⟨encodesBack_NNN, encodesBack_NNN, encodesBack_XNN, encodesBack_XYN, encodesBack_X, encodesBack_X⟩

theorem opcodeRows4_encodeBack : ∀ r ∈ opcodeRows4, EncodesBack r := by
  simp only [opcodeRows4, List.forall_mem_cons, List.not_mem_nil, IsEmpty.forall_iff, implies_true, and_true]
  exact ⟨encodesBack_X, encodesBack_X, encodesBack_X, encodesBack_X, encodesBack_X, encodesBack_X, encodesBack_X,
    encodesBack_X, encodesBack_X⟩

/-- R100: every row fixes all the bits that are no operand. -/
theorem opcodeRows_encodeBack : ∀ r ∈ opcodeRows, EncodesBack r := by
  simp only [opcodeRows, List.forall_mem_append]
  exact ⟨⟨⟨opcodeRows1_encodeBack, opcodeRows2_encodeBack⟩, opcodeRows3_encodeBack⟩, opcodeRows4_encodeBack⟩

theorem encode_of_decodeWord {has : Bool} {op : Opcode} {i : Instr} (h : decodeWordWith has op = some i) :
    encode i = op ∧ i.wellFormedWith has = true := by
  obtain ⟨r, hr, hm, rfl, hw⟩ := row_of_decodeWord h
  exact ⟨opcodeRows_encodeBack r hr op hm, hw⟩

/-- Settles O11: the word matches a row, and every row encodes back what it builds. -/
theorem encodeOfDecode : Obligations.EncodeOfDecode := fun _ _ _ => encode_of_decodeWord

/-! The rows -/

/-- A word that matches one row matches no later one. -/
theorem not_matches_later {op : Opcode} {j k : Nat} {p q : OpcodeRow} (hjk : j < k) (hj : opcodeRows[j]? = some p)
    (hk : opcodeRows[k]? = some q) (hp : rowMatches p op = true) (hq : rowMatches q op = true) : False := by
  obtain ⟨hjl, rfl⟩ := List.getElem?_eq_some_iff.mp hj
  obtain ⟨hkl, rfl⟩ := List.getElem?_eq_some_iff.mp hk
  exact not_both_match (List.pairwise_iff_getElem.mp opcodeRows_disjoint j k hjl hkl hjk) op hp hq

/-- Settles O12: two different rows ask for different values of a bit that both fix. -/
theorem opcodeRowsDoNotOverlap : Obligations.OpcodeRowsDoNotOverlap := by
  intro op j k p q hj hk hp hq
  rcases lt_trichotomy j k with hlt | heq | hgt
  · exact (not_matches_later hlt hj hk hp hq).elim
  · exact heq
  · exact (not_matches_later hgt hk hj hq hp).elim

/-! The words that are no instruction -/

/-- R104: the classes of undecoded words, on the word's fields. -/
def Undecoded (has : Bool) (op : Opcode) : Prop :=
  (fieldF op = 0x0 ∧ op ≠ 0x00E0 ∧ op ≠ 0x00EE) ∨
  (fieldF op = 0x5 ∧ fieldN op ≠ 0) ∨
  (fieldF op = 0x8 ∧ fieldN op ∈ [0x8, 0x9, 0xA, 0xB, 0xC, 0xD, 0xF]) ∨
  (fieldF op = 0x8 ∧ fieldN op = 0x7 ∧ has = false) ∨
  (fieldF op = 0x9 ∧ fieldN op ≠ 0) ∨
  (fieldF op = 0xE ∧ fieldNN op ∉ [0x9E, 0xA1]) ∨
  (fieldF op = 0xF ∧ fieldNN op ∉ [0x07, 0x0A, 0x15, 0x18, 0x1E, 0x29, 0x33, 0x55, 0x65])

/-- The word of an instruction of the set is in none of the classes. -/
theorem not_undecoded_encode {has : Bool} {i : Instr} (hw : i.wellFormedWith has = true) :
    ¬ Undecoded has (encode i) := by
  cases i with
  | cls => simp [Undecoded, encode, fieldF]
  | ret => simp [Undecoded, encode, fieldF]
  | subn x y => simp [Undecoded, encode, show has = true from hw]
  | _ => simp [Undecoded, encode]

theorem family_cases (f : BitVec 4) :
    f ∈ [0x0, 0x5, 0x8, 0x9, 0xE, 0xF] ∨ f ∈ [0x1, 0x2, 0x3, 0x4, 0x6, 0x7, 0xA, 0xB, 0xC, 0xD] := by
  revert f
  decide

theorem lowDigit_cases (n : BitVec 4) :
    n ∈ [0x0, 0x1, 0x2, 0x3, 0x4, 0x5, 0x6, 0x7, 0xE] ∨ n ∈ [0x8, 0x9, 0xA, 0xB, 0xC, 0xD, 0xF] := by
  revert n
  decide

theorem decodeWord_ne_none {has : Bool} {op : Opcode} {i : Instr} (h : decodeWordWith has op = some i) :
    decodeWordWith has op ≠ none := by
  rw [h]
  exact Option.some_ne_none i

/-- The families 1 to 4, 6, 7 and A to D have no undecoded word. -/
theorem decodes_of_full_family (has : Bool) {op : Opcode}
    (hf : fieldF op ∈ [0x1, 0x2, 0x3, 0x4, 0x6, 0x7, 0xA, 0xB, 0xC, 0xD]) : decodeWordWith has op ≠ none := by
  simp only [List.mem_cons, List.not_mem_nil, or_false] at hf
  rcases hf with h | h | h | h | h | h | h | h | h | h
  · exact decodeWord_ne_none (decodeWord_jp has h)
  · exact decodeWord_ne_none (decodeWord_call has h)
  · exact decodeWord_ne_none (decodeWord_seImm has h)
  · exact decodeWord_ne_none (decodeWord_sneImm has h)
  · exact decodeWord_ne_none (decodeWord_ldImm has h)
  · exact decodeWord_ne_none (decodeWord_addImm has h)
  · exact decodeWord_ne_none (decodeWord_ldIndex has h)
  · exact decodeWord_ne_none (decodeWord_jpV0 has h)
  · exact decodeWord_ne_none (decodeWord_rnd has h)
  · exact decodeWord_ne_none (decodeWord_drw has h)

/-- An undecoded word of family 8 has a low digit that no row lists, or is `8XY7` on a machine without it. -/
theorem lowDigit_of_undecoded_8 {has : Bool} {op : Opcode} (hf : fieldF op = 0x8) (h : decodeWordWith has op = none) :
    fieldN op ∈ [0x8, 0x9, 0xA, 0xB, 0xC, 0xD, 0xF] ∨ fieldN op = 0x7 ∧ has = false := by
  rcases lowDigit_cases (fieldN op) with hn | hn
  · simp only [List.mem_cons, List.not_mem_nil, or_false] at hn
    rcases hn with hn | hn | hn | hn | hn | hn | hn | hn | hn
    · exact absurd h (decodeWord_ne_none (decodeWord_ldReg has hf hn))
    · exact absurd h (decodeWord_ne_none (decodeWord_orReg has hf hn))
    · exact absurd h (decodeWord_ne_none (decodeWord_andReg has hf hn))
    · exact absurd h (decodeWord_ne_none (decodeWord_xorReg has hf hn))
    · exact absurd h (decodeWord_ne_none (decodeWord_addReg has hf hn))
    · exact absurd h (decodeWord_ne_none (decodeWord_subReg has hf hn))
    · exact absurd h (decodeWord_ne_none (decodeWord_shr has hf hn))
    · rw [decodeWord_8XY7 has hf hn] at h
      exact .inr ⟨hn, by simpa using h⟩
    · exact absurd h (decodeWord_ne_none (decodeWord_shl has hf hn))
  · exact .inl hn

theorem lowByte_of_undecoded_E {has : Bool} {op : Opcode} (hf : fieldF op = 0xE) (h : decodeWordWith has op = none) :
    fieldNN op ∉ [0x9E, 0xA1] := by
  intro hn
  simp only [List.mem_cons, List.not_mem_nil, or_false] at hn
  rcases hn with hn | hn
  · exact decodeWord_ne_none (decodeWord_skp has hf hn) h
  · exact decodeWord_ne_none (decodeWord_sknp has hf hn) h

theorem lowByte_of_undecoded_F {has : Bool} {op : Opcode} (hf : fieldF op = 0xF) (h : decodeWordWith has op = none) :
    fieldNN op ∉ [0x07, 0x0A, 0x15, 0x18, 0x1E, 0x29, 0x33, 0x55, 0x65] := by
  intro hn
  simp only [List.mem_cons, List.not_mem_nil, or_false] at hn
  rcases hn with hn | hn | hn | hn | hn | hn | hn | hn | hn
  · exact decodeWord_ne_none (decodeWord_ldVxDt has hf hn) h
  · exact decodeWord_ne_none (decodeWord_ldVxKey has hf hn) h
  · exact decodeWord_ne_none (decodeWord_ldDtVx has hf hn) h
  · exact decodeWord_ne_none (decodeWord_ldStVx has hf hn) h
  · exact decodeWord_ne_none (decodeWord_addIndex has hf hn) h
  · exact decodeWord_ne_none (decodeWord_ldFont has hf hn) h
  · exact decodeWord_ne_none (decodeWord_ldBcd has hf hn) h
  · exact decodeWord_ne_none (decodeWord_storeRegs has hf hn) h
  · exact decodeWord_ne_none (decodeWord_loadRegs has hf hn) h

/-- A word that decodes to nothing is in the class of its family. -/
theorem undecoded_of_eq_none {has : Bool} {op : Opcode} (h : decodeWordWith has op = none) : Undecoded has op := by
  rcases family_cases (fieldF op) with hf | hf
  · simp only [List.mem_cons, List.not_mem_nil, or_false] at hf
    rcases hf with hf | hf | hf | hf | hf | hf
    · refine .inl ⟨hf, ?_, ?_⟩ <;> rintro rfl
      · exact decodeWord_ne_none ((decodeWord_eq_cls_iff has _).mpr rfl) h
      · exact decodeWord_ne_none ((decodeWord_eq_ret_iff has _).mpr rfl) h
    · rw [decodeWord_family_5 has hf] at h
      exact .inr (.inl ⟨hf, by simpa using h⟩)
    · rcases lowDigit_of_undecoded_8 hf h with hn | hn
      · exact .inr (.inr (.inl ⟨hf, hn⟩))
      · exact .inr (.inr (.inr (.inl ⟨hf, hn⟩)))
    · rw [decodeWord_family_9 has hf] at h
      exact .inr (.inr (.inr (.inr (.inl ⟨hf, by simpa using h⟩))))
    · exact .inr (.inr (.inr (.inr (.inr (.inl ⟨hf, lowByte_of_undecoded_E hf h⟩)))))
    · exact .inr (.inr (.inr (.inr (.inr (.inr ⟨hf, lowByte_of_undecoded_F hf h⟩)))))
  · exact absurd h (decodes_of_full_family has hf)

/-- Settles O13: a word that decodes is the word of an instruction of the set, which is in no class; and each family's
words outside its class decode by a row. -/
theorem undecodedWordsByFamily : Obligations.UndecodedWordsByFamily := by
  intro has op
  refine ⟨undecoded_of_eq_none, fun hclass => Option.eq_none_iff_forall_ne_some.mpr fun i hi => ?_⟩
  obtain ⟨rfl, hw⟩ := encode_of_decodeWord hi
  exact not_undecoded_encode hw hclass

/-- Settles O14: each clause is one run of the decoder. -/
theorem sampleWordsDecode : Obligations.SampleWordsDecode := by
  unfold Obligations.SampleWordsDecode
  decide

end Sys2Proof
end

