-- ==== Sys2Proof/Proofs/Frames.lean ====
section
/-! PROOFS. The frames of the instructions (spec/10_state.md R54, spec/20_memory.md R77, spec/60_exceptions.md R236): the
parts, the registers and the bytes each of them may write, and the four that may end the run. -/

namespace Sys2Proof.Machine

/-! The answers of the instructions that branch -/

/-- An instruction under a range check answers a next state only on the side that has one. -/
theorem next_of_guard {c : Prop} [Decidable c] {u t : State} {f : Fault}
    (h : (if c then .next u else .fault f : Host.Outcome State Fault Refusal) = .next t) : c ∧ t = u := by
  split at h
  · exact ⟨‹c›, (Host.Outcome.next.inj h).symm⟩
  · cases h

/-- An instruction that chooses between two next states answers one of them. -/
theorem next_of_choice {c : Prop} [Decidable c] {u v t : State}
    (h : (if c then .next u else .next v : Host.Outcome State Fault Refusal) = .next t) :
    (c ∧ t = u) ∨ (¬ c ∧ t = v) := by
  split at h
  · exact .inl ⟨‹c›, (Host.Outcome.next.inj h).symm⟩
  · exact .inr ⟨‹¬ c›, (Host.Outcome.next.inj h).symm⟩

/-- R121: RET faults on an empty stack and else pops. -/
theorem exec_ret_cases {s t : State} (h : exec .ret s = .next t) :
    t = raise (.stackUnderflow s.pc) s ∨
    ∃ k : Fin 16, s.sp.toNat = k.val + 1 ∧ t = setPc s.stack[k] (dropReturn s) := by
  by_cases hsp : s.sp = 0
  · exact .inl (Host.Outcome.next.inj ((exec_ret_of_empty hsp).symm.trans h)).symm
  · have hpos : s.sp.toNat ≠ 0 := fun h0 => hsp (BitVec.eq_of_toNat_eq h0)
    by_cases hslot : s.sp.toNat - 1 < 16
    · have hk : s.sp.toNat = (⟨s.sp.toNat - 1, hslot⟩ : Fin 16).val + 1 := by
        show s.sp.toNat = s.sp.toNat - 1 + 1
        omega
      exact .inr ⟨_, hk, (Host.Outcome.next.inj ((exec_ret_of_pop hk).symm.trans h)).symm⟩
    · change execRet s = .next t at h
      rw [execRet, if_neg hsp, dif_neg hslot] at h
      cases h

/-- R123: CALL faults on a full stack and else pushes and jumps. -/
theorem exec_call_cases {nnn : BitVec 12} {s t : State} (h : exec (.call nnn) s = .next t) :
    t = raise (.stackOverflow s.pc) s ∨
    ∃ hslot : s.sp.toNat < 16, t = setPc (zextNNN nnn) (pushReturn (s.pc + 2) s hslot) := by
  change execCall nnn s = .next t at h
  unfold execCall at h
  split at h
  · exact .inl (Host.Outcome.next.inj h).symm
  · split at h
    · exact .inr ⟨‹_›, (Host.Outcome.next.inj h).symm⟩
    · cases h

/-- R180 to R182: a skip on key state faults on an index of 16 or more, and else skips or not. -/
theorem exec_keySkip_cases {i : Instr} {x : Reg} {s t : State} (hi : i = .skp x ∨ i = .sknp x)
    (h : exec i s = .next t) :
    t = raise (.invalidKeyIndex (getV s x) (some s.pc)) s ∨ ∃ c, t = skipNextIf c s := by
  rcases hi with rfl | rfl
  · exact (next_of_choice h).imp And.right fun hskip => ⟨keyDown x s, hskip.2⟩
  · exact (next_of_choice h).imp And.right fun hskip => ⟨!keyDown x s, hskip.2⟩

/-- R186: the key wait changes nothing, or stores a key and goes on. -/
theorem exec_ldVxKey_cases {x : Reg} {s t : State} (h : exec (.ldVxKey x) s = .next t) :
    (s.keys = 0 ∧ t = s) ∨
    (s.keys ≠ 0 ∧ t = advance (setV x (BitVec.ofNat 8 (pickKey s).val) (useFresh true s))) := next_of_choice h

theorem exec_ldFont_next {x : Reg} {s t : State} (h : exec (.ldFont x) s = .next t) :
    t = advance (setIndex (glyphAddr s.params (getV s x).toNat) s) := by
  change execLdFont x s = .next t at h
  unfold execLdFont at h
  split at h
  · cases h
  · exact (Host.Outcome.next.inj h).symm

theorem exec_ldBcd_next {x : Reg} {s t : State} (h : exec (.ldBcd x) s = .next t) :
    SpanInside (baseAddr s) 3 ∧ t = advance (storeBytes (baseAddr s) (bcdDigits (getV s x)) s) := next_of_guard h

theorem exec_storeRegs_next {x : Reg} {s t : State} (h : exec (.storeRegs x) s = .next t) :
    SpanInside (baseAddr s) (x.val + 1) ∧
      t = advance (bumpIndex x (storeBytes (baseAddr s) (regsUpTo x s) s)) := next_of_guard h

theorem exec_loadRegs_next {x : Reg} {s t : State} (h : exec (.loadRegs x) s = .next t) :
    SpanInside (baseAddr s) (x.val + 1) ∧ t = advance (bumpIndex x { s with v := regsLoaded x s }) := next_of_guard h

/-- What `DXYN` answers inside memory: the flag, the calls for the plotted cells, and the presentation. -/
def drawn (x y : Reg) (n : BitVec 4) (s : State) : State :=
  advance (callScreen false true
    (if (plotAll (drawTargets x y n s) (setFlag false s)).1 then
      setFlag true (plotAll (drawTargets x y n s) (setFlag false s)).2
    else (plotAll (drawTargets x y n s) (setFlag false s)).2))

theorem exec_drw_eq_drawn {x y : Reg} {n : BitVec 4} {s : State} (h : SpanInside (baseAddr s) n.toNat) :
    exec (.drw x y n) s = .next (drawn x y n s) := exec_drw_of_inside h

theorem exec_drw_cases {x y : Reg} {n : BitVec 4} {s t : State} (h : exec (.drw x y n) s = .next t) :
    SpanInside (baseAddr s) n.toNat ∧ t = drawn x y n s := by
  by_cases hspan : SpanInside (baseAddr s) n.toNat
  · exact ⟨hspan, (Host.Outcome.next.inj ((exec_drw_eq_drawn hspan).symm.trans h)).symm⟩
  · cases (exec_drw_of_outside hspan).symm.trans h

/-! Parts -/

theorem setFlagIf_keeps (c : Bool) (s : State) : keepsAllBut [.regs] s (if c then setFlag true s else s) := by
  split
  · exact setV_keeps _ _ s
  · exact keepsAllBut_refl _ s

theorem callScreen_keeps (clear update : Bool) (s : State) : keepsAllBut [.trace] s (callScreen clear update s) :=
  note_keeps _ s

theorem drawn_keeps (x y : Reg) (n : BitVec 4) (s : State) :
    keepsAllBut [.pc, .regs, .collisions, .fresh, .trace] s (drawn x y n s) := by
  have hplot : keepsAllBut [.regs, .collisions, .fresh, .trace] s
      (plotAll (drawTargets x y n s) (setFlag false s)).2 :=
    keepsAllBut_seq (setV_keeps _ _ s) (plotAll_keeps _ _)
  have hflag : keepsAllBut [.regs, .collisions, .fresh, .trace] s _ :=
    keepsAllBut_seq hplot (setFlagIf_keeps (plotAll (drawTargets x y n s) (setFlag false s)).1 _)
  have hscreen : keepsAllBut [.regs, .collisions, .fresh, .trace] s _ :=
    keepsAllBut_seq hflag (callScreen_keeps false true _)
  exact keepsAllBut_seq hscreen (advance_keeps _)

/-- R54: an instruction writes its own parts alone. -/
theorem exec_keeps {i : Instr} {s t : State} (h : exec i s = .next t) : keepsAllBut (writtenParts i) s t := by
  cases i with
  | cls => cases h; exact keepsAllBut_seq (setClearPending_keeps true s) (advance_keeps _)
  | ret =>
    rcases exec_ret_cases h with rfl | ⟨k, -, rfl⟩
    · exact keepsAllBut_mono (raise_keeps _ s) (by decide)
    · exact keepsAllBut_seq (dropReturn_keeps s) (setPc_keeps _ _)
  | jp nnn | jpV0 nnn => cases h; exact setPc_keeps _ s
  | call nnn =>
    change keepsAllBut [.pc, .stackSlots, .sp, .running, .trace] s t
    rcases exec_call_cases h with rfl | ⟨hslot, rfl⟩
    · exact keepsAllBut_mono (raise_keeps _ s) (by decide)
    · exact keepsAllBut_seq (pushReturn_keeps _ s hslot) (setPc_keeps _ _)
  | seImm x nn | sneImm x nn | seReg x y | sneReg x y => cases h; exact skipNextIf_keeps _ s
  | ldImm x nn | addImm x nn | ldReg x y | ldVxDt x =>
    change keepsAllBut [.pc, .regs] s t
    cases h; exact keepsAllBut_seq (setV_keeps x _ s) (advance_keeps _)
  | orReg x y | andReg x y | xorReg x y =>
    cases h
    exact (advance_of_keepsAllBut_regs (keepsAllBut_trans (setV_keeps x _ s) (logicFlag_keeps _))).2
  | addReg x y | subReg x y | shr x y | subn x y | shl x y =>
    cases h; exact (advance_of_keepsAllBut_regs (setResultAndFlag_keeps x _ _ s)).2
  | ldIndex nnn =>
    change keepsAllBut [.pc, .index] s t
    cases h; exact keepsAllBut_seq (setIndex_keeps _ s) (advance_keeps _)
  | rnd x nn =>
    change keepsAllBut [.pc, .regs, .rands, .fresh, .trace] s t
    cases h
    have hreg : keepsAllBut [.regs, .rands, .fresh, .trace] s (setV x (randAnswer s &&& nn) (afterRand s)) :=
      keepsAllBut_seq (afterRand_keeps s) (setV_keeps x _ _)
    exact keepsAllBut_seq hreg (advance_keeps _)
  | drw x y n =>
    obtain ⟨-, rfl⟩ := exec_drw_cases h
    exact drawn_keeps x y n s
  | skp x | sknp x =>
    change keepsAllBut [.pc, .running, .trace] s t
    rcases exec_keySkip_cases (x := x) (by simp) h with rfl | ⟨_, rfl⟩
    · exact keepsAllBut_mono (raise_keeps _ s) (by decide)
    · exact keepsAllBut_mono (skipNextIf_keeps _ s) (by decide)
  | ldVxKey x =>
    change keepsAllBut [.pc, .regs, .fresh] s t
    rcases exec_ldVxKey_cases h with ⟨-, rfl⟩ | ⟨-, rfl⟩
    · exact keepsAllBut_refl _ _
    · have hreg : keepsAllBut [.regs, .fresh] s (setV x (BitVec.ofNat 8 (pickKey s).val) (useFresh true s)) :=
        keepsAllBut_seq (useFresh_keeps true s) (setV_keeps x _ _)
      exact keepsAllBut_seq hreg (advance_keeps _)
  | ldDtVx x =>
    change keepsAllBut [.pc, .delay] s t
    cases h; exact keepsAllBut_seq (setDelay_keeps _ s) (advance_keeps _)
  | ldStVx x =>
    change keepsAllBut [.pc, .sound] s t
    cases h; exact keepsAllBut_seq (setSound_keeps _ s) (advance_keeps _)
  | addIndex x =>
    change keepsAllBut [.pc, .regs, .index] s t
    cases h
    have hflag : keepsAllBut [.regs, .index] s (setFlag (indexOverflow x s) (setIndex (maskedIndexSum x s) s)) :=
      keepsAllBut_seq (setIndex_keeps _ s) (setV_keeps 15 _ _)
    exact keepsAllBut_seq hflag (advance_keeps _)
  | ldFont x =>
    change keepsAllBut [.pc, .index] s t
    obtain rfl := exec_ldFont_next h
    exact keepsAllBut_seq (setIndex_keeps _ s) (advance_keeps _)
  | ldBcd x =>
    change keepsAllBut [.pc, .memory] s t
    obtain ⟨-, rfl⟩ := exec_ldBcd_next h
    exact keepsAllBut_seq (storeBytes_keeps _ _ s) (advance_keeps _)
  | storeRegs x =>
    obtain ⟨hspan, rfl⟩ := exec_storeRegs_next h
    exact (advance_bumpIndex_of_keepsAllBut (storeBytes_keeps _ _ s) (by decide) (spanInside_succ_iff.mp hspan)).2.2
  | loadRegs x =>
    obtain ⟨hspan, rfl⟩ := exec_loadRegs_next h
    exact (advance_bumpIndex_of_keepsAllBut (setRegs_keeps _ s) (by decide) (spanInside_succ_iff.mp hspan)).2.2

/-- The parts that some instruction may write. -/
def execParts : List Part :=
  [.regs, .index, .pc, .stackSlots, .sp, .delay, .sound, .running, .clearPending, .memory, .rands, .collisions, .fresh,
    .trace]

/-- What no instruction writes: the parameters, `KEYS`, the quirks, `paused`, `sound_active`, the timestamps, the callbacks
and the host's calls, clock and reports. -/
theorem exec_keeps_execParts {i : Instr} {s t : State} (h : exec i s = .next t) : keepsAllBut execParts s t :=
  keepsAllBut_mono (exec_keeps h) (by cases i <;> simp [writtenParts, execParts])

/-- Settles O15: one frame an instruction, composed of the frames of the updates it makes. -/
theorem instructionsWriteOnlyTheirParts : Obligations.InstructionsWriteOnlyTheirParts := fun _ _ _ => exec_keeps

/-! Registers -/

theorem getV_logic_of_ne {x r : Reg} {s : State} (hx : r ≠ x) (hf : ¬ (r = 15 ∧ s.quirks.vfReset = true)) (b : Byte) :
    getV (advance (logicFlag (setV x b s))) r = getV s r := by
  rw [advance_eq, getV_setPc, getV_logicFlag, setV_quirks, if_neg hf, getV_setV_other hx]

theorem getV_resultAndFlag_of_ne {x r : Reg} (hx : r ≠ x) (hf : r ≠ 15) (b : Byte) (f : Bool) (s : State) :
    getV (advance (setResultAndFlag x b f s)) r = getV s r := by
  rw [advance_eq, getV_setPc, getV_setResultAndFlag, if_neg hf, if_neg hx]

/-- R175: the draw writes `VF` alone, whether some answer was a collision. -/
theorem getV_drawn (x y : Reg) (n : BitVec 4) (s : State) (q : Reg) :
    getV (drawn x y n s) q =
      if q = 15 then (if (plotAll (drawTargets x y n s) (setFlag false s)).1 then 1 else 0) else getV s q := by
  have hplot := getV_congr (plotAll_v (drawTargets x y n s) (setFlag false s))
  unfold drawn
  generalize plotAll (drawTargets x y n s) (setFlag false s) = r at *
  by_cases hq : q = 15 <;> cases r.1 <;> simp [getV_setV, hplot, hq]

/-- R31, R32: an instruction writes its destination, and `VF` where it sets the flag. -/
theorem exec_getV {i : Instr} {s t : State} {r : Reg} (h : exec i s = .next t) (hr : ¬ mayWriteReg i s r) :
    getV t r = getV s r := by
  cases i with
  | ldImm x nn | addImm x nn | ldReg x y | ldVxDt x => cases h; exact getV_setV_other hr _ s
  | rnd x nn => cases h; exact getV_setV_other hr _ (afterRand s)
  | ldVxKey x =>
    rcases exec_ldVxKey_cases h with ⟨-, rfl⟩ | ⟨-, rfl⟩
    · rfl
    · exact getV_setV_other hr _ (useFresh true s)
  | orReg x y | andReg x y | xorReg x y =>
    cases h
    obtain ⟨hx, hf⟩ := not_or.mp hr
    exact getV_logic_of_ne hx hf _
  | addReg x y | subReg x y | shr x y | subn x y | shl x y =>
    cases h
    obtain ⟨hx, hf⟩ := not_or.mp hr
    exact getV_resultAndFlag_of_ne hx hf _ _ s
  | drw x y n =>
    obtain ⟨-, rfl⟩ := exec_drw_cases h
    rw [getV_drawn, if_neg (show r ≠ 15 from hr)]
  | addIndex x => cases h; exact getV_setV_other hr _ (setIndex (maskedIndexSum x s) s)
  | loadRegs x =>
    obtain ⟨-, rfl⟩ := exec_loadRegs_next h
    rw [advance_eq, getV_setPc, getV_bumpIndex, getV_regsLoaded, if_neg (show ¬ r ≤ x from hr)]
  | _ => exact exec_keeps h .regs (by simp [writtenParts]) r

/-- Settles O16: an instruction whose parts hold no register keeps them all; each of the others writes the registers
`mayWriteReg` names. -/
theorem instructionsKeepOtherRegisters : Obligations.InstructionsKeepOtherRegisters := fun _ _ _ _ => exec_getV

/-! Memory -/

@[simp] theorem skipNextIf_mem (c : Bool) (s : State) : (skipNextIf c s).mem = s.mem := by
  rw [skipNextIf_eq, setPc_mem]

@[simp] theorem bumpIndex_mem (x : Reg) (s : State) : (bumpIndex x s).mem = s.mem := by
  rw [bumpIndex_eq, setIndex_mem]

@[simp] theorem logicFlag_mem (s : State) : (logicFlag s).mem = s.mem := by
  unfold logicFlag
  split <;> rfl

@[simp] theorem drawn_mem (x y : Reg) (n : BitVec 4) (s : State) : (drawn x y n s).mem = s.mem := by
  have hplot := plotAll_mem (drawTargets x y n s) (setFlag false s)
  unfold drawn
  generalize plotAll (drawTargets x y n s) (setFlag false s) = r at *
  cases r.1 <;> exact hplot

/-- From `s` to `t` one block of `n` bytes is stored from `I` on, inside memory, and nothing else. -/
def StoresBlock (n : Nat) (s t : State) : Prop :=
  ∃ bs : List Byte, bs.length = n ∧ SpanInside (baseAddr s) bs.length ∧
    t.mem = Memory.writeList s.params s.mem (baseAddr s) bs

theorem storesBlock_zero {s t : State} (h : t.mem = s.mem) : StoresBlock 0 s t := ⟨[], rfl, .inl rfl, h⟩

/-- R77: what an instruction stores. -/
theorem exec_stores {i : Instr} {s t : State} (h : exec i s = .next t) : StoresBlock (storedBytes i) s t := by
  cases i with
  | ldBcd x =>
    obtain ⟨hspan, rfl⟩ := exec_ldBcd_next h
    exact ⟨bcdDigits (getV s x), rfl, hspan, rfl⟩
  | storeRegs x =>
    obtain ⟨hspan, rfl⟩ := exec_storeRegs_next h
    exact ⟨regsUpTo x s, regsUpTo_length x s, by rwa [regsUpTo_length], bumpIndex_mem x _⟩
  | ret => rcases exec_ret_cases h with rfl | ⟨_, -, rfl⟩ <;> exact storesBlock_zero rfl
  | call nnn => rcases exec_call_cases h with rfl | ⟨_, rfl⟩ <;> exact storesBlock_zero rfl
  | skp x | sknp x =>
    rcases exec_keySkip_cases (x := x) (by simp) h with rfl | ⟨_, rfl⟩
    · exact storesBlock_zero rfl
    · exact storesBlock_zero (skipNextIf_mem _ s)
  | ldVxKey x => rcases exec_ldVxKey_cases h with ⟨-, rfl⟩ | ⟨-, rfl⟩ <;> exact storesBlock_zero rfl
  | ldFont x =>
    obtain rfl := exec_ldFont_next h
    exact storesBlock_zero rfl
  | loadRegs x =>
    obtain ⟨-, rfl⟩ := exec_loadRegs_next h
    exact storesBlock_zero (bumpIndex_mem x _)
  | drw x y n =>
    obtain ⟨-, rfl⟩ := exec_drw_cases h
    exact storesBlock_zero (drawn_mem x y n s)
  | seImm x nn | sneImm x nn | seReg x y | sneReg x y => cases h; exact storesBlock_zero (skipNextIf_mem _ s)
  | orReg x y | andReg x y | xorReg x y => cases h; exact storesBlock_zero (logicFlag_mem (setV x _ s))
  | _ => cases h; exact storesBlock_zero rfl

/-- Settles O17: what an instruction does to memory is one stored block, and a store leaves the bytes around it. -/
theorem instructionsKeepOtherMemory : Obligations.InstructionsKeepOtherMemory := by
  intro i s t a h ha
  obtain ⟨bs, hlen, -, hmem⟩ := exec_stores h
  have hparams : t.params = s.params := exec_keeps_execParts h .params (by decide)
  rw [readByte, readByte, hparams, hmem]
  exact Memory.read_writeList_outside bs (hlen ▸ ha)

/-! The end of the run -/

/-- R46, R236: an instruction leaves `running` as it is, or is one of the four that can fault and answers the entry of its
fault. -/
theorem exec_running_cases {i : Instr} {s t : State} (h : exec i s = .next t) :
    t.running = s.running ∨
    ((i = .ret ∨ (∃ nnn, i = .call nnn) ∨ (∃ x, i = .skp x) ∨ ∃ x, i = .sknp x) ∧
      ∃ f : HwFault, t = raise f s ∧ f.code ∈ [2, 3, 5]) := by
  cases i with
  | ret =>
    rcases exec_ret_cases h with rfl | ⟨_, -, rfl⟩
    · exact .inr ⟨.inl rfl, _, rfl, by simp [HwFault.code]⟩
    · exact .inl rfl
  | call nnn =>
    rcases exec_call_cases h with rfl | ⟨_, rfl⟩
    · exact .inr ⟨.inr (.inl ⟨nnn, rfl⟩), _, rfl, by simp [HwFault.code]⟩
    · exact .inl rfl
  | skp x | sknp x =>
    rcases exec_keySkip_cases (x := x) (by simp) h with rfl | ⟨_, rfl⟩
    · exact .inr ⟨by simp, _, rfl, by simp [HwFault.code]⟩
    · exact .inl (skipNextIf_keeps _ s .running (by decide))
  | _ => exact .inl (exec_keeps h .running (by simp [writtenParts]))

/-- Settles O18: an instruction that does not leave `running` as it is answers the entry of a fault, which changes
`running` and the trace alone. -/
theorem faultingInstructionChangesNothingElse : Obligations.FaultingInstructionChangesNothingElse := by
  intro i s t h hs ht
  rcases exec_running_cases h with hsame | ⟨hi, f, rfl, hcode⟩
  · simp [hs, ht] at hsame
  · exact ⟨hi, f, rfl, raise_trace f s, hcode, raise_keeps f s⟩

end Sys2Proof.Machine
end

