-- ==== Sys2Proof/Proofs/Tick.lean ====
section
/-! PROOFS. The scheduler (spec/49_scheduler.md): when each activity's turn runs it, what the poll and the timer step do,
the clock across a wrap, and what a tick as a whole may change. -/

namespace Sys2Proof.Machine

/-! The turns -/

theorem inputTurn_of_due {now : Time} {s : State} (hrun : s.running = true)
    (hdue : due s.params.clockBits now s.lastIn s.params.pIn = true) :
    inputTurn now s = inputPoll (stampIn now s) := by
  simp [inputTurn, hrun, hdue]

theorem inputTurn_of_not_due {now : Time} {s : State}
    (hdue : due s.params.clockBits now s.lastIn s.params.pIn = false) : inputTurn now s = s := by
  simp [inputTurn, hdue]

theorem timerTurn_of_due {now : Time} {s : State} (hrun : s.running = true)
    (hdue : due s.params.clockBits now s.lastTmr s.params.pTmr = true) :
    timerTurn now s = timerStep (stampTmr now s) := by
  simp [timerTurn, hrun, hdue]

theorem timerTurn_of_gated {now : Time} {s : State}
    (h : s.running = false ∨ due s.params.clockBits now s.lastTmr s.params.pTmr = false) : timerTurn now s = s := by
  rcases h with h | h <;> simp [timerTurn, h]

/-- The gates of the CPU step (R200, R212). -/
theorem cpuFires_iff {now : Time} {s : State} :
    cpuFires now s = true ↔
      s.running = true ∧ s.paused = false ∧ due s.params.clockBits now s.lastCpu s.params.pCpu = true := by
  simp [cpuFires, and_assoc]

theorem tick_of_halted {s : State} (h : s.running = false) : tick s = .next s := by
  simp [tick, h]

theorem tick_of_fires {s : State} (hrun : s.running = true) (hf : cpuFires (nowAnswer s) (beforeCpu s) = true) :
    tick s = executeOne (stampCpu (nowAnswer s) (beforeCpu s)) := by
  simp [tick, cpuTurn, hrun, hf]

theorem tick_of_not_fires {s : State} (hrun : s.running = true)
    (hf : cpuFires (nowAnswer s) (beforeCpu s) = false) : tick s = .next (beforeCpu s) := by
  simp [tick, cpuTurn, hrun, hf]

theorem step_of_tick {s : State} (h : nextOp s = .tick) : step s = tick (takeOp s) := by
  rw [step, h]
  rfl

/-- What a tick does up to the end of the input poll's turn. -/
theorem pollTurn_keeps (s : State) :
    keepsAllBut [.keys, .running, .paused, .lastIn, .hostTime, .clock, .polls, .fresh, .trace] s
      (inputTurn (nowAnswer s) (afterNow s)) :=
  keepsAllBut_seq (afterNow_keeps s) (inputTurn_keeps _ _)

/-- The tick's second turn finds `last_tmr` and the parameters as the tick found them. -/
theorem timer_due_congr (s : State) :
    due (inputTurn (nowAnswer s) (afterNow s)).params.clockBits (nowAnswer s)
        (inputTurn (nowAnswer s) (afterNow s)).lastTmr (inputTurn (nowAnswer s) (afterNow s)).params.pTmr =
      due s.params.clockBits (nowAnswer s) s.lastTmr s.params.pTmr := by
  have hp : _ = s.params := pollTurn_keeps s .params (by decide)
  have hl : _ = s.lastTmr := pollTurn_keeps s .lastTmr (by decide)
  rw [hp, hl]

/-- Either the timer step fires in its turn, or the turn changes nothing (R200). -/
theorem beforeCpu_cases (s : State) :
    ((inputTurn (nowAnswer s) (afterNow s)).running = true ∧
        due s.params.clockBits (nowAnswer s) s.lastTmr s.params.pTmr = true ∧
        beforeCpu s = timerStep (stampTmr (nowAnswer s) (inputTurn (nowAnswer s) (afterNow s)))) ∨
    (((inputTurn (nowAnswer s) (afterNow s)).running = false ∨
        due s.params.clockBits (nowAnswer s) s.lastTmr s.params.pTmr = false) ∧
      beforeCpu s = inputTurn (nowAnswer s) (afterNow s)) := by
  rw [← timer_due_congr]
  cases hrun : (inputTurn (nowAnswer s) (afterNow s)).running with
  | false => exact .inr ⟨.inl rfl, timerTurn_of_gated (.inl hrun)⟩
  | true =>
    cases hdue : due _ (nowAnswer s) (inputTurn (nowAnswer s) (afterNow s)).lastTmr _ with
    | false => exact .inr ⟨.inr rfl, timerTurn_of_gated (.inr hdue)⟩
    | true => exact .inl ⟨rfl, rfl, timerTurn_of_due hrun hdue⟩

/-- The CPU step's gates read `last_cpu` and the parameters as the tick found them. -/
theorem cpuFires_beforeCpu_iff (s : State) :
    cpuFires (nowAnswer s) (beforeCpu s) = true ↔
      (beforeCpu s).running = true ∧ (beforeCpu s).paused = false ∧
        due s.params.clockBits (nowAnswer s) s.lastCpu s.params.pCpu = true := by
  have hl : (beforeCpu s).lastCpu = s.lastCpu := beforeCpu_keeps s .lastCpu (by decide)
  rw [cpuFires_iff, beforeCpu_params, hl]

/-- Settles O45: the gate of the tick, and no call but a load touches `running`. -/
theorem haltedTickDoesNothing : Obligations.HaltedTickDoesNothing := by
  intro s hhalt
  have htick : tick (takeOp s) = .next (takeOp s) := tick_of_halted hhalt
  refine ⟨tick_of_halted hhalt, fun hop => (step_of_tick hop).trans htick, fun hload => ?_⟩
  cases hop : nextOp s with
  | load r => exact absurd hop (hload r)
  | tick => exact ⟨_, (step_of_tick hop).trans htick, hhalt⟩
  | isRunning => exact ⟨note (.runningIs s.running) (takeOp s), by rw [step, hop]; rfl, hhalt⟩
  | readSoundActive => exact ⟨note (.soundActiveIs s.soundActive) (takeOp s), by rw [step, hop]; rfl, hhalt⟩

/-- Settles O46: the step is the tick, the tick the CPU step, and the stamp of `last_cpu` moves neither the fetched word
nor the parameters. -/
theorem stepRunsDecodedInstruction : Obligations.StepRunsDecodedInstruction := by
  rintro s b i op hop hrun rfl hfires hfetch hdecode
  rw [step_of_tick hop, tick_of_fires (s := takeOp s) hrun hfires]
  refine executeOne_of_decoded (op := op) hfetch ?_
  rw [stampCpu_params, beforeCpu_params]
  exact hdecode

/-- Settles O48: each turn in order, by its gate. -/
theorem dueActivitiesRun : Obligations.DueActivitiesRun := by
  rintro s u now hrun rfl rfl
  refine ⟨fun hdue => inputTurn_of_due (s := afterNow s) hrun hdue,
    fun hdue => inputTurn_of_not_due (s := afterNow s) hdue, fun hu hdue => ?timer, fun h => ?noTimer,
    fun hb hp hdue => ?cpu, fun h => ?noCpu, step_of_tick⟩
  case timer => exact timerTurn_of_due hu ((timer_due_congr s).trans hdue)
  case noTimer => exact timerTurn_of_gated (h.imp_right (timer_due_congr s).trans)
  case cpu => exact tick_of_fires hrun ((cpuFires_beforeCpu_iff s).mpr ⟨hb, hp, hdue⟩)
  case noCpu =>
    refine tick_of_not_fires hrun (Bool.eq_false_iff.mpr fun hf => ?_)
    obtain ⟨hb, hp, hdue⟩ := (cpuFires_beforeCpu_iff s).mp hf
    simp [hb, hp, hdue] at h

/-- Settles O49: a halted or paused turn leaves the gates of the later turns shut, and what the turns before the CPU step
keep is `pollTurn_keeps` and `beforeCpu_keeps`. -/
theorem stopAndPauseGateTheTick : Obligations.StopAndPauseGateTheTick := by
  rintro s u hrun rfl
  refine ⟨fun hstop => ⟨?stop, pollTurn_keeps s⟩, fun hpause => ?pause, tick_of_not_fires hrun, beforeCpu_keeps s⟩
  case stop =>
    have hb : beforeCpu s = inputTurn (nowAnswer s) (afterNow s) := timerTurn_of_gated (.inl hstop)
    rw [tick_of_not_fires hrun (by simp [hb, cpuFires, hstop]), hb]
  case pause =>
    have hp : (beforeCpu s).paused = (inputTurn (nowAnswer s) (afterNow s)).paused :=
      timerTurn_keeps _ _ .paused (by decide)
    exact tick_of_not_fires hrun (by simp [cpuFires, hp, hpause])

/-! The CPU step -/

theorem executeOne_of_undecoded {s : State} {op : Opcode} (hf : fetchWord s = some op)
    (hd : decodeWordWith s.params.has8xy7 op = none) : executeOne s = .next (raise (.unknownOpcode op s.pc) s) := by
  simp only [executeOne, hf, hd]

/-- R73: a fetch leaves memory from `0xFFF` on. -/
theorem fetchWord_eq_none {s : State} (h : s.pc.toNat ≥ 0xFFF) : fetchWord s = none := by
  refine Option.eq_none_iff_forall_ne_some.mpr fun op hop => ?_
  have := (fetchWord_eq_some.mp hop).1
  omega

/-- Settles O8: the fetch answers a word exactly below `0xFFF`, and without a word the CPU step stops. -/
theorem fetchStopsOutsideMemory : Obligations.FetchStopsOutsideMemory := by
  refine fun s => ⟨fun h => ?_, fun h => ⟨_, fetchWord_eq_some.mpr ⟨by omega, rfl⟩⟩⟩
  simp only [executeOne, fetchWord_eq_none h]

/-- Settles O56: the fault is entered in the state before the CPU step. -/
theorem unknownOpcodeHalts : Obligations.UnknownOpcodeHalts :=
  fun s _ hf hd => ⟨_, executeOne_of_undecoded hf hd, raise_running _ s, raise_trace _ s, raise_keeps _ s⟩

/-- The CPU step of a tick: the fault of an undecoded word, or the instruction at `pc` (R215). -/
theorem cpuStep_cases {now : Time} {b t : State} (h : executeOne (stampCpu now b) = .next t) :
    (∃ op, t = raise (.unknownOpcode op b.pc) (stampCpu now b)) ∨
    ∃ i, nextInstr b = some i ∧ exec i (stampCpu now b) = .next t := by
  rcases executeOne_cases h with ⟨op, -, -, rfl⟩ | ⟨op, i, hf, hd, hexec⟩
  · exact .inl ⟨op, rfl⟩
  · have hf' : fetchWord b = some op := hf
    have hd' : decodeWordWith b.params.has8xy7 op = some i := hd
    exact .inr ⟨i, by rw [nextInstr, hf', Option.bind_some, hd'], hexec⟩

theorem executeOne_keeps {s t : State} (h : executeOne s = .next t) : keepsAllBut execParts s t := by
  rcases executeOne_cases h with ⟨_, -, -, rfl⟩ | ⟨_, _, -, -, hexec⟩
  · exact keepsAllBut_mono (raise_keeps _ s) (by decide)
  · exact exec_keeps_execParts hexec

/-! The timer step -/

/-- R41: a countdown takes one, and nothing from 0. -/
theorem countDown_toNat (t : Byte) : (countDown t).toNat = t.toNat - 1 := by
  unfold countDown
  split
  · subst t; rfl
  · bv_omega

theorem countDown_cases (t : Byte) : countDown t = t ∨ (countDown t).toNat + 1 = t.toNat := by
  by_cases h : t = 0
  · exact .inl (by rw [countDown, if_pos h, h])
  · rw [countDown_toNat]
    right
    bv_omega

theorem timerStep_delay (s : State) : (timerStep s).delay = countDown s.delay := by
  unfold timerStep deliverClear
  split <;> rfl

theorem timerStep_clearPending (s : State) : (timerStep s).clearPending = false := by
  unfold timerStep deliverClear
  split
  · rfl
  · exact Bool.eq_false_iff.mpr ‹_›

/-- R208: without a pending clear the timer step calls nobody. -/
theorem timerStep_trace_of_not_pending {s : State} (h : ¬ s.clearPending = true) : (timerStep s).trace = s.trace := by
  rw [timerStep, deliverClear, if_neg h]

/-- Settles O52: each field the timer step writes by its own lemma. -/
theorem timerStepEffect : Obligations.TimerStepEffect := by
  rintro s t rfl
  refine ⟨?delay, ?sound, ?active, timerStep_clearPending s, ?trace, timerStep_keeps s⟩
  case delay => rw [timerStep_delay, countDown_toNat]
  case sound => rw [timerStep_sound, countDown_toNat]
  case active => rw [timerStep_soundActive, timerStep_sound, bne_iff_ne]
  case trace =>
    split
    · exact timerStep_trace_of_pending ‹_›
    · rw [timerStep_trace_of_not_pending ‹_›, List.append_nil]

/-! The input poll -/

theorem inputPoll_of_badKey {s : State} (h : badKey (pollAnswer s) = true) :
    inputPoll s = raise (.invalidKeyIndex (pollAnswer s).key none) (afterPoll s) := if_pos h

theorem inputPoll_of_not_badKey {s : State} (h : ¬ badKey (pollAnswer s) = true) :
    inputPoll s = applyReport (pollAnswer s) (afterPoll s) := if_neg h

/-- R214: the keys that are neither on the keypad nor 255, no event. -/
theorem badKey_iff (r : PollReport) : badKey r = true ↔ 16 ≤ r.key.toNat ∧ r.key.toNat ≤ 254 := by
  have hne : r.key ≠ 255 ↔ r.key.toNat ≠ 255 := not_congr BitVec.toNat_eq
  have := r.key.isLt
  rw [badKey, Bool.and_eq_true, bne_iff_ne, decide_eq_true_iff, hne]
  omega

/-- R211: the key part of a report takes the named key to `key_state`, or no key for 255. -/
theorem getLsbD_keysAfter {r : PollReport} (hkey : r.key = 255 ∨ r.key.toNat < 16) (keys : BitVec 16) (k : Fin 16) :
    (keysAfter r keys).getLsbD k.val = if r.key.toNat = k.val then r.keyState else keys.getLsbD k.val := by
  have hk := k.isLt
  unfold keysAfter
  split
  next h255 =>
    have hkey255 : r.key.toNat = 255 := congrArg BitVec.toNat h255
    rw [if_neg (by omega)]
  next h255 =>
    have hlt : r.key.toNat < 16 := hkey.resolve_left h255
    rcases eq_or_ne r.key.toNat k.val with hsame | hne
    · cases r.keyState <;> simp [hsame, hk]
    · cases r.keyState <;> simp [hne, hne.symm, hk]

/-- Settles O55: on a key of the keypad or none the report's parts are applied one by one; on any other the poll is the
entry of the fault. -/
theorem inputPollAppliesTheReport : Obligations.InputPollAppliesTheReport := by
  rintro s r rfl
  refine ⟨fun hkey => ?valid, fun hlow hhigh => ?invalid⟩
  case valid =>
    have hgood : ¬ badKey (pollAnswer s) = true := by
      rw [badKey_iff]
      rintro ⟨hlow, hhigh⟩
      rcases hkey with h | h
      · rw [h] at hhigh
        exact absurd hhigh (by decide)
      · omega
    refine ⟨?keys, ?paused, ?running, ?trace, inputPoll_keeps s⟩ <;> rw [inputPoll_of_not_badKey hgood]
    case keys => exact getLsbD_keysAfter hkey s.keys
    case paused => rfl
    case running =>
      show (if (pollAnswer s).stop then false else s.running) = _
      cases (pollAnswer s).stop <;> simp
    case trace => rfl
  case invalid =>
    rw [inputPoll_of_badKey ((badKey_iff _).mpr ⟨hlow, hhigh⟩)]
    exact ⟨rfl, by simp, keepsAllBut_seq (afterPoll_keeps s) (raise_keeps _ _)⟩

/-! The clock -/

/-- R205: the difference is taken on the residues of both readings. -/
theorem clockDelta_mod_add {bits time passed : Nat} (h : passed < 2 ^ bits) :
    clockDelta bits ((time + passed) % 2 ^ bits) time = passed := by
  unfold clockDelta
  have hlt := Nat.mod_lt time (Nat.two_pow_pos bits)
  generalize 2 ^ bits = M at *
  calc ((time + passed) % M + M - time % M) % M
      = (time + passed + (M - time % M)) % M := by rw [Nat.add_sub_assoc hlt.le, Nat.mod_add_mod]
    _ = (time % M + (passed + (M - time % M))) % M := by rw [Nat.mod_add_mod, Nat.add_assoc]
    _ = (passed + M) % M := by congr 1; omega
    _ = passed := by rw [Nat.add_mod_right, Nat.mod_eq_of_lt h]

theorem clockDelta_mod_right (bits now last : Nat) : clockDelta bits now (last % 2 ^ bits) = clockDelta bits now last := by
  rw [clockDelta, clockDelta, Nat.mod_mod]

/-- A time that moves on by the difference to a reading reads as it. -/
theorem add_clockDelta_mod (bits now last : Nat) : (last + clockDelta bits now last) % 2 ^ bits = now % 2 ^ bits := by
  unfold clockDelta
  have hlt := Nat.mod_lt last (Nat.two_pow_pos bits)
  generalize 2 ^ bits = M at *
  calc (last + (now + M - last % M) % M) % M
      = (last % M + (now + M - last % M)) % M := by rw [Nat.add_mod_mod, Nat.mod_add_mod]
    _ = (now + M) % M := by congr 1; omega
    _ = now % M := Nat.add_mod_right _ _

theorem beforeCpu_hostTime (s : State) : (beforeCpu s).hostTime = s.hostTime + elapsedAnswer s := by
  have htimer : (beforeCpu s).hostTime = (inputTurn (nowAnswer s) (afterNow s)).hostTime :=
    timerTurn_keeps _ _ .hostTime (by decide)
  have hpoll : (inputTurn (nowAnswer s) (afterNow s)).hostTime = (afterNow s).hostTime :=
    inputTurn_keeps _ _ .hostTime (by decide)
  rw [htimer, hpoll, afterNow_hostTime]

/-- R258: a tick takes the host's time by its one reading, or not at all. -/
theorem tick_hostTime {s t : State} (h : tick s = .next t) : s.hostTime ≤ t.hostTime := by
  rcases tick_cases h with ⟨-, rfl⟩ | ⟨-, -, rfl⟩ | ⟨-, -, hcpu⟩
  · exact le_rfl
  · rw [beforeCpu_hostTime]
    exact Nat.le_add_right _ _
  · have hexec : t.hostTime = (beforeCpu s).hostTime := executeOne_keeps hcpu .hostTime (by decide)
    rw [hexec, beforeCpu_hostTime]
    exact Nat.le_add_right _ _

theorem loadAndRun_hostTime {r : LoadRequest} {s t : State} (h : loadAndRun r s = .next t) :
    s.hostTime ≤ t.hostTime := by
  rcases loadAndRun_cases h with ⟨-, rfl⟩ | ⟨-, -, rfl⟩
  · simp [unspecify]
  · exact Nat.le_add_right _ _

/-- Settles O51: the difference by modular arithmetic, and the host's time along every operation. -/
theorem clockDifferenceSurvivesWrap : Obligations.ClockDifferenceSurvivesWrap := by
  refine ⟨fun bits time passed period hlt => ?delta, by decide, fun s => ⟨Nat.le_add_right _ _, rfl⟩,
    fun s t h => ?monotone⟩
  case delta =>
    have hdelta := (clockDelta_mod_right bits ((time + passed) % 2 ^ bits) time).trans (clockDelta_mod_add hlt)
    exact ⟨hdelta, by rw [due, hdelta, decide_eq_true_iff]⟩
  case monotone =>
    rcases step_cases h with ⟨r, -, hload⟩ | ⟨-, htick⟩ | ⟨-, rfl⟩ | ⟨-, rfl⟩
    · exact loadAndRun_hostTime (s := takeOp s) hload
    · exact tick_hostTime (s := takeOp s) htick
    · exact le_rfl
    · exact le_rfl

end Sys2Proof.Machine
end

