-- ==== Sys2Proof/Proofs/TickFrames.lean ====
section
/-! PROOFS. What one tick does to the timestamps, the timers and the status bits (spec/49_scheduler.md R206 to R216,
spec/10_state.md R41 to R48): each element follows its writers through the three turns. -/

namespace Sys2Proof.Machine

/-! The timestamps -/

theorem inputTurn_lastIn (now : Time) (s : State) :
    (inputTurn now s).lastIn =
      if s.running = true ∧ due s.params.clockBits now s.lastIn s.params.pIn = true then now else s.lastIn := by
  split
  next h =>
    rw [inputTurn_of_due h.1 h.2]
    exact inputPoll_keeps (stampIn now s) .lastIn (by decide)
  next h => simp [inputTurn, h]

theorem beforeCpu_lastIn (s : State) :
    (beforeCpu s).lastIn =
      if s.running = true ∧ due s.params.clockBits (nowAnswer s) s.lastIn s.params.pIn = true then nowAnswer s
      else s.lastIn := by
  have htimer : (beforeCpu s).lastIn = (inputTurn (nowAnswer s) (afterNow s)).lastIn :=
    timerTurn_keeps _ _ .lastIn (by decide)
  exact htimer.trans (inputTurn_lastIn (nowAnswer s) (afterNow s))

theorem beforeCpu_lastTmr (s : State) :
    (beforeCpu s).lastTmr =
      if (inputTurn (nowAnswer s) (afterNow s)).running = true ∧
          due s.params.clockBits (nowAnswer s) s.lastTmr s.params.pTmr = true then nowAnswer s
      else s.lastTmr := by
  rcases beforeCpu_cases s with ⟨hu, hdue, hb⟩ | ⟨hgate, hb⟩ <;> rw [hb]
  · rw [if_pos ⟨hu, hdue⟩]
    exact timerStep_keeps (stampTmr (nowAnswer s) _) .lastTmr (by decide)
  · have hsame : (inputTurn (nowAnswer s) (afterNow s)).lastTmr = s.lastTmr := pollTurn_keeps s .lastTmr (by decide)
    rw [hsame, if_neg]
    rintro ⟨hu, hdue⟩
    simp [hu, hdue] at hgate

/-- After the turns of the poll and the timer step a tick of a running block changes `last_cpu` and what an instruction may
write. -/
theorem tick_keeps_beforeCpu {s t : State} (hrun : s.running = true) (h : tick s = .next t) :
    keepsAllBut (.lastCpu :: execParts) (beforeCpu s) t := by
  rcases tick_cases h with ⟨hhalt, -⟩ | ⟨-, -, rfl⟩ | ⟨-, -, hcpu⟩
  · exact absurd (hrun.symm.trans hhalt) (by decide)
  · exact keepsAllBut_refl _ _
  · exact keepsAllBut_seq (stampCpu_keeps _ _) (executeOne_keeps hcpu)

theorem tick_lastCpu {s t : State} (hrun : s.running = true) (h : tick s = .next t) :
    t.lastCpu = if (beforeCpu s).running = true ∧ (beforeCpu s).paused = false ∧
        due s.params.clockBits (nowAnswer s) s.lastCpu s.params.pCpu = true then nowAnswer s else s.lastCpu := by
  simp only [← cpuFires_beforeCpu_iff]
  split
  next hf =>
    rw [tick_of_fires hrun hf] at h
    exact executeOne_keeps h .lastCpu (by decide)
  next hf =>
    rw [tick_of_not_fires hrun (by simpa using hf)] at h
    obtain rfl := Host.Outcome.next.inj h
    exact beforeCpu_keeps s .lastCpu (by decide)

theorem inputTurn_running_of_halted {s : State} (h : s.running = false) (now : Time) :
    (inputTurn now (afterNow s)).running = false :=
  Bool.eq_false_iff.mpr fun hu => Bool.eq_false_iff.mp h (inputTurn_running (s := afterNow s) hu)

theorem beforeCpu_running_of_halted {s : State} (h : s.running = false) : (beforeCpu s).running = false :=
  Bool.eq_false_iff.mpr fun hb => Bool.eq_false_iff.mp h (beforeCpu_running hb)

/-- Settles O54: a halted block has no turn; in a running one each timestamp by the turn that stamps it, which no later
turn touches. -/
theorem timestampsMoveOnlyWhenFired : Obligations.TimestampsMoveOnlyWhenFired := by
  rintro s t u b h rfl rfl
  cases hrun : s.running with
  | false =>
    obtain rfl := Host.Outcome.next.inj ((tick_of_halted hrun).symm.trans h)
    simp [inputTurn_running_of_halted hrun, beforeCpu_running_of_halted hrun]
  | true =>
    have hin : t.lastIn = (beforeCpu s).lastIn := tick_keeps_beforeCpu hrun h .lastIn (by decide)
    have htmr : t.lastTmr = (beforeCpu s).lastTmr := tick_keeps_beforeCpu hrun h .lastTmr (by decide)
    refine ⟨?_, htmr.trans (beforeCpu_lastTmr s), tick_lastCpu hrun h⟩
    rw [hin, beforeCpu_lastIn, hrun]

/-! The timers -/

theorem beforeCpu_delay_cases (s : State) :
    (beforeCpu s).delay = s.delay ∨ (beforeCpu s).delay.toNat + 1 = s.delay.toNat := by
  have hu : (inputTurn (nowAnswer s) (afterNow s)).delay = s.delay := pollTurn_keeps s .delay (by decide)
  rcases beforeCpu_cases s with ⟨-, -, hb⟩ | ⟨-, hb⟩ <;> rw [hb]
  · rw [timerStep_delay, stampTmr_delay, hu]
    exact countDown_cases s.delay
  · exact .inl hu

theorem beforeCpu_sound_cases (s : State) :
    (beforeCpu s).sound = s.sound ∨ (beforeCpu s).sound.toNat + 1 = s.sound.toNat := by
  have hu : (inputTurn (nowAnswer s) (afterNow s)).sound = s.sound := pollTurn_keeps s .sound (by decide)
  rcases beforeCpu_cases s with ⟨-, -, hb⟩ | ⟨-, hb⟩ <;> rw [hb]
  · rw [timerStep_sound, stampTmr_sound, hu]
    exact countDown_cases s.sound
  · exact .inl hu

/-- A part that no fault touches is, after a tick of a running block, as it was before the CPU step, or the CPU step fires
on an instruction that may write the part. -/
theorem tick_part_cases {s t : State} {p : Part} (hrun : s.running = true) (h : tick s = .next t)
    (hp : p ∉ [.lastCpu, .running, .trace]) :
    samePart p (beforeCpu s) t ∨
    (cpuFires (nowAnswer s) (beforeCpu s) = true ∧ ∃ i, nextInstr (beforeCpu s) = some i ∧ p ∈ writtenParts i ∧
      exec i (stampCpu (nowAnswer s) (beforeCpu s)) = .next t) := by
  simp only [List.mem_cons, List.not_mem_nil, or_false, not_or] at hp
  obtain ⟨hlastCpu, hrunning, htrace⟩ := hp
  have hstamp : samePart p (beforeCpu s) (stampCpu (nowAnswer s) (beforeCpu s)) :=
    stampCpu_keeps _ _ p (by simpa using hlastCpu)
  rcases tick_cases h with ⟨hhalt, -⟩ | ⟨-, -, rfl⟩ | ⟨-, hf, hcpu⟩
  · exact absurd (hrun.symm.trans hhalt) (by decide)
  · exact .inl (samePart_refl p _)
  · rcases cpuStep_cases hcpu with ⟨op, rfl⟩ | ⟨i, hi, hexec⟩
    · exact .inl (samePart_trans hstamp (raise_keeps _ _ p (by simp [hrunning, htrace])))
    · by_cases hw : p ∈ writtenParts i
      · exact .inr ⟨hf, i, hi, hw, hexec⟩
      · exact .inl (samePart_trans hstamp (exec_keeps hexec p hw))

/-- R187: `FX15` alone writes `DELAY`. -/
theorem eq_ldDtVx_of_mem_writtenParts {i : Instr} (h : Part.delay ∈ writtenParts i) : ∃ x, i = .ldDtVx x := by
  cases i with
  | ldDtVx x => exact ⟨x, rfl⟩
  | _ => simp [writtenParts] at h

/-- R188: `FX18` alone writes `SOUND`. -/
theorem eq_ldStVx_of_mem_writtenParts {i : Instr} (h : Part.sound ∈ writtenParts i) : ∃ x, i = .ldStVx x := by
  cases i with
  | ldStVx x => exact ⟨x, rfl⟩
  | _ => simp [writtenParts] at h

/-- R120: `00E0` alone writes `clear_pending`. -/
theorem eq_cls_of_mem_writtenParts {i : Instr} (h : Part.clearPending ∈ writtenParts i) : i = .cls := by
  cases i with
  | cls => rfl
  | _ => simp [writtenParts] at h

theorem tick_delay_cases {s t : State} (hrun : s.running = true) (h : tick s = .next t) :
    (t.delay = s.delay ∨ t.delay.toNat + 1 = s.delay.toNat) ∨
    (cpuFires (nowAnswer s) (beforeCpu s) = true ∧ ∃ x, nextInstr (beforeCpu s) = some (.ldDtVx x)) := by
  rcases tick_part_cases (p := .delay) hrun h (by decide) with hsame | ⟨hf, i, hi, hw, -⟩
  · rw [show t.delay = (beforeCpu s).delay from hsame]
    exact .inl (beforeCpu_delay_cases s)
  · obtain ⟨x, rfl⟩ := eq_ldDtVx_of_mem_writtenParts hw
    exact .inr ⟨hf, x, hi⟩

theorem tick_sound_cases {s t : State} (hrun : s.running = true) (h : tick s = .next t) :
    (t.sound = s.sound ∨ t.sound.toNat + 1 = s.sound.toNat) ∨
    (cpuFires (nowAnswer s) (beforeCpu s) = true ∧ ∃ x, nextInstr (beforeCpu s) = some (.ldStVx x)) := by
  rcases tick_part_cases (p := .sound) hrun h (by decide) with hsame | ⟨hf, i, hi, hw, -⟩
  · rw [show t.sound = (beforeCpu s).sound from hsame]
    exact .inl (beforeCpu_sound_cases s)
  · obtain ⟨x, rfl⟩ := eq_ldStVx_of_mem_writtenParts hw
    exact .inr ⟨hf, x, hi⟩

/-- Settles O53: a halted block keeps its timers; in a running one a timer counts down or stays before the CPU step, and
stays in it unless the one instruction that writes it ran. -/
theorem timersOnlyCountDown : Obligations.TimersOnlyCountDown := by
  rintro s t b hop h rfl
  rw [step_of_tick hop] at h
  cases hrun : s.running with
  | false =>
    obtain rfl := Host.Outcome.next.inj ((tick_of_halted (s := takeOp s) hrun).symm.trans h)
    exact ⟨.inl (.inl rfl), .inl (.inl rfl)⟩
  | true => exact ⟨tick_delay_cases (s := takeOp s) hrun h, tick_sound_cases (s := takeOp s) hrun h⟩

/-! The status bits -/

/-- R240: the pending clear and `sound_active` before the CPU step are the tick's own unless the timer step fired. -/
theorem beforeCpu_clear_sound_cases (s : State) :
    ((inputTurn (nowAnswer s) (afterNow s)).running = true ∧
        due s.params.clockBits (nowAnswer s) s.lastTmr s.params.pTmr = true ∧
        (beforeCpu s).clearPending = false) ∨
    ((beforeCpu s).clearPending = s.clearPending ∧ (beforeCpu s).soundActive = s.soundActive) := by
  rcases beforeCpu_cases s with ⟨hu, hdue, hb⟩ | ⟨-, hb⟩
  · exact .inl ⟨hu, hdue, hb ▸ timerStep_clearPending _⟩
  · rw [hb]
    exact .inr ⟨pollTurn_keeps s .clearPending (by decide), pollTurn_keeps s .soundActive (by decide)⟩

/-- R120: after a tick of a running block the clear is pending as before the CPU step, or `00E0` has set it. -/
theorem tick_clearPending_cases {s t : State} (hrun : s.running = true) (h : tick s = .next t) :
    t.clearPending = (beforeCpu s).clearPending ∨
    (t.clearPending = true ∧ cpuFires (nowAnswer s) (beforeCpu s) = true ∧ nextInstr (beforeCpu s) = some .cls) := by
  rcases tick_part_cases (p := .clearPending) hrun h (by decide) with hsame | ⟨hf, i, hi, hw, hexec⟩
  · exact .inl hsame
  · obtain rfl := eq_cls_of_mem_writtenParts hw
    obtain rfl := Host.Outcome.next.inj ((exec_cls _).symm.trans hexec)
    exact .inr ⟨rfl, hf, hi⟩

/-- R46, R236: a tick that does not leave `running` as the poll's turn left it enters a fault in its CPU step. -/
theorem tick_running_cases {s t : State} (hrun : s.running = true) (h : tick s = .next t) :
    t.running = (inputTurn (nowAnswer s) (afterNow s)).running ∨
    (cpuFires (nowAnswer s) (beforeCpu s) = true ∧
      ∃ f : HwFault, f.code ∈ [2, 3, 4, 5] ∧ t = raise f (stampCpu (nowAnswer s) (beforeCpu s))) := by
  have hb : (beforeCpu s).running = (inputTurn (nowAnswer s) (afterNow s)).running := timerTurn_running _ _
  have hcodes : ∀ code ∈ [2, 3, 5], code ∈ [2, 3, 4, 5] := by decide
  rw [← hb]
  rcases tick_cases h with ⟨hhalt, -⟩ | ⟨-, -, rfl⟩ | ⟨-, hf, hcpu⟩
  · exact absurd (hrun.symm.trans hhalt) (by decide)
  · exact .inl rfl
  · rcases cpuStep_cases hcpu with ⟨op, rfl⟩ | ⟨i, -, hexec⟩
    · exact .inr ⟨hf, _, by simp [HwFault.code], rfl⟩
    · rcases exec_running_cases hexec with hsame | ⟨-, f, rfl, hcode⟩
      · exact .inl hsame
      · exact .inr ⟨hf, f, hcodes _ hcode, rfl⟩

/-- R45 to R48, R240: the status bits and `KEYS` over a tick of a running block. -/
theorem tick_status {s t : State} (hrun : s.running = true) (h : tick s = .next t) :
    (s.clearPending = false → t.clearPending = true →
      cpuFires (nowAnswer s) (beforeCpu s) = true ∧ nextInstr (beforeCpu s) = some .cls) ∧
    (s.clearPending = true → t.clearPending = false →
      (inputTurn (nowAnswer s) (afterNow s)).running = true ∧
        due s.params.clockBits (nowAnswer s) s.lastTmr s.params.pTmr = true) ∧
    (t.soundActive ≠ s.soundActive →
      (inputTurn (nowAnswer s) (afterNow s)).running = true ∧
        due s.params.clockBits (nowAnswer s) s.lastTmr s.params.pTmr = true) ∧
    t.keys = (inputTurn (nowAnswer s) (afterNow s)).keys ∧
    t.paused = (inputTurn (nowAnswer s) (afterNow s)).paused := by
  have hframe := tick_keeps_beforeCpu hrun h
  have hactive : t.soundActive = (beforeCpu s).soundActive := hframe .soundActive (by decide)
  have hkeys : t.keys = (beforeCpu s).keys := hframe .keys (by decide)
  have hpaused : t.paused = (beforeCpu s).paused := hframe .paused (by decide)
  refine ⟨fun hs ht => ?set, fun hs ht => ?dropped, fun hne => ?active,
    hkeys.trans (timerTurn_keeps _ _ .keys (by decide)), hpaused.trans (timerTurn_keeps _ _ .paused (by decide))⟩
  case set =>
    rcases tick_clearPending_cases hrun h with hsame | ⟨-, hcls⟩
    · rcases beforeCpu_clear_sound_cases s with ⟨-, -, hclear⟩ | ⟨hclear, -⟩ <;> simp [hsame, hclear, hs] at ht
    · exact hcls
  case dropped =>
    rcases tick_clearPending_cases hrun h with hsame | ⟨hset, -⟩
    · rcases beforeCpu_clear_sound_cases s with ⟨hu, hdue, -⟩ | ⟨hclear, -⟩
      · exact ⟨hu, hdue⟩
      · simp [hsame, hclear, hs] at ht
    · rw [hset] at ht
      cases ht
  case active =>
    rcases beforeCpu_clear_sound_cases s with ⟨hu, hdue, -⟩ | ⟨-, hsame⟩
    · exact ⟨hu, hdue⟩
    · exact absurd (hactive.trans hsame) hne

/-- Settles O59: a halted block keeps all of them, `tick_status` follows them in a running one, and `running` falls by
`tick_running_cases`. -/
theorem statusBitsChangeOnlyByTheirWriters : Obligations.StatusBitsChangeOnlyByTheirWriters := by
  rintro s t u b hop h rfl rfl
  rw [step_of_tick hop] at h
  cases hrun : s.running with
  | false =>
    have hnoPoll : inputTurn (nowAnswer s) (afterNow (takeOp s)) = afterNow (takeOp s) := by
      simp [inputTurn, afterNow, hrun]
    obtain rfl := Host.Outcome.next.inj ((tick_of_halted (s := takeOp s) hrun).symm.trans h)
    rw [hnoPoll]
    simp +contextual [afterNow, hrun]
  | true =>
    obtain ⟨hset, hdropped, hactive, hkeys, hpaused⟩ := tick_status (s := takeOp s) hrun h
    refine ⟨hset, hdropped, hactive, hkeys, hpaused, fun _ => rfl, fun _ ht => ?_⟩
    rcases tick_running_cases (s := takeOp s) hrun h with hsame | hfault
    · exact .inl (hsame.symm.trans ht)
    · exact .inr hfault

end Sys2Proof.Machine
end

