-- ==== Sys2Proof/Proofs/Loading.lean ====
section
/-! PROOFS. The load (spec/10_state.md R56, spec/70_reset_and_hazards.md R270): every element it leaves, the glyphs of the
font where `FX29` looks for them, and the reset state as one load. -/

namespace Sys2Proof.Machine

/-! Memory after a load -/

/-- R36: the program stands at `PROGRAM_OFFSET`. -/
theorem read_loadedMemory_program {p : Params} {program : List Byte} {k : Nat} (hp : p.Legal)
    (hfit : program.length ≤ programCapacity p) (hk : k < program.length) :
    Memory.read p (loadedMemory p program) (p.programOffset + k) = program.getD k 0 := by
  have hoffset := hp.2
  rw [programCapacity] at hfit
  exact Memory.read_writeList_inside program Memory.wf_nil (by omega) hk

/-- R36: around the program memory holds its initial contents. -/
theorem read_loadedMemory_outside {p : Params} {program : List Byte} {a : Nat}
    (ha : a < p.programOffset ∨ p.programOffset + program.length ≤ a) :
    Memory.read p (loadedMemory p program) a = Memory.initial p a :=
  Memory.read_writeList_outside program ha

/-- R56: a byte after a load is the program's, the font's or 0. -/
theorem readByte_loaded {r : LoadRequest} {s : State} (hp : s.params.Legal)
    (hfit : r.length ≤ programCapacity s.params) (hbuf : r.length ≤ r.program.length) (now : Time) (a : Nat) :
    readByte (loaded r now s) a =
      if s.params.programOffset ≤ a ∧ a < s.params.programOffset + r.length then
        r.program.getD (a - s.params.programOffset) 0
      else if s.params.fontBase ≤ a ∧ a < s.params.fontBase + 80 then
        s.params.font.toList.getD (a - s.params.fontBase) 0
      else 0 := by
  have hlen : (r.program.take r.length).length = r.length := List.length_take_of_le hbuf
  change Memory.read s.params (loadedMemory s.params (r.program.take r.length)) a = _
  split
  next hin =>
    obtain ⟨k, rfl⟩ := Nat.exists_eq_add_of_le hin.1
    have hk : k < r.length := by omega
    rw [read_loadedMemory_program hp (hlen.trans_le hfit) (hk.trans_eq hlen.symm), Nat.add_sub_cancel_left]
    simp [List.getD_eq_getElem?_getD, hk]
  next hout =>
    rw [read_loadedMemory_outside (by omega)]
    exact Memory.initial_eq hp a

/-- Settles O2: the load has one equation, `loadAndRun_of_fits`; every element but memory is written out in `loaded`, and
memory is `readByte_loaded`. -/
theorem loadSetsEveryElement : Obligations.LoadSetsEveryElement := by
  intro r s hp hfit hbuf
  have hpc : (BitVec.ofNat 16 s.params.programOffset).toNat = s.params.programOffset := by
    have hle : s.params.programOffset ≤ 4096 := hp.2
    exact Nat.mod_eq_of_lt (by omega)
  refine ⟨_, loadAndRun_of_fits hfit hbuf, rfl, fun x => ?regs, rfl, hpc, fun k => ?stack, rfl, rfl, rfl, rfl, rfl, rfl,
    rfl, rfl, rfl, rfl, rfl, rfl, rfl, rfl, rfl, rfl, rfl, fun a _ => ?memory⟩
  case regs => exact Vector.getElem_replicate x.isLt
  case stack => exact Vector.getElem_replicate k.isLt
  case memory => exact readByte_loaded (s := afterNow s) hp hfit hbuf (nowAnswer s) a

/-! The reset state -/

/-- Settles O3: the reset state writes out what the load of no byte leaves with the default parameters. -/
theorem resetIsEmptyLoad : Obligations.ResetIsEmptyLoad := by
  intro program s hp
  refine ⟨_, loadAndRun_of_fits (Nat.zero_le _) (Nat.zero_le _), fun p hpart => ?_⟩
  cases p with
  | params => exact hp
  | regs => exact fun _ => rfl
  | pc => exact congrArg (fun q => BitVec.ofNat 16 q.programOffset) hp
  | memory => exact readByte_congr hp rfl
  | lastIn | lastTmr | lastCpu | ops | hostTime | clock | polls | rands | collisions | fresh | trace =>
    simp at hpart
  | _ => rfl

/-- Settles O4: the reset memory lists nothing, and its numbers are literals. -/
theorem resetMeetsInvariant : Obligations.ResetMeetsInvariant :=
  ⟨params_legal, Memory.wf_nil, by decide, by decide, by decide, by decide⟩

/-! The glyphs -/

/-- R10, R190: under a legal instantiation the address of a glyph does not wrap. -/
theorem glyphAddr_toNat {p : Params} (hp : p.Legal) {d : Nat} (hd : d < 16) :
    (glyphAddr p d).toNat = p.fontBase + 5 * d := by
  obtain ⟨hfont, hoffset⟩ := hp
  rw [fontSize_eq] at hfont
  rw [memSize_eq] at hoffset
  exact Nat.mod_eq_of_lt (by omega)

/-- R34: the initial contents hold glyph `d` where `FX29` points for `d`. -/
theorem initial_glyphAddr {p : Params} (hp : p.Legal) {d k : Nat} (hd : d < 16) (hk : k < 5) :
    Memory.initial p ((glyphAddr p d).toNat + k) = p.font.toList.getD (5 * d + k) 0 := by
  rw [Memory.initial_eq hp, glyphAddr_toNat hp hd, fontSize_eq, if_pos (by omega)]
  congr 1
  omega

/-- Settles O6: a glyph lies below the program, so a load leaves it in its initial contents. -/
theorem fontGlyphsAfterReset : Obligations.FontGlyphsAfterReset := by
  refine ⟨fun r s d k hp hfit hbuf hd hk => ⟨_, loadAndRun_of_fits hfit hbuf, ?_⟩, fun d k => initial_glyphAddr params_legal⟩
  have hbelow : (glyphAddr s.params d).toNat + k < s.params.programOffset := by
    have hfont : s.params.fontBase + 80 ≤ s.params.programOffset := hp.1
    rw [glyphAddr_toNat hp hd]
    omega
  exact (read_loadedMemory_outside (.inl hbelow)).trans (initial_glyphAddr hp hd hk)

end Sys2Proof.Machine
end

