-- ==== Sys2Proof/Proofs/Invariant.lean ====
section
/-! PROOFS. The whole machine (spec/00_scope.md R10, spec/10_state.md R40, R46, R50, R58): the invariant along every step,
what only a load changes, and the host's queries. -/

namespace Sys2Proof.Machine

/-! The invariant -/

/-- R39, R40: a push finds a free slot and a pop a used one, so no instruction takes `SP` above 16. -/
theorem exec_sp_le {i : Instr} {s t : State} (h : exec i s = .next t) (hsp : s.sp.toNat ≤ 16) : t.sp.toNat ≤ 16 := by
  cases i with
  | ret =>
    rcases exec_ret_cases h with rfl | ⟨k, hk, rfl⟩
    · exact hsp
    · rw [setPc_sp, dropReturn_sp_toNat hk]
      omega
  | call nnn =>
    rcases exec_call_cases h with rfl | ⟨hslot, rfl⟩
    · exact hsp
    · rw [setPc_sp, pushReturn_sp]
      bv_omega
  | _ =>
    rw [show t.sp = s.sp from exec_keeps h .sp (by simp [writtenParts])]
    exact hsp

/-- R33: what an instruction stores stays inside memory, so the canonical form stands. -/
theorem exec_wf {i : Instr} {s t : State} (h : exec i s = .next t) (hwf : Memory.wf s.params s.mem) :
    Memory.wf s.params t.mem := by
  obtain ⟨bs, -, hspan, hmem⟩ := exec_stores h
  rw [hmem]
  rcases hspan with hempty | hinside
  · rw [List.length_eq_zero_iff.mp hempty]
    exact hwf
  · exact Memory.writeList_wf _ bs hwf hinside

/-- The invariant, from the elements of a state with the parameters of one that meets it. -/
theorem runInv_of {s t : State} (hinv : RunInv s) (hparams : t.params = s.params) (hmem : Memory.wf s.params t.mem)
    (hsp : t.running = true → t.sp.toNat ≤ 16) (hin : t.lastIn < 2 ^ s.params.clockBits)
    (htmr : t.lastTmr < 2 ^ s.params.clockBits) (hcpu : t.lastCpu < 2 ^ s.params.clockBits) : RunInv t := by
  rw [RunInv, hparams]
  exact ⟨hinv.1, hmem, hsp, hin, htmr, hcpu⟩

theorem runInv_raise {s : State} (hinv : RunInv s) (f : HwFault) : RunInv (raise f s) := by
  have ⟨_, hmem, _, hin, htmr, hcpu⟩ := hinv
  exact runInv_of hinv rfl hmem nofun hin htmr hcpu

theorem runInv_exec {i : Instr} {s t : State} (hinv : RunInv s) (h : exec i s = .next t) : RunInv t := by
  have hframe := exec_keeps_execParts h
  have ⟨_, hmem, hsp, hin, htmr, hcpu⟩ := hinv
  have hlastIn : t.lastIn = s.lastIn := hframe .lastIn (by decide)
  have hlastTmr : t.lastTmr = s.lastTmr := hframe .lastTmr (by decide)
  have hlastCpu : t.lastCpu = s.lastCpu := hframe .lastCpu (by decide)
  refine runInv_of hinv (hframe .params (by decide)) (exec_wf h hmem) (fun ht => ?_) (hlastIn ▸ hin) (hlastTmr ▸ htmr)
    (hlastCpu ▸ hcpu)
  rcases exec_running_cases h with hsame | ⟨-, f, rfl, -⟩
  · exact exec_sp_le h (hsp (hsame ▸ ht))
  · cases ht

theorem runInv_executeOne {s t : State} (hinv : RunInv s) (h : executeOne s = .next t) : RunInv t := by
  rcases executeOne_cases h with ⟨op, -, -, rfl⟩ | ⟨_, _, -, -, hexec⟩
  · exact runInv_raise hinv _
  · exact runInv_exec hinv hexec

theorem runInv_stampCpu {s : State} {now : Time} (hinv : RunInv s) (hnow : now < 2 ^ s.params.clockBits) :
    RunInv (stampCpu now s) := by
  have ⟨_, hmem, hsp, hin, htmr, _⟩ := hinv
  exact runInv_of hinv rfl hmem hsp hin htmr hnow

/-- The turns before the CPU step write no element of the invariant but two timestamps, from the clock. -/
theorem runInv_beforeCpu {s : State} (hinv : RunInv s) : RunInv (beforeCpu s) := by
  have ⟨_, hmem, hsp, hin, htmr, hcpu⟩ := hinv
  have hspSame : (beforeCpu s).sp = s.sp := beforeCpu_keeps s .sp (by decide)
  have hcpuSame : (beforeCpu s).lastCpu = s.lastCpu := beforeCpu_keeps s .lastCpu (by decide)
  refine runInv_of hinv (beforeCpu_params s) ((beforeCpu_mem s).symm ▸ hmem)
    (fun hb => hspSame ▸ hsp (beforeCpu_running hb)) ?_ ?_ (hcpuSame ▸ hcpu)
  · rw [beforeCpu_lastIn]
    split
    · exact nowAnswer_lt s
    · exact hin
  · rw [beforeCpu_lastTmr]
    split
    · exact nowAnswer_lt s
    · exact htmr

theorem runInv_tick {s t : State} (hinv : RunInv s) (h : tick s = .next t) : RunInv t := by
  have hb := runInv_beforeCpu hinv
  have hnow : nowAnswer s < 2 ^ (beforeCpu s).params.clockBits := beforeCpu_params s ▸ nowAnswer_lt s
  rcases tick_cases h with ⟨-, rfl⟩ | ⟨-, -, rfl⟩ | ⟨-, -, hcpu⟩
  · exact hinv
  · exact hb
  · exact runInv_executeOne (runInv_stampCpu hb hnow) hcpu

/-- R50, R57: also an unspecified timestamp is a reading of `CLOCK_BITS` bits. -/
theorem unspecify_stamps_lt (s : State) :
    (unspecify s).lastIn < 2 ^ s.params.clockBits ∧ (unspecify s).lastTmr < 2 ^ s.params.clockBits ∧
      (unspecify s).lastCpu < 2 ^ s.params.clockBits := by
  simp only [unspecify]
  exact ⟨Nat.mod_lt _ (Nat.two_pow_pos _), Nat.mod_lt _ (Nat.two_pow_pos _), Nat.mod_lt _ (Nat.two_pow_pos _)⟩

theorem unspecify_params (s : State) : (unspecify s).params = s.params := by
  simp only [unspecify, useFresh_params]

theorem runInv_loadAndRun {r : LoadRequest} {s t : State} (hinv : RunInv s) (h : loadAndRun r s = .next t) :
    RunInv t := by
  rcases loadAndRun_cases h with ⟨-, rfl⟩ | ⟨hfit, hbuf, rfl⟩
  · have hhalt : ¬ (unspecify (raise (.romTooLarge r.length) s)).running = true := by simp
    obtain ⟨hin, htmr, hcpu⟩ := unspecify_stamps_lt (raise (.romTooLarge r.length) s)
    exact runInv_of hinv (unspecify_params _) (unspecify_mem _ ▸ unspecifiedMemory_wf _ _) (absurd · hhalt) hin htmr
      hcpu
  · have hlen : (r.program.take r.length).length ≤ programCapacity s.params := (List.length_take_le _ _).trans hfit
    exact runInv_of hinv rfl (loadedMemory_wf _ hinv.1 hlen) (fun _ => Nat.zero_le _) (nowAnswer_lt s) (nowAnswer_lt s)
      (nowAnswer_lt s)

/-- Settles O5: a load builds memory anew, the queries touch nothing of it, and a tick keeps the invariant turn by turn:
what the turns before the CPU step write is two timestamps, and the CPU step keeps it by `exec_wf` and `exec_sp_le`. -/
theorem stepKeepsInvariant : Obligations.StepKeepsInvariant := by
  intro s t hinv h
  have htake : RunInv (takeOp s) := hinv
  rcases step_cases h with ⟨r, -, hload⟩ | ⟨-, htick⟩ | ⟨-, rfl⟩ | ⟨-, rfl⟩
  · exact runInv_loadAndRun htake hload
  · exact runInv_tick htake htick
  · exact htake
  · exact htake

/-! What only a load changes -/

theorem tick_keeps_config {s t : State} (h : tick s = .next t) :
    t.params = s.params ∧ t.quirks = s.quirks ∧ t.callbacks = s.callbacks := by
  cases hrun : s.running with
  | false =>
    obtain rfl := Host.Outcome.next.inj ((tick_of_halted hrun).symm.trans h)
    exact ⟨rfl, rfl, rfl⟩
  | true =>
    have hcpu := tick_keeps_beforeCpu hrun h
    have hbefore := beforeCpu_keeps s
    exact ⟨(hcpu .params (by decide)).trans (hbefore .params (by decide)),
      (hcpu .quirks (by decide)).trans (hbefore .quirks (by decide)),
      (hcpu .callbacks (by decide)).trans (hbefore .callbacks (by decide))⟩

/-- R10: a load is for the machine as it is. -/
theorem loadAndRun_params {r : LoadRequest} {s t : State} (h : loadAndRun r s = .next t) : t.params = s.params := by
  rcases loadAndRun_cases h with ⟨-, rfl⟩ | ⟨-, -, rfl⟩
  · exact unspecify_params _
  · rfl

/-- Settles O57: a load keeps the parameters, and every other operation the quirks and the callbacks too. -/
theorem quirksChangeOnlyByLoad : Obligations.QuirksChangeOnlyByLoad := by
  intro s t h
  rcases step_cases h with ⟨r, hop, hload⟩ | ⟨-, htick⟩ | ⟨-, rfl⟩ | ⟨-, rfl⟩
  · exact ⟨loadAndRun_params (s := takeOp s) hload, fun hno => absurd hop (hno r)⟩
  · obtain ⟨hparams, hquirks, hcallbacks⟩ := tick_keeps_config htick
    exact ⟨hparams, fun _ => ⟨hquirks, hcallbacks⟩⟩
  · exact ⟨rfl, fun _ => ⟨rfl, rfl⟩⟩
  · exact ⟨rfl, fun _ => ⟨rfl, rfl⟩⟩

/-- Settles O58: a halted block stays halted under a tick and the queries, and after a load that does not fit. -/
theorem onlyALoadStartsARun : Obligations.OnlyALoadStartsARun := by
  intro s t h hs ht
  rcases step_cases h with ⟨r, hop, hload⟩ | ⟨-, htick⟩ | ⟨-, rfl⟩ | ⟨-, rfl⟩
  · rcases loadAndRun_cases hload with ⟨-, rfl⟩ | ⟨hfit, -, rfl⟩
    · simp at ht
    · exact ⟨r, hop, hfit, rfl⟩
  · obtain rfl := Host.Outcome.next.inj ((tick_of_halted (s := takeOp s) hs).symm.trans htick)
    exact absurd (hs.symm.trans ht) (by decide)
  · exact absurd (hs.symm.trans ht) (by decide)
  · exact absurd (hs.symm.trans ht) (by decide)

/-- Settles O60: a query is one note in the trace. -/
theorem queriesChangeNothing : Obligations.QueriesChangeNothing := by
  refine fun s => ⟨fun hop => ⟨note (.runningIs s.running) (takeOp s), ?_, rfl, ?_⟩,
    fun hop => ⟨note (.soundActiveIs s.soundActive) (takeOp s), ?_, rfl, ?_⟩⟩
  · rw [step, hop]; rfl
  · exact keepsAllBut_seq (takeOp_keeps s) (note_keeps _ _)
  · rw [step, hop]; rfl
  · exact keepsAllBut_seq (takeOp_keeps s) (note_keeps _ _)

end Sys2Proof.Machine
end

