-- ==== Sys2Proof/Proofs/StoreAndFetch.lean ====
section
/-! PROOFS. Bytes and words in memory (spec/20_memory.md R72, R74, R83, spec/47_fx_misc.md R193, R194): what a byte write
and a fetch read, and a stored block fetched or loaded back. -/

namespace Sys2Proof.Machine

/-- Settles O7: a write by the three lemmas of `Memory.write`, the fetch by the word of its two bytes. -/
theorem memoryReadsAndWrites : Obligations.MemoryReadsAndWrites := by
  refine ⟨fun p m a b hwf ha => ⟨Memory.write_wf b hwf ha, Memory.read_write_same a b hwf.1,
    fun a' => Memory.read_write_other b⟩, fun s hpc => ?_⟩
  exact ⟨_, fetchWord_eq_some.mpr ⟨hpc, rfl⟩, wordOfBytes_toNat _ _, wordOfBytes_high _ _, wordOfBytes_low _ _⟩

/-- R193: after `FX55` the byte `r` places after the old `I` is the old `V[r]`. -/
theorem readByte_of_exec_storeRegs {x r : Reg} {s t : State} (hwf : Memory.wf s.params s.mem)
    (h : exec (.storeRegs x) s = .next t) (hr : r ≤ x) : readByte t (s.index.toNat + r.val) = getV s r := by
  obtain ⟨hspan, rfl⟩ := exec_storeRegs_next h
  rw [advance_eq, readByte_setPc, readByte_bumpIndex]
  exact readByte_storeBytes_regsUpTo hwf (spanInside_succ_iff.mp hspan) hr

theorem exec_storeRegs_pc {x : Reg} {s t : State} (h : exec (.storeRegs x) s = .next t) : t.pc = s.pc + 2 := by
  obtain ⟨-, rfl⟩ := exec_storeRegs_next h
  rw [advance_eq, setPc_pc, bumpIndex_pc]
  rfl

/-- Settles O9: the next `pc` is the `I` of the store, so the two bytes fetched there are `V0` and `V1`. -/
theorem fetchSeesStoredRegisters : Obligations.FetchSeesStoredRegisters := by
  intro x s t hwf hx hindex hpc h
  have hnext : t.pc.toNat = s.index.toNat := by rw [exec_storeRegs_pc h, hindex]
  have hat : s.index.toNat = s.pc.toNat + 2 := by
    rw [hindex]
    bv_omega
  have h0 : readByte t s.index.toNat = getV s 0 := readByte_of_exec_storeRegs hwf h (Fin.zero_le x)
  have h1 : readByte t (s.index.toNat + 1) = getV s 1 := readByte_of_exec_storeRegs (r := 1) hwf h (Fin.le_def.mpr hx)
  rw [fetchWord_eq_some, hnext, h0, h1]
  exact ⟨by omega, rfl⟩

/-- R194: after `FX65` a register up to `X` is the byte `r` places after the old `I`. -/
theorem getV_of_exec_loadRegs {x r : Reg} {s t : State} (h : exec (.loadRegs x) s = .next t) (hr : r ≤ x) :
    getV t r = readByte s (s.index.toNat + r.val) := by
  obtain ⟨-, rfl⟩ := exec_loadRegs_next h
  rw [advance_eq, getV_setPc, getV_bumpIndex, getV_regsLoaded, if_pos hr]

/-- Settles O44: the load reads the bytes the store left, and nothing but memory, the parameters and `I` decides them. -/
theorem loadUndoesStore : Obligations.LoadUndoesStore := by
  intro x s t u w hwf hstore hparams hmem hindex hload r hr
  rw [getV_of_exec_loadRegs hload hr, hindex, readByte_congr hparams hmem]
  exact readByte_of_exec_storeRegs hwf hstore hr

end Sys2Proof.Machine
end

