-- ==== Sys2Proof/Proofs/CallStack.lean ====
section
/-! PROOFS. The call (spec/40_system_flow.md R121, R123): the push, the fault on a full stack, and the return after it. -/

namespace Sys2Proof.Machine

/-- R123: with a free slot, CALL pushes the address after it and jumps. -/
theorem exec_call_of_room {s : State} (hslot : s.sp.toNat < 16) (nnn : BitVec 12) :
    exec (.call nnn) s = .next (setPc (zextNNN nnn) (pushReturn (s.pc + 2) s hslot)) := by
  have hne : s.sp ≠ 16 := by
    intro hfull
    rw [hfull] at hslot
    exact absurd hslot (by decide)
  change execCall nnn s = _
  rw [execCall, if_neg hne, dif_pos hslot]

/-- R123: on a full stack, CALL is the StackOverflow fault. -/
theorem exec_call_of_full {s : State} (hfull : s.sp = 16) (nnn : BitVec 12) :
    exec (.call nnn) s = .next (raise (.stackOverflow s.pc) s) := if_pos hfull

theorem pushReturn_sp_toNat {s : State} (hslot : s.sp.toNat < 16) (a : Addr) :
    (pushReturn a s hslot).sp.toNat = s.sp.toNat + 1 := by
  rw [pushReturn_sp]
  bv_omega

/-- R39: the push writes the slot `SP` names. -/
theorem pushReturn_slot {s : State} {k : Fin 16} (hsp : s.sp.toNat = k.val) (hslot : s.sp.toNat < 16) (a : Addr)
    (j : Fin 16) : (pushReturn a s hslot).stack[j] = if j = k then a else s.stack[j] := by
  have hjk : k.val = j.val ↔ j = k := by rw [Fin.ext_iff, eq_comm]
  simp [Vector.getElem_set, hsp, hjk]

/-- Settles O22: the decoder's clause, then the push and the fault by the free slot. -/
theorem callPushesTheReturnAddress : Obligations.CallPushesTheReturnAddress := by
  refine ⟨fun has _ => decodeWord_call has, fun nnn s k hsp => ?push, fun nnn s hfull => ?fault⟩
  case push =>
    have hslot : s.sp.toNat < 16 := hsp ▸ k.isLt
    have hstack := pushReturn_slot hsp hslot (s.pc + 2)
    refine ⟨_, exec_call_of_room hslot nnn, (hstack k).trans (if_pos rfl), fun j hj => (hstack j).trans (if_neg hj),
      (pushReturn_sp_toNat hslot (s.pc + 2)).trans (congrArg (· + 1) hsp), zextNNN_toNat nnn, ?_⟩
    exact keepsAllBut_seq (pushReturn_keeps _ s hslot) (setPc_keeps _ _)
  case fault => exact ⟨_, exec_call_of_full hfull nnn, raise_running _ s, raise_trace _ s, raise_keeps _ s⟩

/-- A part that is the same after all may leave a frame's list. -/
theorem keepsAllBut_drop {p : Part} {ps : List Part} {s t : State} (h : keepsAllBut (p :: ps) s t)
    (hp : samePart p s t) : keepsAllBut ps s t := by
  intro q hq
  by_cases hqp : q = p
  · exact hqp ▸ hp
  · exact h q (List.not_mem_cons_of_ne_of_not_mem hqp hq)

/-- Settles O23: the return finds the pushed slot on top, and takes `SP` back. -/
theorem returnUndoesCall : Obligations.ReturnUndoesCall := by
  intro nnn s k hsp
  have hslot : s.sp.toNat < 16 := hsp ▸ k.isLt
  have hstack := pushReturn_slot hsp hslot (s.pc + 2)
  have hcall := exec_call_of_room hslot nnn
  have hcallKeeps : keepsAllBut [.sp, .pc, .stackSlots] s _ :=
    keepsAllBut_seq (pushReturn_keeps (s.pc + 2) s hslot) (setPc_keeps (zextNNN nnn) _)
  have htop : (setPc (zextNNN nnn) (pushReturn (s.pc + 2) s hslot)).sp.toNat = k.val + 1 :=
    (pushReturn_sp_toNat hslot (s.pc + 2)).trans (congrArg (· + 1) hsp)
  have hret := exec_ret_of_pop htop
  have hspBack : s.sp + 1 - 1 = s.sp := BitVec.add_sub_cancel s.sp 1
  have htarget := (hstack k).trans (if_pos rfl)
  refine ⟨_, _, hcall, hret, htarget, hspBack, htarget, fun j hj => (hstack j).trans (if_neg hj), ?_⟩
  refine keepsAllBut_drop (p := .sp) (keepsAllBut_trans hcallKeeps ?_) hspBack
  exact keepsAllBut_seq (dropReturn_keeps _) (setPc_keeps _ _)

end Sys2Proof.Machine
end

