-- ==== Sys2Proof/Proofs/SubtractAndShift.lean ====
section
/-! PROOFS. The subtractions and the shifts of family 8 (spec/43_alu.md R155 to R158): each result and flag as arithmetic on
the exact operands. -/

namespace Sys2Proof.Machine

theorem exec_subReg (x y : Reg) (s : State) : exec (.subReg x y) s =
    .next (advance (setResultAndFlag x (getV s x - getV s y) (notBorrow (getV s x) (getV s y)) s)) := rfl

theorem exec_subn (x y : Reg) (s : State) : exec (.subn x y) s =
    .next (advance (setResultAndFlag x (getV s y - getV s x) (notBorrow (getV s y) (getV s x)) s)) := rfl

theorem exec_shr (x y : Reg) (s : State) : exec (.shr x y) s =
    .next (advance (setResultAndFlag x (shiftSource x y s >>> 1) (shiftedOutRight (shiftSource x y s)) s)) := rfl

theorem exec_shl (x y : Reg) (s : State) : exec (.shl x y) s =
    .next (advance (setResultAndFlag x (shiftSource x y s <<< 1) (shiftedOutLeft (shiftSource x y s)) s)) := rfl

/-- The difference of two bytes is their difference as numbers, modulo 256. -/
theorem byte_sub_eq_ofNat (a b : Byte) : a - b = BitVec.ofNat 8 ((a.toNat + 256 - b.toNat) % 256) := by
  apply BitVec.eq_of_toNat_eq
  rw [BitVec.toNat_ofNat]
  bv_omega

theorem notBorrow_eq_true_iff (a b : Byte) : notBorrow a b = true ↔ a.toNat ≥ b.toNat := decide_eq_true_iff

theorem byte_shiftRight_one (b : Byte) : b >>> 1 = BitVec.ofNat 8 (b.toNat / 2) := by
  apply BitVec.eq_of_toNat_eq
  rw [BitVec.toNat_ushiftRight, BitVec.toNat_ofNat, Nat.shiftRight_eq_div_pow]
  omega

theorem byte_shiftLeft_one (b : Byte) : b <<< 1 = BitVec.ofNat 8 (b.toNat * 2 % 256) := by
  apply BitVec.eq_of_toNat_eq
  rw [BitVec.toNat_shiftLeft, BitVec.toNat_ofNat, Nat.shiftLeft_eq]
  omega

theorem shiftedOutRight_eq_true_iff (b : Byte) : shiftedOutRight b = true ↔ b.toNat % 2 = 1 := by
  rw [shiftedOutRight, BitVec.getLsbD, Nat.testBit_zero, decide_eq_true_iff]

theorem shiftedOutLeft_eq_true_iff (b : Byte) : shiftedOutLeft b = true ↔ b.toNat ≥ 128 := by
  have hmsb : shiftedOutLeft b = b.msb := (BitVec.msb_eq_getLsbD_last b).symm
  rw [hmsb, BitVec.msb_eq_decide, decide_eq_true_iff]

/-- Settles O28: the decoder's two clauses, then each subtraction as a result and a flag. -/
theorem subtractionsSetNotBorrow : Obligations.SubtractionsSetNotBorrow := by
  refine ⟨fun has _ => decodeWord_subReg has, fun has _ => decodeWord_8XY7 has, fun x y s => ⟨?sub, ?subn⟩⟩ <;>
    rw [← byte_sub_eq_ofNat]
  case sub => exact completes_of_exec_eq_setResultAndFlag (exec_subReg x y s) (notBorrow_eq_true_iff _ _)
  case subn => exact completes_of_exec_eq_setResultAndFlag (exec_subn x y s) (notBorrow_eq_true_iff _ _)

/-- Settles O29: the decoder's two clauses, then each shift of the source as a result and a flag. -/
theorem shiftsSetTheDroppedBit : Obligations.ShiftsSetTheDroppedBit := by
  refine ⟨fun has _ => decodeWord_shr has, fun has _ => decodeWord_shl has, fun x y s b hb => ?_⟩
  obtain rfl : b = shiftSource x y s := hb
  rw [← byte_shiftRight_one, ← byte_shiftLeft_one]
  exact ⟨completes_of_exec_eq_setResultAndFlag (exec_shr x y s) (shiftedOutRight_eq_true_iff _),
    completes_of_exec_eq_setResultAndFlag (exec_shl x y s) (shiftedOutLeft_eq_true_iff _)⟩

end Sys2Proof.Machine
end

