-- ==== Sys2Proof/Proofs/HostReads.lean ====
section
/-! PROOFS. The instructions that read the host's answers or the keys, and the two that compute `I` (spec/44_index_jump_random.md
R167, spec/46_keys.md, spec/47_fx_misc.md R186 to R190): the register or the address each of them writes. -/

namespace Sys2Proof.Machine

/-! The random draw -/

theorem exec_rnd (x : Reg) (nn : Byte) (s : State) :
    exec (.rnd x nn) s = .next (advance (setV x (randAnswer s &&& nn) (afterRand s))) := rfl

/-- Settles O31: the draw is `randAnswer`, the head of the list where there is one. -/
theorem randomIsMasked : Obligations.RandomIsMasked := by
  refine ⟨fun has _ => decodeWord_rnd has, fun x nn s => ⟨randAnswer s, ?_, fun r' rest hrands => ?listed⟩⟩
  case listed => simp [randAnswer, hrands]
  refine ⟨_, exec_rnd x nn s, onlyReg_advance_setV x _ (afterRand s), ?masked, rfl, rfl, exec_keeps (exec_rnd x nn s)⟩
  case masked =>
    rw [advance_eq, getV_setPc, getV_setV_same, BitVec.and_assoc, BitVec.and_not_self]
    exact BitVec.and_zero

/-! The skips on keys -/

theorem exec_skp_of_key {x : Reg} {s : State} (hkey : (getV s x).toNat < 16) :
    exec (.skp x) s = .next (skipNextIf (keyDown x s) s) := if_neg hkey.not_ge

theorem exec_sknp_of_key {x : Reg} {s : State} (hkey : (getV s x).toNat < 16) :
    exec (.sknp x) s = .next (skipNextIf (!keyDown x s) s) := if_neg hkey.not_ge

/-- R182: both skips enter the same fault on an index of 16 or more. -/
theorem exec_keySkip_of_badKey {x : Reg} {s : State} {i : Instr} (hi : i = .skp x ∨ i = .sknp x)
    (hkey : (getV s x).toNat ≥ 16) : exec i s = .next (raise (.invalidKeyIndex (getV s x) (some s.pc)) s) := by
  rcases hi with rfl | rfl <;> exact if_pos hkey

/-- Settles O36: the decoder's two clauses, then R134 with the key's bit and its negation, and the fault. -/
theorem keySkips : Obligations.KeySkips := by
  refine ⟨fun has _ => decodeWord_skp has, fun has _ => decodeWord_sknp has, fun x s k hk => ?skip,
    fun x s i hi hkey => ?fault⟩
  case skip =>
    have hkey : (getV s x).toNat < 16 := hk ▸ k.isLt
    have hdown : keyDown x s = s.keys.getLsbD k.val := by rw [keyDown, hk]
    refine ⟨completes_of_exec_eq_skipNextIf (exec_skp_of_key hkey) (by rw [hdown]), ?_⟩
    simp only [← ite_not (s.keys.getLsbD k.val = true) (s.pc + 4)]
    exact completes_of_exec_eq_skipNextIf (exec_sknp_of_key hkey) (by simp [hdown])
  case fault =>
    exact ⟨_, exec_keySkip_of_badKey hi hkey, raise_running _ s, raise_trace _ s, raise_keeps _ s⟩

/-! The key wait -/

theorem exec_ldVxKey_of_none {x : Reg} {s : State} (h : s.keys = 0) : exec (.ldVxKey x) s = .next s := if_pos h

theorem exec_ldVxKey_of_some {x : Reg} {s : State} (h : s.keys ≠ 0) :
    exec (.ldVxKey x) s = .next (advance (setV x (BitVec.ofNat 8 (pickKey s).val) (useFresh true s))) := if_neg h

/-- Settles O37: the decoder's clause, then the wait by `KEYS`; the key stored is `pickKey`, which is down. -/
theorem keyWait : Obligations.KeyWait := by
  refine ⟨fun has _ => decodeWord_ldVxKey has, fun x s => ⟨exec_ldVxKey_of_none, fun hkeys => ?_⟩⟩
  have hexec := exec_ldVxKey_of_some (x := x) hkeys
  exact ⟨_, hexec, pickKey s, pickKey_down hkeys, onlyReg_advance_setV x _ (useFresh true s), rfl, exec_keeps hexec⟩

/-! The instructions that compute `I` -/

theorem exec_addIndex (x : Reg) (s : State) : exec (.addIndex x) s =
    .next (advance (setFlag (indexOverflow x s) (setIndex (maskedIndexSum x s) s))) := rfl

theorem maskedIndexSum_toNat (x : Reg) (s : State) :
    (maskedIndexSum x s).toNat = (s.index.toNat + (getV s x).toNat) % 0x1000 := by
  rw [maskedIndexSum, BitVec.toNat_ofNat, indexSum]
  omega

theorem indexOverflow_eq_true_iff (x : Reg) (s : State) :
    indexOverflow x s = true ↔ s.index.toNat + (getV s x).toNat > 0xFFF := decide_eq_true_iff

/-- Settles O39: the decoder's clause, then the sum and its overflow from the exact operands. -/
theorem addIndexMasksAndFlags : Obligations.AddIndexMasksAndFlags := by
  refine ⟨fun has _ => decodeWord_addIndex has, fun x s => ?_⟩
  simp only [← indexOverflow_eq_true_iff]
  exact ⟨_, exec_addIndex x s, maskedIndexSum_toNat x s, onlyReg_advance_setV 15 _ (setIndex _ s), rfl,
    exec_keeps (exec_addIndex x s)⟩

theorem exec_ldFont_of_digit {x : Reg} {s : State} (h : (getV s x).toNat ≤ 15) :
    exec (.ldFont x) s = .next (advance (setIndex (glyphAddr s.params (getV s x).toNat) s)) := if_neg h.not_gt

theorem exec_ldFont_of_noDigit {x : Reg} {s : State} (h : (getV s x).toNat > 15) :
    exec (.ldFont x) s = .fault .fontIndexRange := if_pos h

/-- Settles O40: the decoder's clause, then the glyph's address on the one side of digit 15, and the stop on the other. -/
theorem ldFontPointsAtGlyph : Obligations.LdFontPointsAtGlyph := by
  refine ⟨fun has _ => decodeWord_ldFont has, fun x s => ⟨fun hdigit => ?_, exec_ldFont_of_noDigit⟩⟩
  have hexec := exec_ldFont_of_digit hdigit
  exact ⟨_, hexec, rfl, fun hp => glyphAddr_toNat hp (Nat.lt_succ_of_le hdigit), rfl, exec_keeps hexec⟩

end Sys2Proof.Machine
end

