-- ==== Sys2Proof/Proofs/DrawCells.lean ====
section
/-! PROOFS. The cells of a sprite and the calls of a draw (spec/45_draw.md R170 to R177): a sprite is read as a grid of
positions, rows outermost, of which the set and visible ones are plotted. -/

namespace Sys2Proof.Machine

/-! A sprite as a grid of positions -/

/-- The (row, column) positions of a sprite of `rows` bytes, in the order R171 plots them. -/
def spriteGrid (rows : Nat) : List (Nat × Nat) :=
  (List.range rows).flatMap fun row => (List.range 8).map fun col => (row, col)

/-- The cell that a position of a sprite plots, if its bit is set and its pixel is visible. -/
def cellAt (wrap : Bool) (x0 y0 : Nat) (bytes : List Byte) (q : Nat × Nat) : Option (Addr × Addr) :=
  if (bytes.getD q.1 0).getLsbD (7 - q.2) then plotTarget wrap (x0 + q.2) (y0 + q.1) else none

theorem mem_spriteGrid {rows row col : Nat} : (row, col) ∈ spriteGrid rows ↔ row < rows ∧ col < 8 := by
  simp [spriteGrid]

/-- The positions ascend, rows outermost. -/
theorem spriteGrid_pairwise (rows : Nat) :
    (spriteGrid rows).Pairwise (fun a b => a.1 < b.1 ∨ (a.1 = b.1 ∧ a.2 < b.2)) := by
  refine List.pairwise_flatMap.mpr ⟨fun row _ => ?sameRow, List.pairwise_lt_range.imp fun hrow q hq q' hq' => ?rows⟩
  case sameRow => exact List.pairwise_map.mpr (List.pairwise_lt_range.imp fun hcol => .inr ⟨rfl, hcol⟩)
  case rows =>
    obtain ⟨_, -, rfl⟩ := List.mem_map.mp hq
    obtain ⟨_, -, rfl⟩ := List.mem_map.mp hq'
    exact .inl hrow

/-- The grid of one more row: the first row, then the rest one row further down. -/
theorem spriteGrid_succ (rows : Nat) :
    spriteGrid (rows + 1) =
      (List.range 8).map (fun col => (0, col)) ++ (spriteGrid rows).map fun q => (q.1 + 1, q.2) := by
  simp [spriteGrid, List.range_succ_eq_map, List.flatMap_map, List.map_flatMap]

theorem cellAt_cons_succ (wrap : Bool) (x0 y0 : Nat) (byte : Byte) (bytes : List Byte) (q : Nat × Nat) :
    cellAt wrap x0 y0 (byte :: bytes) (q.1 + 1, q.2) = cellAt wrap x0 (y0 + 1) bytes q := by
  rw [cellAt, cellAt, List.getD_cons_succ, Nat.add_right_comm, Nat.add_assoc]

/-- R170: a sprite plots the cells of its grid in order. -/
theorem spritePixels_eq (wrap : Bool) (x0 y0 : Nat) (bytes : List Byte) :
    spritePixels wrap x0 y0 bytes = (spriteGrid bytes.length).filterMap (cellAt wrap x0 y0 bytes) := by
  induction bytes generalizing y0 with
  | nil => rfl
  | cons byte rest ih =>
    rw [List.length_cons, spriteGrid_succ, List.filterMap_append, List.filterMap_map, List.filterMap_map]
    refine congrArg₂ _ rfl ((ih (y0 + 1)).trans (List.filterMap_congr fun q _ => ?_))
    exact (cellAt_cons_succ wrap x0 y0 byte rest q).symm

theorem mem_spritePixels {wrap : Bool} {x0 y0 : Nat} {bytes : List Byte} {p : Addr × Addr} :
    p ∈ spritePixels wrap x0 y0 bytes ↔
      ∃ row col, row < bytes.length ∧ col < 8 ∧ (bytes.getD row 0).getLsbD (7 - col) = true ∧
        plotTarget wrap (x0 + col) (y0 + row) = some p := by
  simp only [spritePixels_eq, List.mem_filterMap, Prod.exists, mem_spriteGrid, cellAt, Option.ite_none_right_eq_some,
    and_assoc]

theorem spriteBytes_getD {n : BitVec 4} {row : Nat} (hrow : row < n.toNat) (s : State) :
    (spriteBytes n s).getD row 0 = readByte s (s.index.toNat + row) := by
  simp [spriteBytes, Memory.readList, List.getD_eq_getElem?_getD, hrow, readByte, baseAddr]

/-- R177: the sprite of `DXYN` is the `N` bytes from `I` on. -/
theorem mem_drawTargets {x y : Reg} {n : BitVec 4} {s : State} {p : Addr × Addr} :
    p ∈ drawTargets x y n s ↔
      ∃ row col, row < n.toNat ∧ col < 8 ∧ (readByte s (s.index.toNat + row)).getLsbD (7 - col) = true ∧
        plotTarget s.quirks.wrap ((getV s x).toNat + col) ((getV s y).toNat + row) = some p := by
  rw [drawTargets, mem_spritePixels, spriteBytes_length]
  refine exists₂_congr fun row col => and_congr_right fun hrow => ?_
  rw [spriteBytes_getD hrow]

/-- Settles O32: a cell is plotted by a position of the grid, and a pixel's cell is `plotTarget_eq_some`. -/
theorem spriteCells : Obligations.SpriteCells := by
  refine ⟨fun wrap x0 y0 bytes p => ?_, fun x y n s p => ?_⟩
  · simp only [mem_spritePixels, plotTarget_eq_some]
  · simp only [mem_drawTargets, plotTarget_eq_some]

/-! The plotted positions -/

/-- Where `g` of a kept value is `h` of what it came from, the kept values can be read off the elements that keep one. -/
theorem map_filterMap_eq_map_filter {α β γ : Type} {f : α → Option β} {g : β → γ} {h : α → γ}
    (hfg : ∀ a b, f a = some b → g b = h a) (l : List α) :
    (l.filterMap f).map g = (l.filter fun a => (f a).isSome).map h := by
  induction l with
  | nil => rfl
  | cons a l ih =>
    cases hf : f a with
    | none => simp [hf, ih]
    | some b => simp [hf, ih, hfg a b hf]

/-- The positions of the sprite of `DXYN` that plot a cell, in order. -/
def drawPositions (x y : Reg) (n : BitVec 4) (s : State) : List (Nat × Nat) :=
  (spriteGrid n.toNat).filter fun q =>
    (cellAt s.quirks.wrap (getV s x).toNat (getV s y).toNat (spriteBytes n s) q).isSome

/-- R172: a pixel is visible with wrap, and inside the display. -/
theorem plotTarget_isSome (wrap : Bool) (px py : Nat) :
    (plotTarget wrap px py).isSome = true ↔ wrap = true ∨ (px < 64 ∧ py < 32) := by
  have hw : Config.dispW = 64 := rfl
  have hh : Config.dispH = 32 := rfl
  cases wrap <;> simp [plotTarget, hw, hh]

theorem mem_drawPositions {x y : Reg} {n : BitVec 4} {s : State} {row col : Nat} :
    (row, col) ∈ drawPositions x y n s ↔
      row < n.toNat ∧ col < 8 ∧ (readByte s (s.index.toNat + row)).getLsbD (7 - col) = true ∧
        (s.quirks.wrap = true ∨ ((getV s x).toNat + col < 64 ∧ (getV s y).toNat + row < 32)) := by
  rw [drawPositions, List.mem_filter, mem_spriteGrid, and_assoc]
  refine and_congr_right fun hrow => and_congr_right fun _ => ?_
  rw [cellAt, spriteBytes_getD hrow, ← plotTarget_isSome]
  split <;> simp [*]

/-- R172: a plotted position's cell has its coordinates modulo the display's size. -/
theorem drawTargets_coords (x y : Reg) (n : BitVec 4) (s : State) :
    (drawTargets x y n s).map (fun p => (p.1.toNat, p.2.toNat)) =
      (drawPositions x y n s).map fun q => (((getV s x).toNat + q.2) % 64, ((getV s y).toNat + q.1) % 32) := by
  rw [drawTargets, spritePixels_eq, spriteBytes_length]
  refine map_filterMap_eq_map_filter (fun q p hq => ?_) _
  obtain ⟨hx, hy⟩ := plotTarget_coords (Option.ite_none_right_eq_some.mp hq).2
  rw [hx, hy]

theorem drawTargets_inside {x y : Reg} {n : BitVec 4} {s : State} {p : Addr × Addr} (h : p ∈ drawTargets x y n s) :
    p.1.toNat ≤ 63 ∧ p.2.toNat ≤ 31 := by
  obtain ⟨row, col, -, -, -, hp⟩ := mem_drawTargets.mp h
  obtain ⟨hx, hy⟩ := plotTarget_coords hp
  omega

/-! The calls -/

theorem drawn_trace (x y : Reg) (n : BitVec 4) (s : State) :
    (drawn x y n s).trace =
      (plotAll (drawTargets x y n s) (setFlag false s)).2.trace ++ [.screen s.callbacks.screen false true] := by
  have hcallbacks : (plotAll (drawTargets x y n s) (setFlag false s)).2.callbacks = s.callbacks :=
    plotAll_keeps _ _ .callbacks (by decide)
  unfold drawn
  generalize plotAll (drawTargets x y n s) (setFlag false s) = r at *
  cases r.1 <;> simp [hcallbacks]

theorem drawn_pc (x y : Reg) (n : BitVec 4) (s : State) : (drawn x y n s).pc = s.pc + 2 := by
  have hpc : (plotAll (drawTargets x y n s) (setFlag false s)).2.pc = s.pc := plotAll_keeps _ _ .pc (by decide)
  unfold drawn
  generalize plotAll (drawTargets x y n s) (setFlag false s) = r at *
  cases r.1 <;> simp [hpc]

/-- Settles O33: the positions are the plotted ones of the grid; the calls are those of `plotAll_spec`, and `VF` says
whether some answer was a collision. -/
theorem drawCallsTheHost : Obligations.DrawCallsTheHost := by
  refine ⟨fun has _ => decodeWord_drw has, fun x y n s hspan => ⟨fun p => drawTargets_inside, ?positions, ?calls⟩⟩
  case positions =>
    exact ⟨drawPositions x y n s, (spriteGrid_pairwise n.toNat).filter _, fun row col => mem_drawPositions,
      drawTargets_coords x y n s⟩
  case calls =>
    obtain ⟨answers, hlen, hhit, htrace, hlisted⟩ := plotAll_spec (drawTargets x y n s) (setFlag false s)
    refine ⟨_, exec_drw_eq_drawn hspan, answers, hlen, ?_, hlisted, ⟨?_, fun r hr => ?_⟩, drawn_pc x y n s,
      drawn_keeps x y n s⟩
    · rw [drawn_trace, htrace]
      rfl
    · rw [getV_drawn, if_pos rfl, hhit]
    · rw [getV_drawn, if_neg hr]

/-- Settles O34: the range check on the last byte of the sprite; with `N = 0` no cell is plotted. -/
theorem drawReadsInsideMemory : Obligations.DrawReadsInsideMemory := by
  refine fun x y s => ⟨fun n hn hout => ?outside, fun n hn hin => ?inside, ?none⟩
  case outside =>
    refine exec_drw_of_outside fun hspan => ?_
    obtain ⟨m, hm⟩ := Nat.exists_eq_add_of_le' hn
    have hlast : s.index.toNat + m ≤ 4095 := by rwa [hm, spanInside_succ_iff] at hspan
    omega
  case inside =>
    obtain ⟨m, hm⟩ := Nat.exists_eq_add_of_le' hn
    have hlast : s.index.toNat + m ≤ 4095 := by omega
    have hspan : SpanInside (baseAddr s) n.toNat := by
      rw [hm]
      exact spanInside_succ_iff.mpr hlast
    exact ⟨_, exec_drw_eq_drawn hspan, drawn_pc x y n s⟩
  case none =>
    have hno : drawTargets x y 0 s = [] := rfl
    refine ⟨_, exec_drw_eq_drawn (.inl rfl), ?_, ?_, drawn_pc x y 0 s⟩
    · rw [getV_drawn, hno]
      rfl
    · rw [drawn_trace, hno]
      rfl

end Sys2Proof.Machine
end

