-- ==== Sys2Proof/Proofs/TickWork.lean ====
section
/-! PROOFS. How many calls one tick makes (spec/49_scheduler.md R204), activity by activity. -/

namespace Sys2Proof.Machine

/-! Calls, counted -/

/-- From `s` to `t` the trace grows, by at most so many calls of each kind. -/
def AddsCalls (polls clears presents draws : Nat) (s t : State) : Prop :=
  ∃ es, t.trace = s.trace ++ es ∧ es.countP isPollCall ≤ polls ∧ es.countP isClearCall ≤ clears ∧
    es.countP isPresentCall ≤ presents ∧ es.countP isDrawPixelCall ≤ draws

theorem addsCalls_of_trace_eq {polls clears presents draws : Nat} {s t : State} (h : t.trace = s.trace) :
    AddsCalls polls clears presents draws s t :=
  ⟨[], by simp [h], Nat.zero_le _, Nat.zero_le _, Nat.zero_le _, Nat.zero_le _⟩

/-- A report is no call of a callback. -/
theorem addsCalls_raise {polls clears presents draws : Nat} (f : HwFault) (s : State) :
    AddsCalls polls clears presents draws s (raise f s) :=
  ⟨[.report f], rfl, Nat.zero_le _, Nat.zero_le _, Nat.zero_le _, Nat.zero_le _⟩

theorem addsCalls_trans {p₁ c₁ q₁ d₁ p₂ c₂ q₂ d₂ : Nat} {s t u : State} (h : AddsCalls p₁ c₁ q₁ d₁ s t)
    (k : AddsCalls p₂ c₂ q₂ d₂ t u) : AddsCalls (p₁ + p₂) (c₁ + c₂) (q₁ + q₂) (d₁ + d₂) s u := by
  obtain ⟨es, hes, hp, hc, hq, hd⟩ := h
  obtain ⟨fs, hfs, hp', hc', hq', hd'⟩ := k
  refine ⟨es ++ fs, by rw [hfs, hes, List.append_assoc], ?_, ?_, ?_, ?_⟩ <;> rw [List.countP_append] <;>
    exact Nat.add_le_add ‹_› ‹_›

/-! The activities -/

theorem afterNow_addsCalls (s : State) : AddsCalls 0 0 0 0 s (afterNow s) :=
  ⟨[.now (nowAnswer s)], rfl, Nat.zero_le _, Nat.zero_le _, Nat.zero_le _, Nat.zero_le _⟩

theorem afterPoll_addsCalls (s : State) : AddsCalls 1 0 0 0 s (afterPoll s) :=
  ⟨[.poll s.callbacks.poll s.paused (pollAnswer s)], rfl, le_rfl, le_rfl, le_rfl, le_rfl⟩

theorem inputPoll_addsCalls (s : State) : AddsCalls 1 0 0 0 s (inputPoll s) := by
  unfold inputPoll
  split
  · exact addsCalls_trans (p₂ := 0) (c₂ := 0) (q₂ := 0) (d₂ := 0) (afterPoll_addsCalls s) (addsCalls_raise _ _)
  · exact afterPoll_addsCalls s

theorem inputTurn_addsCalls (now : Time) (s : State) : AddsCalls 1 0 0 0 s (inputTurn now s) := by
  unfold inputTurn
  split
  · exact inputPoll_addsCalls (stampIn now s)
  · exact addsCalls_of_trace_eq rfl

theorem timerStep_addsCalls (s : State) : AddsCalls 0 1 0 0 s (timerStep s) := by
  by_cases h : s.clearPending = true
  · exact ⟨_, timerStep_trace_of_pending h, le_rfl, le_rfl, le_rfl, le_rfl⟩
  · exact addsCalls_of_trace_eq (timerStep_trace_of_not_pending h)

theorem timerTurn_addsCalls (now : Time) (s : State) : AddsCalls 0 1 0 0 s (timerTurn now s) := by
  unfold timerTurn
  split
  · exact timerStep_addsCalls (stampTmr now s)
  · exact addsCalls_of_trace_eq rfl

theorem beforeCpu_addsCalls (s : State) : AddsCalls 1 1 0 0 s (beforeCpu s) :=
  addsCalls_trans (addsCalls_trans (afterNow_addsCalls s) (inputTurn_addsCalls _ _)) (timerTurn_addsCalls _ _)

/-! The instructions -/

theorem drawCalls_length_le (callback : Nat) (ps : List (Addr × Addr)) (answers : List Bool) :
    (drawCalls callback ps answers).length ≤ ps.length := by
  rw [drawCalls, List.length_zipWith]
  exact Nat.min_le_left _ _

/-- The calls for the cells are of one kind. -/
theorem countP_drawCalls {kind : HostEvent → Bool} (hkind : ∀ c x y a, kind (.drawPixel c x y a) = false)
    (callback : Nat) (ps : List (Addr × Addr)) (answers : List Bool) :
    (drawCalls callback ps answers).countP kind = 0 := by
  induction ps generalizing answers with
  | nil => rfl
  | cons p ps ih =>
    cases answers with
    | nil => rfl
    | cons c answers => rw [drawCalls_cons, List.countP_cons, ih, hkind]; rfl

/-- R170: at most eight cells a row. -/
theorem drawTargets_length_le (x y : Reg) (n : BitVec 4) (s : State) : (drawTargets x y n s).length ≤ 120 := by
  have hgrid : (spriteGrid n.toNat).length = n.toNat * 8 := by simp [spriteGrid]
  have hcells := List.length_filterMap_le
    (cellAt s.quirks.wrap (getV s x).toNat (getV s y).toNat (spriteBytes n s)) (spriteGrid n.toNat)
  rw [drawTargets, spritePixels_eq, spriteBytes_length]
  omega

theorem exec_drw_addsCalls {x y : Reg} {n : BitVec 4} {s t : State} (h : exec (.drw x y n) s = .next t) :
    AddsCalls 0 0 1 120 s t := by
  obtain ⟨answers, -, htrace, -⟩ := exec_drw_next h
  have hdraws := (List.countP_le_length (p := isDrawPixelCall)).trans ((drawCalls_length_le s.callbacks.drawPixel
    (drawTargets x y n s) answers).trans (drawTargets_length_le x y n s))
  refine ⟨_, htrace, ?_, ?_, ?_, by rw [List.countP_append]; exact hdraws⟩ <;>
    rw [List.countP_append, countP_drawCalls fun _ _ _ _ => rfl] <;> rfl

/-- R204: an instruction calls nobody but the sprite draw, and that at most 120 times before it presents. -/
theorem exec_addsCalls {i : Instr} {s t : State} (h : exec i s = .next t) : AddsCalls 0 0 1 120 s t := by
  cases i with
  | ret =>
    rcases exec_ret_cases h with rfl | ⟨_, -, rfl⟩
    · exact addsCalls_raise _ s
    · exact addsCalls_of_trace_eq rfl
  | call nnn =>
    rcases exec_call_cases h with rfl | ⟨_, rfl⟩
    · exact addsCalls_raise _ s
    · exact addsCalls_of_trace_eq rfl
  | skp x | sknp x =>
    rcases exec_keySkip_cases (x := x) (by simp) h with rfl | ⟨_, rfl⟩
    · exact addsCalls_raise _ s
    · exact addsCalls_of_trace_eq (skipNextIf_keeps _ s .trace (by decide))
  | rnd x nn =>
    obtain rfl := Host.Outcome.next.inj ((exec_rnd x nn s).symm.trans h)
    exact ⟨[.rand (randAnswer s)], rfl, Nat.zero_le _, Nat.zero_le _, Nat.zero_le _, Nat.zero_le _⟩
  | drw x y n => exact exec_drw_addsCalls h
  | _ => exact addsCalls_of_trace_eq (exec_keeps h .trace (by simp [writtenParts]))

theorem executeOne_addsCalls {s t : State} (h : executeOne s = .next t) : AddsCalls 0 0 1 120 s t := by
  rcases executeOne_cases h with ⟨_, -, -, rfl⟩ | ⟨_, _, -, -, hexec⟩
  · exact addsCalls_raise _ s
  · exact exec_addsCalls hexec

theorem tick_addsCalls {s t : State} (h : tick s = .next t) : AddsCalls 1 1 1 120 s t := by
  rcases tick_cases h with ⟨-, rfl⟩ | ⟨-, -, rfl⟩ | ⟨-, -, hcpu⟩
  · exact addsCalls_of_trace_eq rfl
  · exact addsCalls_trans (p₂ := 0) (c₂ := 0) (q₂ := 1) (d₂ := 120) (beforeCpu_addsCalls s)
      (addsCalls_of_trace_eq rfl)
  · have hexec : AddsCalls 0 0 1 120 (beforeCpu s) t :=
      executeOne_addsCalls (s := stampCpu (nowAnswer s) (beforeCpu s)) hcpu
    exact addsCalls_trans (beforeCpu_addsCalls s) hexec

/-- Settles O50: the counts of the activities add up. -/
theorem tickWorkIsBounded : Obligations.TickWorkIsBounded := fun _ _ => tick_addsCalls

end Sys2Proof.Machine
end

