-- ==== Sys2Proof/Proofs/PlacedWord.lean ====
section
/-! PROOFS. The step that runs a placed word (spec/20_memory.md R74, spec/49_scheduler.md R200): the word is fetched, and the
tick that `makeCpuDue` prepares runs its CPU step and nothing else. -/

namespace Sys2Proof.Machine

theorem placeWord_of_inside {s : State} (hpc : s.pc.toNat < 0xFFF) (op : Opcode) :
    placeWord op s = storeBytes s.pc.toNat (bytesOfWord op) s :=
  if_pos (spanInside_succ_iff.mpr (by omega))

/-- R74: the word placed at `pc` is the word fetched there. -/
theorem fetchWord_placeWord {s : State} (hwf : Memory.wf s.params s.mem) (hpc : s.pc.toNat < 0xFFF) (op : Opcode) :
    fetchWord (placeWord op s) = some op := by
  have hmem := memSize_eq
  have hbytes : ∀ k < 2, readByte (placeWord op s) (s.pc.toNat + k) = (bytesOfWord op).getD k 0 := fun k hk => by
    rw [placeWord_of_inside hpc]
    exact readByte_storeBytes_inside hwf (by simp only [bytesOfWord, List.length_cons, List.length_nil]; omega) hk
  have hat : (placeWord op s).pc = s.pc := by rw [placeWord_of_inside hpc, storeBytes_pc]
  rw [fetchWord_eq_some, hat]
  refine ⟨by omega, ?_⟩
  rw [show readByte _ s.pc.toNat = _ from hbytes 0 (by decide), hbytes 1 (by decide)]
  exact (wordOfBytes_bytes op).symm

theorem readByte_placeWord_outside {s : State} {a : Nat} (h0 : a ≠ s.pc.toNat) (h1 : a ≠ s.pc.toNat + 1)
    (op : Opcode) : readByte (placeWord op s) a = readByte s a := by
  unfold placeWord
  split
  · exact readByte_storeBytes_outside (by simp only [bytesOfWord, List.length_cons, List.length_nil]; omega) s
  · rfl

theorem placeWord_keeps (op : Opcode) (s : State) : keepsAllBut [.memory] s (placeWord op s) := by
  unfold placeWord
  split
  · exact storeBytes_keeps _ _ s
  · exact keepsAllBut_refl _ s

@[simp] theorem makeCpuDue_params (s : State) : (makeCpuDue s).params = s.params := rfl

@[simp] theorem makeCpuDue_lastIn (s : State) :
    (makeCpuDue s).lastIn = (s.lastCpu + s.params.pCpu) % 2 ^ s.params.clockBits := rfl

@[simp] theorem makeCpuDue_lastTmr (s : State) :
    (makeCpuDue s).lastTmr = (s.lastCpu + s.params.pCpu) % 2 ^ s.params.clockBits := rfl

/-- The state in which the instruction at `pc` runs in the tick that `makeCpuDue` prepares. -/
def dueState (s : State) : State :=
  stampCpu (nowAnswer (takeOp (makeCpuDue s))) (afterNow (takeOp (makeCpuDue s)))

/-- The tick reads the clock when the CPU step is due. -/
theorem nowAnswer_makeCpuDue (s : State) :
    nowAnswer (takeOp (makeCpuDue s)) = (s.lastCpu + s.params.pCpu) % 2 ^ s.params.clockBits :=
  (add_clockDelta_mod _ _ _).trans (Nat.mod_mod _ _)

/-- A tick in which neither the poll nor the timer step is due has only read the clock before the CPU step. -/
theorem beforeCpu_of_not_due {s : State} (hin : due s.params.clockBits (nowAnswer s) s.lastIn s.params.pIn = false)
    (htmr : due s.params.clockBits (nowAnswer s) s.lastTmr s.params.pTmr = false) : beforeCpu s = afterNow s := by
  have hpoll : inputTurn (nowAnswer s) (afterNow s) = afterNow s := inputTurn_of_not_due hin
  rw [beforeCpu, hpoll]
  exact timerTurn_of_gated (.inr htmr)

/-- With periods above 0 neither the poll nor the timer step is due in that tick. -/
theorem beforeCpu_makeCpuDue {s : State} (hin : 0 < s.params.pIn) (htmr : 0 < s.params.pTmr) :
    beforeCpu (takeOp (makeCpuDue s)) = afterNow (takeOp (makeCpuDue s)) := by
  apply beforeCpu_of_not_due <;> simp only [nowAnswer_makeCpuDue, takeOp_params, takeOp_lastIn, takeOp_lastTmr,
    makeCpuDue_params, makeCpuDue_lastIn, makeCpuDue_lastTmr]
  · exact due_self hin
  · exact due_self htmr

/-- The CPU step fires in that tick, if the clock's width can hold its period. -/
theorem cpuFires_makeCpuDue {s : State} (hcpu : s.params.pCpu < 2 ^ s.params.clockBits) :
    cpuFires (nowAnswer (takeOp (makeCpuDue s))) (afterNow (takeOp (makeCpuDue s))) = true := by
  rw [nowAnswer_makeCpuDue]
  exact cpuFires_iff.mpr ⟨rfl, rfl, decide_eq_true (clockDelta_mod_add hcpu).ge⟩

theorem makeCpuDue_keeps (s : State) :
    keepsAllBut [.running, .paused, .lastIn, .lastTmr, .clock, .ops] s (makeCpuDue s) := by
  intro p hp
  cases p <;> simp_all [samePart, getV, readByte, makeCpuDue]

/-- The tick takes back the call and the reading of the clock that `makeCpuDue` lists for it. -/
theorem dueState_keeps (s : State) :
    keepsAllBut [.running, .paused, .lastIn, .lastTmr, .lastCpu, .hostTime, .trace] s (dueState s) := by
  have hdue : keepsAllBut [.clock, .ops, .running, .paused, .lastIn, .lastTmr] s (takeOp (makeCpuDue s)) :=
    keepsAllBut_seq (makeCpuDue_keeps s) (takeOp_keeps _)
  have hnow : keepsAllBut [.clock, .ops, .fresh, .running, .paused, .lastIn, .lastTmr, .hostTime, .trace] s
      (afterNow (takeOp (makeCpuDue s))) := keepsAllBut_seq hdue (afterNow_keeps _)
  have hstamp : keepsAllBut
      [.clock, .ops, .fresh, .running, .paused, .lastIn, .lastTmr, .lastCpu, .hostTime, .trace] s (dueState s) :=
    keepsAllBut_seq hnow (stampCpu_keeps _ _)
  have hclock : samePart .clock s (dueState s) := by simp [samePart, dueState, afterNow, makeCpuDue]
  have hops : samePart .ops s (dueState s) := by simp [samePart, dueState, afterNow, makeCpuDue]
  have hfresh : samePart .fresh s (dueState s) := by simp [samePart, dueState, afterNow, makeCpuDue]
  exact keepsAllBut_drop (keepsAllBut_drop (keepsAllBut_drop hstamp hclock) hops) hfresh

theorem dueState_running (s : State) : (dueState s).running = true := rfl

theorem dueState_paused (s : State) : (dueState s).paused = false := rfl

theorem dueState_trace (s : State) : (dueState s).trace = s.trace ++ [.now (dueState s).lastCpu] := rfl

theorem readByte_dueState (s : State) (a : Nat) : readByte (dueState s) a = readByte s a :=
  dueState_keeps s .memory (by decide) a

theorem fetchWord_dueState (s : State) : fetchWord (dueState s) = fetchWord s := by
  have hpc : (dueState s).pc = s.pc := dueState_keeps s .pc (by decide)
  simp only [fetchWord, hpc, readByte_dueState]

/-- The next step of the prepared state runs the instruction at `pc`. -/
theorem step_makeCpuDue {s : State} {op : Opcode} {i : Instr} (hin : 0 < s.params.pIn) (htmr : 0 < s.params.pTmr)
    (hcpu : s.params.pCpu < 2 ^ s.params.clockBits) (hf : fetchWord s = some op)
    (hd : decodeWordWith s.params.has8xy7 op = some i) : step (makeCpuDue s) = exec i (dueState s) := by
  have hb := beforeCpu_makeCpuDue hin htmr
  have hf' : fetchWord (dueState s) = some op := (fetchWord_dueState s).trans hf
  have hparams : (dueState s).params = s.params := dueState_keeps s .params (by decide)
  have hd' : decodeWordWith (dueState s).params.has8xy7 op = some i := hparams ▸ hd
  have hfires : cpuFires (nowAnswer (takeOp (makeCpuDue s))) (beforeCpu (takeOp (makeCpuDue s))) = true := by
    rw [hb]
    exact cpuFires_makeCpuDue hcpu
  rw [step_of_tick rfl, tick_of_fires rfl hfires, hb]
  exact executeOne_of_decoded hf' hd'

/-- A table word that decodes with the default parameters decodes on every machine that has its instruction. -/
theorem decodeWord_of_decodeTableWord {has : Bool} {w : Nat} {i : Instr} (h : decodeTableWord 16 w = some i)
    (hw : i.wellFormedWith has = true) : decodeWordWith has (tableWord 16 w) = some i := by
  have hd : decodeWordWith Config.params.has8xy7 (tableWord 16 w) = some i := by
    cases hop : decodeWordWith Config.params.has8xy7 (tableWord 16 w) with
    | none => simp [decodeTableWord, decode, decodeWith, bytesOfWord, hop] at h
    | some j => simpa [decodeTableWord, decode, decodeWith, bytesOfWord, hop] using h
  obtain ⟨hop, -⟩ := encode_of_decodeWord hd
  rw [← hop]
  exact decodeWord_encode hw

/-- Settles O47: the placed word is fetched in the tick that makes the CPU step due and nothing else. -/
theorem placedWordRuns : Obligations.PlacedWordRuns := by
  intro s w i hwf hpc hin htmr hcpu hdecode hw
  have hplaced := placeWord_keeps (tableWord 16 w) s
  have hparams : (placeWord (tableWord 16 w) s).params = s.params := hplaced .params (by decide)
  have htrace : (placeWord (tableWord 16 w) s).trace = s.trace := hplaced .trace (by decide)
  have hf := fetchWord_placeWord hwf hpc (tableWord 16 w)
  have hd := decodeWord_of_decodeTableWord hdecode hw
  refine ⟨dueState (placeWord (tableWord 16 w) s), ?step, dueState_running _, dueState_paused _,
    (fetchWord_dueState _).trans hf, ?trace, keepsAllBut_seq hplaced (dueState_keeps _), fun a h0 h1 => ?bytes⟩
  case trace => rw [dueState_trace, htrace]
  case bytes => rw [readByte_dueState, readByte_placeWord_outside h0 h1]
  rw [← hparams] at hin htmr hcpu hd
  exact step_makeCpuDue hin htmr hcpu hf hd

end Sys2Proof.Machine
end
